-- ==== Sys2Proof/Word.lean ====
section
/-! DEFINITION. The word types of the block: what the spec treats as bits, at the widths it gives. -/

namespace Sys2Proof

/-- One byte of BUFMEM, a status byte or a tag byte (R39, R56, R156). -/
abbrev Byte := BitVec 8

/-- One 32-bit NFC register, port register or counter (R21, R24, R30). -/
abbrev Word := BitVec 32

/-- The 24-bit transfer lengths, byte counts and the value field of RESP (R25, R76, R78). -/
abbrev Len := BitVec 24

/-- The 16-bit snooze of WAIT_READY in milliseconds (R77, R79). -/
abbrev Millis := BitVec 16

end Sys2Proof
end

