-- ==== Sys2Proof/Machine/Types.lean ====
section
/-! DEFINITION. The vocabulary of the block: register names, sequencer states, result codes and trace events. -/

namespace Sys2Proof.Machine

/-- The ten NFC registers, in the order of R30. -/
inductive NfcReg where
  | command1 | command2 | command3 | address | config | control | status | interruptStatus | data | ecc
  deriving DecidableEq, Repr, Inhabited

/-- One value per NFC register: the offsets `REG_OFFSET` (R10) as a `NfcFile Nat`, register contents as a
`NfcFile Word`. -/
structure NfcFile (α : Type) where
  command1 : α
  command2 : α
  command3 : α
  address : α
  config : α
  control : α
  status : α
  interruptStatus : α
  data : α
  ecc : α
  deriving DecidableEq, Repr, Inhabited

/-- The ten names, in the order of R30. -/
def NfcReg.all : List NfcReg :=
  [.command1, .command2, .command3, .address, .config, .control, .status, .interruptStatus, .data, .ecc]

/-- The value a file holds for one register. -/
def NfcFile.get {α : Type} (f : NfcFile α) : NfcReg → α
  | .command1 => f.command1
  | .command2 => f.command2
  | .command3 => f.command3
  | .address => f.address
  | .config => f.config
  | .control => f.control
  | .status => f.status
  | .interruptStatus => f.interruptStatus
  | .data => f.data
  | .ecc => f.ecc

/-- A file with the value of one register replaced. -/
def NfcFile.set {α : Type} (f : NfcFile α) (r : NfcReg) (v : α) : NfcFile α :=
  match r with
  | .command1 => { f with command1 := v }
  | .command2 => { f with command2 := v }
  | .command3 => { f with command3 := v }
  | .address => { f with address := v }
  | .config => { f with config := v }
  | .control => { f with control := v }
  | .status => { f with status := v }
  | .interruptStatus => { f with interruptStatus := v }
  | .data => { f with data := v }
  | .ecc => { f with ecc := v }

/-- The states of `fsm` (R23). -/
inductive Fsm where
  | idle | transPending | transDone | deviceBusy | deviceReady | statusRead | ok | fail
  deriving DecidableEq, Repr, Inhabited

/-- The result codes of R200 that an operation of the block can end with (R202). -/
inductive Code where
  | ok | hardwareTimeout | deviceFail | transferShort | eccMismatch
  deriving DecidableEq, Repr

/-- `dte_dir` (R25): `rx` is 0 (PULL), `tx` is 1 (PUSH). -/
inductive Dir where
  | rx | tx
  deriving DecidableEq, Repr, Inhabited

/-- The two failures `Coll.ReadOob` can report (R160). -/
inductive OobFail where
  | transferShort | deviceFail
  deriving DecidableEq, Repr, Inhabited

/-- The result of `Coll.ReadOob(p, off, 1)` (R16, R160): the one byte read, or a failure. -/
inductive OobResult where
  | byte (b : Byte)
  | failed (c : OobFail)
  deriving DecidableEq, Repr, Inhabited

/-- Trace events (R16, R18), and beside them the HOST's own accesses, which belong to the event history of NFC
register accesses too (R20 c, R68). -/
inductive Event where
  /-- `R(r)=v` -/
  | regRead (r : NfcReg) (v : Word)
  /-- `W(r,v)` -/
  | regWrite (r : NfcReg) (v : Word)
  /-- `BR(a)=b` -/
  | bufRead (a : Nat) (b : Byte)
  /-- `BW(a,b)` -/
  | bufWrite (a : Nat) (b : Byte)
  /-- `D(n)` -/
  | delay (n : Nat)
  /-- `C.reread(p)=ok` -/
  | reread (p : Nat) (ok : Bool)
  /-- `C.read_oob(p,off,len)=...` -/
  | readOob (p off len : Nat) (res : OobResult)
  /-- A HOST read of an NFC register while the block is idle. -/
  | hostRegRead (r : NfcReg) (v : Word)
  /-- A HOST write of an NFC register while the block is idle. -/
  | hostRegWrite (r : NfcReg) (v : Word)
  /-- A HOST read of a BUFMEM byte. -/
  | hostBufRead (a : Nat) (b : Byte)
  /-- A HOST write of a BUFMEM byte. -/
  | hostBufWrite (a : Nat) (b : Byte)
  /-- A HOST read of RESP. -/
  | hostResp (v : Word)
  deriving DecidableEq, Repr

/-- The elements of the DTE and the RSM, and the NFC registers, that a collaborator call leaves with any values
(R69 c). `delay` is what the collaborator's own delays add to the ghost `elapsed_us`. -/
structure Havoc where
  nfc : NfcFile Word
  fsm : Fsm
  statusByte : Byte
  rsmBudget : Word
  rsmRetry : Word
  auxRetry : Word
  dteDir : Dir
  dteLen : Len
  dteCnt : Len
  dteRetry : Word
  delay : Nat
  deriving DecidableEq, Repr, Inhabited

/-- The HOST's answer to one `Coll.PageReread` (R69, R147): the result, the bytes left in the destination image
(byte i of the list at offset i of the image) and the havocked elements. -/
structure RereadAnswer where
  ok : Bool
  image : List Byte
  havoc : Havoc
  deriving DecidableEq, Repr, Inhabited

/-- The HOST's answer to one `Coll.ReadOob` (R69, R160): the result, what the call leaves in the read-back region (R251),
where entry i is for the byte at offset i and a byte without an entry, or with `none`, is as it was, and the havocked
elements. -/
structure OobAnswer where
  res : OobResult
  staged : List (Option Byte)
  havoc : Havoc
  deriving DecidableEq, Repr, Inhabited

end Sys2Proof.Machine
end

