-- ==== Sys2Proof/Config.lean ====
section
/-! DEFINITION. The parameters of the block (R8 to R12), their well-formedness (R9, R113), the reference sets REF
and TINY (R13, R14), and the free values, constants without a body: the configuration of the block after reset (R43),
and what ENV and the HOST's collaborators answer when State's list of answers has run out (R53, R69). -/

namespace Sys2Proof

open Sys2Proof.Machine

/-- A bit range `hi:lo` of a register (R15). -/
structure BitRange where
  hi : Nat
  lo : Nat
  deriving DecidableEq, Repr, Inhabited

/-- The four fields of the NFC's CONFIG register (R33). No rule of the block reads them. -/
structure ConfigLayout where
  addrCycles : BitRange
  xferLen : BitRange
  eccEn : BitRange
  opType : BitRange
  deriving DecidableEq, Repr, Inhabited

/-- `BUF_CLEAR_DONE` (R10): the buffer clear has taken effect iff `(RegRead(reg) & mask) = expect`. -/
structure BufClearDone where
  reg : NfcReg
  mask : Word
  expect : Word
  deriving DecidableEq, Repr, Inhabited

/-- The parameters of R8 (geometry), R10 (NFC interface), R11 (budgets and layout) and R12 (switches). -/
structure Config where
  /-- R8: bytes of main area per page. -/
  pageSize : Nat
  /-- R8: bytes of OOB area per page. -/
  oobSize : Nat
  /-- R8: pages per erase block. -/
  pagesPerBlock : Nat
  /-- R8: bytes of main area per block. -/
  blockSize : Nat
  /-- R8: bytes of main area per chip. -/
  chipSize : Nat
  /-- R8: row address cycles, used by no block rule. -/
  rowCycles : Nat
  /-- R8: column address cycles, used by no block rule. -/
  colCycles : Nat
  /-- R10: byte offset of each register from the NFC base. -/
  regOffset : NfcFile Nat
  /-- R10: transaction-done bit of INTERRUPT_STATUS. -/
  intDone : Word
  /-- R10: RX-buffer-ready bit of INTERRUPT_STATUS. -/
  intRxReady : Word
  /-- R10: TX-buffer-ready bit of INTERRUPT_STATUS. -/
  intTxReady : Word
  /-- R10: controller-busy bit of STATUS. -/
  stCtrlBusy : Word
  /-- R10: device-ready bit of STATUS. -/
  stDevReady : Word
  /-- R10: write-protect bit of CONTROL. -/
  ctlWp : Word
  /-- R10: data-buffer-clear bit of CONTROL. -/
  ctlBufClear : Word
  /-- R10: fail bit of the status byte. -/
  sbFail : Byte
  /-- R10: pass bit of the status byte. -/
  sbPass : Byte
  /-- R10: ready bit of the status byte. -/
  sbReady : Byte
  /-- R10: write-protect bit of the status byte. -/
  sbWp : Byte
  /-- R10: the register writes that issue the status-read command. -/
  statusReadSeq : List (NfcReg × Word)
  /-- R10: the register writes that issue the chip-level reset command. -/
  chipResetSeq : List (NfcReg × Word)
  /-- R10: how the effect of the buffer clear is observed. -/
  bufClearDone : BufClearDone
  /-- R33: where the fields of CONFIG lie. -/
  configLayout : ConfigLayout
  /-- R11: idle-poll budget of PULL. -/
  pullRetries : Nat
  /-- R11: idle-poll budget of PUSH. -/
  pushRetries : Nat
  /-- R11: retries per millisecond of snooze in WAIT_READY. -/
  retriesPerMs : Nat
  /-- R11: budget of the RX-ready wait of READ_STATUS. -/
  statusRetries : Nat
  /-- R11: budget of each of the first two waits of ALL_RESET. -/
  resetRetries : Nat
  /-- R11: snooze the HOST passes to WAIT_READY after an erase. -/
  eraseSnoozeMs : Nat
  /-- R11: bytes of ECC compared. -/
  eccBytes : Nat
  /-- R11: offset inside the OOB area of the first stored ECC byte. -/
  eccOobOffset : Nat
  /-- R11: offset inside the OOB area of the bad-block tag byte. -/
  bbOobOffset : Nat
  /-- R11: the byte the HOST writes to retire a block. -/
  bbMarkValue : Byte
  /-- R11: bytes of buffer memory. -/
  bufmemSize : Nat
  /-- R11: offset in BUFMEM of the read-back image. -/
  rbufBase : Nat
  /-- R11: page-read retries of the HOST's `read`. -/
  readRetryCount : Nat
  /-- R11: largest main-area transfer per read call of the HOST. -/
  chunkCeiling : Nat
  /-- R12: a ready/busy line is available. -/
  hasRb : Bool
  /-- R12: bad-block checking is compiled in. -/
  badblockCheck : Bool
  /-- R12: the HOST's `erase_write` re-reads what it wrote; read by no block rule. -/
  writeVerifyReadback : Bool
  /-- R12: WAIT_READY's second phase continues the first phase's counter. -/
  rbBudgetShared : Bool
  /-- R12: out-of-range addresses wrap by masking. -/
  pageWrap : Bool
  deriving DecidableEq, Repr, Inhabited

/-- `NUM_PAGES` (R8). -/
def Config.numPages (c : Config) : Nat := c.chipSize / c.pageSize

/-- `NUM_BLOCKS` (R8). -/
def Config.numBlocks (c : Config) : Nat := c.chipSize / c.blockSize

/-- `PAGE_IMAGE` (R8): the size of a page image, main area and OOB area. -/
def Config.pageImage (c : Config) : Nat := c.pageSize + c.oobSize

/-- `INT_CLEAR_ALL` (R10). -/
def Config.intClearAll (c : Config) : Word := c.intDone ||| c.intRxReady ||| c.intTxReady

/-- `FAIL_BYTE` (R10): the status byte with only the fail bit set. -/
def Config.failByte (c : Config) : Byte := c.sbFail

/-- The NFC register at a byte offset from the NFC base (R10, R40). -/
def Config.regAt (c : Config) (off : Nat) : Option NfcReg :=
  NfcReg.all.find? fun r => c.regOffset.get r == off

/-- A natural number is a power of two. -/
def isPowerOfTwo (n : Nat) : Bool := n != 0 && (n &&& (n - 1)) == 0

/-- A mask has exactly one bit set. -/
def isOneBit {w : Nat} (m : BitVec w) : Bool := isPowerOfTwo m.toNat

/-- No two entries of a list are equal. -/
def allDistinct {α : Type} [DecidableEq α] : List α → Bool
  | [] => true
  | a :: as => !as.contains a && allDistinct as

/-- R9: the geometry. -/
def Config.geometryWf (c : Config) : Bool :=
  isPowerOfTwo c.pageSize && isPowerOfTwo c.pagesPerBlock && isPowerOfTwo c.chipSize &&
  c.blockSize == c.pageSize * c.pagesPerBlock && decide (c.blockSize ≤ c.chipSize) && decide (0 < c.oobSize)

/-- R9, R11: the layout of the OOB area and of BUFMEM. No bound of 2^32 is put on BUFMEM_SIZE (DESIGN CHOICE,
notes/assumptions/21.md). -/
def Config.layoutWf (c : Config) : Bool :=
  c.eccBytes == 4 && decide (c.eccOobOffset + c.eccBytes ≤ c.oobSize) && decide (c.bbOobOffset < c.oobSize) &&
  (decide (c.bbOobOffset < c.eccOobOffset) || decide (c.eccOobOffset + c.eccBytes ≤ c.bbOobOffset)) &&
  decide (c.rbufBase + c.pageImage ≤ c.bufmemSize) && c.bbMarkValue != 0xFF#8

/-- R9: every mask one bit, masks of one register pairwise distinct, offsets distinct multiples of 4. -/
def Config.interfaceWf (c : Config) : Bool :=
  [c.intDone, c.intRxReady, c.intTxReady, c.stCtrlBusy, c.stDevReady, c.ctlWp, c.ctlBufClear].all isOneBit &&
  [c.sbFail, c.sbPass, c.sbReady, c.sbWp].all isOneBit &&
  allDistinct [c.intDone, c.intRxReady, c.intTxReady] && allDistinct [c.stCtrlBusy, c.stDevReady] &&
  allDistinct [c.ctlWp, c.ctlBufClear] && allDistinct [c.sbFail, c.sbPass, c.sbReady, c.sbWp] &&
  allDistinct (NfcReg.all.map c.regOffset.get) && NfcReg.all.all (fun r => c.regOffset.get r % 4 == 0)

/-- R97, R113: every budget fits its 32-bit counter. -/
def Config.budgetsWf (c : Config) : Bool :=
  decide (c.pullRetries < 2 ^ 32) && decide (c.pushRetries < 2 ^ 32) &&
  decide (65535 * c.retriesPerMs < 2 ^ 32) && decide (c.statusRetries < 2 ^ 32) && decide (c.resetRetries < 2 ^ 32)

/-- R9: the well-formedness check of a configuration, with the budget bounds of R113. -/
def Config.wf (c : Config) : Bool := c.geometryWf && c.layoutWf && c.interfaceWf && c.budgetsWf

/-- The parameter set REF (R13): the columns "REF value" of R8, R10, R11 and R12. `chunkCeiling` has no REF value;
it is one page image (notes/assumptions/4.md). No definition of the model uses it (R13): only tests do. -/
def Config.ref : Config where
  pageSize := 512
  oobSize := 16
  pagesPerBlock := 16
  blockSize := 8192
  chipSize := 16777216
  rowCycles := 2
  colCycles := 1
  regOffset :=
    { command1 := 0x00, command2 := 0x04, command3 := 0x08, address := 0x0C, config := 0x10, control := 0x14,
      status := 0x18, interruptStatus := 0x1C, data := 0x20, ecc := 0x24 }
  intDone := 0x00000001#32
  intRxReady := 0x00000002#32
  intTxReady := 0x00000004#32
  stCtrlBusy := 0x00000001#32
  stDevReady := 0x00000002#32
  ctlWp := 0x00000001#32
  ctlBufClear := 0x00000002#32
  sbFail := 0x01#8
  sbPass := 0x02#8
  sbReady := 0x40#8
  sbWp := 0x80#8
  statusReadSeq := [(.command1, 0x00000070#32), (.config, 0x00010005#32)]
  chipResetSeq := [(.command1, 0x000000FF#32), (.config, 0x00000001#32)]
  bufClearDone := { reg := .interruptStatus, mask := 0x00000004#32, expect := 0x00000004#32 }
  configLayout := { addrCycles := ⟨10, 8⟩, xferLen := ⟨31, 16⟩, eccEn := ⟨4, 4⟩, opType := ⟨3, 0⟩ }
  pullRetries := 1000
  pushRetries := 528
  retriesPerMs := 1000
  statusRetries := 1000
  resetRetries := 1000
  eraseSnoozeMs := 3
  eccBytes := 4
  eccOobOffset := 6
  bbOobOffset := 5
  bbMarkValue := 0x00#8
  bufmemSize := 1056
  rbufBase := 528
  readRetryCount := 1
  chunkCeiling := 528
  hasRb := true
  badblockCheck := true
  writeVerifyReadback := false
  rbBudgetShared := false
  pageWrap := true

/-- The parameter set TINY (R14): REF with small budgets. No definition of the model uses it: only tests do. -/
def Config.tiny : Config :=
  { Config.ref with pullRetries := 3, pushRetries := 2, retriesPerMs := 2, statusRetries := 2, resetRetries := 2 }

/-- FREE VALUE. The configuration of the block that `State.reset` is the reset state of: a parameter of the model (R10,
R13, R43), which the platform fixes and the spec does not. -/
opaque Config.platform : Config

/-- FREE VALUE. What ENV answers to a register read once State's list of answers has run out: some function of the
event history and a free choice (R53). It has no body, so no proof can see a value of it. -/
opaque Config.envRead : List Event → NfcReg → Nat → Word

/-- FREE VALUE. What STATUS or ECC holds right after a write to it (R35, R38: the spec gives such a write no effect
and no lack of one). -/
opaque Config.envStore : List Event → NfcReg → Word → Word

/-- FREE VALUE. The HOST's answer to a `Coll.PageReread` of a page once State's list has run out (R69). -/
opaque Config.freeReread : List Event → Nat → Nat → RereadAnswer

/-- FREE VALUE. The HOST's answer to a `Coll.ReadOob` once State's list has run out (R69). -/
opaque Config.freeOob : List Event → Nat → Nat → OobAnswer

/-- FREE VALUE. The byte a `Coll.PageReread` leaves at an offset of the destination image that its answer does not
list (R69 b: any values). -/
opaque Config.freeImageByte : List Event → Nat → Byte

end Sys2Proof
end

