-- ==== Sys2Proof/Machine/Memory.lean ====
section
/-! DEFINITION. BUFMEM as data (R41, R56): a list of (address, byte) pairs with strictly rising addresses. An address
that is not listed holds no value (R44), so no byte value is left out of the list. -/

namespace Sys2Proof.Machine.Memory

/-- Every address of the list is above `a`, and the addresses rise strictly. -/
def sortedAbove (a : Nat) : List Host.Cell → Bool
  | [] => true
  | c :: cs => decide (a < c.1) && sortedAbove c.1 cs

/-- The canonical form: strictly rising addresses. -/
def wf : List Host.Cell → Bool
  | [] => true
  | c :: cs => sortedAbove c.1 cs

/-- The byte at an address, or none where nothing has written it (R44). -/
def lookup : List Host.Cell → Nat → Option Byte
  | [], _ => none
  | c :: cs, a => if c.1 = a then some c.2 else lookup cs a

/-- The memory with one byte replaced or added, in canonical form. -/
def store : List Host.Cell → Nat → Byte → List Host.Cell
  | [], a, b => [(a, b)]
  | c :: cs, a, b =>
    if a < c.1 then (a, b) :: c :: cs
    else if a = c.1 then (a, b) :: cs
    else c :: store cs a b

/-- The memory with the bytes from `a` on replaced. -/
def storeAll (m : List Host.Cell) (a : Nat) : List Byte → List Host.Cell
  | [] => m
  | b :: bs => storeAll (store m a b) (a + 1) bs

/-- The memory with the bytes from `a` on replaced where an entry gives a byte, and as they were where it gives none. -/
def overlay (m : List Host.Cell) (a : Nat) : List (Option Byte) → List Host.Cell
  | [] => m
  | some b :: bs => overlay (store m a b) (a + 1) bs
  | none :: bs => overlay m (a + 1) bs

end Sys2Proof.Machine.Memory
end

