-- ==== Sys2Proof/Syntax.lean ====
section
/-! DEFINITION. The ten operations of the block (R80, spec/opcode_table.json), one constructor per row, each with
the operands R77 gives it. An operand word the table does not give an operation is no field of its constructor. -/

namespace Sys2Proof

inductive Instr where
  /-- PULL buf, len: move bytes from the NFC receive FIFO into BUFMEM (R96). -/
  | pull (len : Len) (buf : Word)
  /-- PUSH buf, len: move bytes from BUFMEM into the NFC transmit FIFO (R98). -/
  | push (len : Len) (buf : Word)
  /-- WAIT_READY ms: wait for the transaction and the device, return the status byte (R115). -/
  | waitReady (ms : Millis)
  /-- READ_STATUS: issue a status read and return the status byte (R118). -/
  | readStatus
  /-- CHIP_RESET: reset the NAND chip (R123). -/
  | chipReset
  /-- ALL_RESET: reset the controller's data path, then the chip (R122). -/
  | allReset
  /-- ECC_VERIFY.READ buf, page: compare the ECC register with the stored ECC of an image; `page` is carried and
  not used (R143). -/
  | eccVerifyRead (buf page : Word)
  /-- ECC_VERIFY.WRITE buf, page: re-read a page and compare; `buf` is carried and not used (R146). -/
  | eccVerifyWrite (buf page : Word)
  /-- BB_DETECT tag: compare a tag byte with 0xFF (R157). -/
  | bbDetect (tag : Byte)
  /-- BB_PROBE off: read and judge the tag of the block that holds a byte offset (R159). -/
  | bbProbe (off : Word)
  deriving DecidableEq, Repr

end Sys2Proof
end

