-- ==== Sys2Proof/Machine/State.lean ====
section
/-! DEFINITION. The state of the block and what surrounds it (R20 to R45), the reasons a step can stop, and reset. -/

namespace Sys2Proof.Machine

/-- A register of which R44 says that it holds no value after reset. `val` is what it holds and `held` says that
something has written it; until then `val` is the named reset value (notes/assumptions/2.md). -/
structure Reg (α : Type) where
  val : α
  held : Bool
  deriving DecidableEq, Repr

/-- The register after a write of `v`. -/
def Reg.wrote {α : Type} (v : α) : Reg α := ⟨v, true⟩

/-- The register after reset: nothing has written it. -/
def Reg.unwritten {α : Type} (v : α) : Reg α := ⟨v, false⟩

/-- The request port and the operand latches (R21). -/
structure Port where
  /-- `OPREQ`: the last request word the HOST wrote. -/
  opreq : Reg Word
  /-- `OPA`: operand word A as the HOST last wrote it. -/
  opa : Reg Word
  /-- `OPB`: operand word B as the HOST last wrote it. -/
  opb : Reg Word
  /-- `opa`: operand A as sampled when the last accepted request was issued. -/
  latchA : Reg Word
  /-- `opb`: operand B as sampled when the last accepted request was issued. -/
  latchB : Reg Word
  /-- `RESP`: the response word (R78). -/
  resp : Reg Word
  deriving DecidableEq, Repr

/-- RSM state (R24). -/
structure Rsm where
  /-- `rsm_budget`: the retry budget of the running WAIT_READY. -/
  budget : Word
  /-- `rsm_retry`: the down-counter of the WAIT_READY polls. -/
  retry : Word
  /-- `aux_retry`: the down-counter of the status read and of the first two waits of ALL_RESET. -/
  aux : Word
  /-- `status_byte`: the last status byte an RSM operation returned. -/
  statusByte : Reg Byte
  deriving DecidableEq, Repr

/-- DTE state (R25). -/
structure Dte where
  /-- `dte_len`: the requested transfer length. -/
  len : Len
  /-- `dte_cnt`: the bytes moved so far. -/
  cnt : Len
  /-- `dte_retry`: the down-counter of idle polls. -/
  retry : Word
  /-- `dte_dir`. -/
  dir : Dir
  deriving DecidableEq, Repr

/-- ECV state (R26). -/
structure Ecv where
  /-- `ecc_latch`: the value last read from the ECC register by a comparison. -/
  latch : Reg Word
  /-- `ecv_attempt`: the read-back attempts of the running or last ECC_VERIFY.WRITE. -/
  attempt : BitVec 2
  deriving DecidableEq, Repr

/-- BBD state (R27). -/
structure Bbd where
  /-- `bb_tag`: the tag byte last presented to the detector. -/
  tag : Reg Byte
  /-- `bb_bad`: the last verdict, true for bad. -/
  bad : Reg Bool
  deriving DecidableEq, Repr

/-- The answers of ENV and of the HOST's collaborators, which are parameters of the step relation (R43) and are
carried as data: each list is what the next reads and calls are answered, in order; past its end a free value
answers. A statement that holds for every state holds for every list. -/
structure Answers where
  reads : List Word
  rereads : List RereadAnswer
  oobs : List OobAnswer
  /-- How many free values have been drawn: the free choice of R53. -/
  drawn : Nat
  deriving DecidableEq, Repr

/-- What the HOST can do to the block (R21, R68). A program is a list of these. The addresses of BUFMEM are natural
numbers and not cut to 32 bits (DESIGN CHOICE, notes/assumptions/21.md). -/
inductive HostAct where
  /-- Write OPREQ: issue a request (R75). The next `overlap` actions of the list land while its operation runs. -/
  | writeOpreq (w : Word) (overlap : Nat)
  /-- Write OPA. -/
  | writeOpa (w : Word)
  /-- Write OPB. -/
  | writeOpb (w : Word)
  /-- Read RESP. -/
  | readResp
  /-- Read the NFC register at a byte offset, with an access of `bytes` bytes. -/
  | regRead (offset bytes : Nat)
  /-- Write the NFC register at a byte offset, with an access of `bytes` bytes. -/
  | regWrite (offset bytes : Nat) (v : Word)
  /-- Read one byte of BUFMEM. -/
  | memRead (a : Nat)
  /-- Write one byte of BUFMEM. -/
  | memWrite (a : Nat) (b : Byte)
  deriving DecidableEq, Repr

/-- The state: the elements of R21 to R29, BUFMEM (R41) and the event history (R20 c); beside them the parameters of
the step relation (R43) as data, and two fields of the model's own (`nfc`, `fsmPath`). -/
structure State where
  /-- The configuration (R8 to R12). No step changes it. -/
  cfg : Config
  /-- The request port (R21). -/
  port : Port
  /-- `busy` (R28): an operation is running. -/
  busy : Bool
  /-- `in_recovery` (R24, R28): an AllReset procedure is running. -/
  inRecovery : Bool
  /-- `err` (R28): the result code of the last completed operation. -/
  err : BitVec 4
  /-- `fsm` (R22, R23): the sequencer state. -/
  fsm : Fsm
  /-- RSM state (R24). -/
  rsm : Rsm
  /-- DTE state (R25). -/
  dte : Dte
  /-- ECV state (R26). -/
  ecv : Ecv
  /-- BBD state (R27). -/
  bbd : Bbd
  /-- `elapsed_us` (R29): the ghost sum of the requested delays. -/
  elapsedUs : Nat
  /-- BUFMEM (R41, R56): the bytes that hold a value. -/
  bufmem : List Host.Cell
  /-- ENV's registers as an access last saw or left them (R30 to R38, R55). ENV may change them at any time, so no
  read is answered from here. -/
  nfc : NfcFile Word
  /-- The event history (R18, R20 c), newest first. -/
  trace : List Event
  /-- Every value the block has assigned to `fsm` (R126), newest first. -/
  fsmPath : List Fsm
  /-- The answers of ENV and of the HOST's collaborators (R43, R53, R69). -/
  env : Answers
  /-- The HOST's next actions (R43), first one first. -/
  hostq : List HostAct
  deriving DecidableEq, Repr

/-- What held no value when it was read (R44, R214). -/
inductive Unheld where
  /-- The byte of BUFMEM at an address. -/
  | bufByte (a : Nat)
  /-- Operand word A, used by a request before the HOST wrote it. -/
  | opa
  /-- Operand word B, used by a request before the HOST wrote it. -/
  | opb
  /-- RESP, read by the HOST before any request was answered. -/
  | resp
  deriving DecidableEq, Repr

/-- The faults of the model (R214) and the access outside BUFMEM. Each stops the machine where the spec gives no
effect, so each is safe. -/
inductive Fault where
  /-- R214 `ConcurrentIssue`: the HOST wrote OPREQ while an operation ran (R75). Raised by `present` and
  `hostAccess`. Safe. -/
  | concurrentIssue
  /-- R214 `ConcurrentAccess`: while an operation ran the HOST touched an NFC register or wrote the BUFMEM region in
  use (R68). Raised by `hostAccess`. Safe. -/
  | concurrentAccess
  /-- R214 `UninitialisedRead`: a read of an element that holds no value (R44, R56). Raised by `memRead`, `issue` and
  `hostAccess`. Safe. -/
  | uninitialisedRead (what : Unheld)
  /-- An access to a byte at or above `BUFMEM_SIZE`, which does not exist (R56). Raised by `memRead`, `memWrite` and
  `pageReread`; no accepted request reaches it. Safe. -/
  | outsideBufmem (a : Nat)
  deriving DecidableEq, Repr

/-- What the model refuses. -/
inductive Refusal where
  /-- An operation whose meaning is not written yet; raised by `exec` alone. Safe. -/
  | notModelled (mnemonic : String)
  /-- A HOST access to an NFC register that is not 4 bytes wide (R51). Raised by `hostAccess`. Safe. -/
  | accessWidth (bytes : Nat)
  /-- A HOST access at an offset where none of the ten registers lies, which the source leaves to the platform (R61).
  Raised by `hostAccess`. Safe. -/
  | noRegisterAt (offset : Nat)
  deriving DecidableEq, Repr

/-- The state after RESET (R44, R240) of a block built with configuration `c`. -/
def State.resetWith (c : Config) : State where
  cfg := c
  port :=
    { opreq := .unwritten 0, opa := .unwritten 0, opb := .unwritten 0, latchA := .unwritten 0, latchB := .unwritten 0,
      resp := .unwritten 0 }
  busy := false
  inRecovery := false
  err := 0
  fsm := .idle
  rsm := { budget := 0, retry := 0, aux := 0, statusByte := .unwritten 0 }
  dte := { len := 0, cnt := 0, retry := 0, dir := .rx }
  ecv := { latch := .unwritten 0, attempt := 0 }
  bbd := { tag := .unwritten 0, bad := .unwritten false }
  elapsedUs := 0
  bufmem := []
  nfc :=
    { command1 := 0, command2 := 0, command3 := 0, address := 0, config := 0, control := 0, status := 0,
      interruptStatus := 0, data := 0, ecc := 0 }
  trace := []
  fsmPath := []
  env := { reads := [], rereads := [], oobs := [], drawn := 0 }
  hostq := []

/-- The machine right after reset, in a configuration that is left free (R13, R43, notes/assumptions/1.md). Statements
about reset are made of `State.resetWith c` for every `c`. -/
def State.reset : State := State.resetWith Config.platform

end Sys2Proof.Machine
end

