-- ==== Sys2Proof/Machine/Flags.lean ====
section
/-! DEFINITION. The flag tests of the block and the words flags and results are packed into: the bits of
INTERRUPT_STATUS, STATUS and the status byte (R35, R36, R39), write-1-to-clear (R55), the code and state encodings
(R23, R200), RESP (R78) and the HOST's views of a response (R180). -/

namespace Sys2Proof.Machine

/-- `v & mask ≠ 0`: the test every flag test of the pseudocode uses. -/
def anySet {w : Nat} (v mask : BitVec w) : Bool := (v &&& mask) != 0

/-- INTERRUPT_STATUS `done` (R36). -/
def istDone (c : Config) (v : Word) : Bool := anySet v c.intDone

/-- INTERRUPT_STATUS `rx_ready` (R36). -/
def istRxReady (c : Config) (v : Word) : Bool := anySet v c.intRxReady

/-- STATUS `ctrl_busy` (R35). -/
def statusCtrlBusy (c : Config) (v : Word) : Bool := anySet v c.stCtrlBusy

/-- STATUS `dev_ready` (R35). -/
def statusDevReady (c : Config) (v : Word) : Bool := anySet v c.stDevReady

/-- The status byte's `fail` bit (R39), the only one that decides a result (R111). -/
def sbFails (c : Config) (sb : Byte) : Bool := anySet sb c.sbFail

/-- The status byte's `ready` bit (R39), read by WaitReady without a ready/busy line. -/
def sbIsReady (c : Config) (sb : Byte) : Bool := anySet sb c.sbReady

/-- The status byte's `wp` bit (R39), which only the HOST reads. -/
def sbWriteProtect (c : Config) (sb : Byte) : Bool := anySet sb c.sbWp

/-- The status byte's `pass` bit (R39), which no rule reads. -/
def sbPasses (c : Config) (sb : Byte) : Bool := anySet sb c.sbPass

/-- CONTROL `wp` (R34), which only the HOST reads. -/
def controlWriteProtect (c : Config) (v : Word) : Bool := anySet v c.ctlWp

/-- `BUF_CLEAR_DONE` holds of a value read from its register (R10, R120). -/
def bufClearTookEffect (c : Config) (v : Word) : Bool := (v &&& c.bufClearDone.mask) == c.bufClearDone.expect

/-- CONTROL with `buf_clear` set, every other bit as read (R120). -/
def controlClearOn (c : Config) (v : Word) : Word := v ||| c.ctlBufClear

/-- CONTROL with `buf_clear` clear, every other bit as read (R120). -/
def controlClearOff (c : Config) (v : Word) : Word := v &&& ~~~c.ctlBufClear

/-- Write-1-to-clear (R36, R55): the bits of `old` that are 1 in `m` become 0 and the others stay. -/
def w1c (old m : Word) : Word := old &&& ~~~m

/-- The encoding of `fsm` (R23). -/
def Fsm.bits : Fsm → BitVec 3
  | .idle => 0
  | .transPending => 1
  | .transDone => 2
  | .deviceBusy => 3
  | .deviceReady => 4
  | .statusRead => 5
  | .ok => 6
  | .fail => 7

/-- The numbers of the result codes (R200). -/
def Code.bits : Code → BitVec 4
  | .ok => 0x0
  | .hardwareTimeout => 0x1
  | .deviceFail => 0x2
  | .transferShort => 0x3
  | .eccMismatch => 0x4

/-- The code of a request that decoding did not accept (R200). -/
def refusedBits : BitVec 4 := 0xF

/-- The encoding of `dte_dir` (R25). -/
def Dir.bit : Dir → BitVec 1
  | .rx => 0
  | .tx => 1

/-- The result code of a failed `Coll.ReadOob` (R159, R160). -/
def OobFail.code : OobFail → Code
  | .transferShort => .transferShort
  | .deviceFail => .deviceFail

/-- `RESP = {val24, 0b0000, code}` (R78). -/
def respWord (val : Len) (code : BitVec 4) : Word := val ++ ((0#4) ++ code)

/-- `RESP[3:0]` (R78). -/
def respCode (w : Word) : BitVec 4 := w.extractLsb' 0 4

/-- `RESP[7:4]` (R78). -/
def respMiddle (w : Word) : BitVec 4 := w.extractLsb' 4 4

/-- `RESP[31:8]` (R78). -/
def respVal (w : Word) : Len := w.extractLsb' 8 24

/-- The status byte in a response, `val24[7:0]` (R78). -/
def respStatusByte (w : Word) : Byte := w.extractLsb' 8 8

/-- The verdict of the bad-block detector (R156): anything but `0xFF` is bad. -/
def tagIsBad (tag : Byte) : Bool := tag != 0xFF#8

/-- A verdict as the value field of RESP (R161): 1 for bad, 0 for good. -/
def verdictVal (bad : Bool) : Len := if bad then 1 else 0

/-- A field of a register (R15). -/
def fieldOf (r : BitRange) (v : Word) : Nat := v.toNat / 2 ^ r.lo % 2 ^ (r.hi + 1 - r.lo)

/-- CONFIG `addr_cycles` (R33). -/
def configAddrCycles (c : Config) (v : Word) : Nat := fieldOf c.configLayout.addrCycles v

/-- CONFIG `xfer_len` (R33). -/
def configXferLen (c : Config) (v : Word) : Nat := fieldOf c.configLayout.xferLen v

/-- CONFIG `ecc_en` (R33). -/
def configEccEn (c : Config) (v : Word) : Nat := fieldOf c.configLayout.eccEn v

/-- CONFIG `op_type` (R33). -/
def configOpType (c : Config) (v : Word) : Nat := fieldOf c.configLayout.opType v

end Sys2Proof.Machine
end

