-- ==== Sys2Proof/Machine/Operands.lean ====
section
/-! DEFINITION. Operand forms and address arithmetic: which operand words an operation reads (R77), bytes against DATA
words (R57, R58), page images (R41, R141), the reduction of page and byte addresses (R145, R159), the retry budget
(R113), and the BUFMEM region an operation uses (R68). -/

namespace Sys2Proof

/-- The operation reads operand word A (R77); ECC_VERIFY.WRITE only carries it. -/
def Instr.usesOpa : Instr → Bool
  | .pull _ _ | .push _ _ | .eccVerifyRead _ _ | .bbDetect _ | .bbProbe _ => true
  | .waitReady _ | .readStatus | .chipReset | .allReset | .eccVerifyWrite _ _ => false

/-- The operation reads operand word B (R77); ECC_VERIFY.READ only carries it. -/
def Instr.usesOpb : Instr → Bool
  | .eccVerifyWrite _ _ => true
  | .pull _ _ | .push _ _ | .eccVerifyRead _ _ | .bbDetect _ | .bbProbe _ | .waitReady _ | .readStatus | .chipReset
  | .allReset => false

end Sys2Proof

namespace Sys2Proof.Machine

/-- Byte `j` of a word, byte 0 the least significant (R15). -/
def wordByte (w : Word) (j : Nat) : Byte := w.extractLsb' (8 * j) 8

/-- The low `k` bytes of a word in increasing buffer address order (R57). -/
def wordBytes (w : Word) (k : Nat) : List Byte := (List.range k).map (wordByte w)

/-- The word of up to four buffer bytes, the first one the least significant and the rest zero (R57, R58). -/
def wordOfBytes : List Byte → Word
  | [] => 0
  | b :: bs => (wordOfBytes bs <<< 8) ||| b.setWidth 32

/-- The DATA words a transfer of `len` bytes takes (R103, R247). -/
def dteWords (len : Nat) : Nat := (len + 3) / 4

/-- `k = min(4, dte_len - dte_cnt)` (R96, R98). -/
def dteChunk (d : Dte) : Nat := min 4 (d.len.toNat - d.cnt.toNat)

/-- `B = max(1, snooze_ms) × RETRIES_PER_MS` (R113). -/
def retryBudget (c : Config) (ms : Millis) : Nat := max 1 ms.toNat * c.retriesPerMs

/-- The address of stored ECC byte `i` of the image at `base` (R141). -/
def eccAddr (c : Config) (base i : Nat) : Nat := base + c.pageSize + c.eccOobOffset + i

/-- The page index reduced to the chip (R145). -/
def reducePage (c : Config) (page : Word) : Nat :=
  if c.pageWrap then page.toNat &&& (c.numPages - 1) else page.toNat

/-- The byte offset reduced to the chip (R159). -/
def reduceOffset (c : Config) (off : Word) : Nat :=
  if c.pageWrap then off.toNat &&& (c.chipSize - 1) else off.toNat

/-- The first page of the block that holds a byte offset (R159). -/
def firstPageOfBlock (c : Config) (a : Nat) : Nat := a / c.blockSize * c.pagesPerBlock

/-- The BUFMEM region a running operation uses, as its first address and its length (R41, R68). -/
def regionInUse (c : Config) : Instr → Nat × Nat
  | .pull len buf => (buf.toNat, len.toNat)
  | .push len buf => (buf.toNat, len.toNat)
  | .eccVerifyRead buf _ => (buf.toNat, c.pageImage)
  | .eccVerifyWrite _ _ => (c.rbufBase, c.pageImage)
  | .waitReady _ | .readStatus | .chipReset | .allReset | .bbDetect _ | .bbProbe _ => (0, 0)

/-- An address lies in the region the operation uses. -/
def inRegionInUse (c : Config) (i : Instr) (a : Nat) : Bool :=
  decide ((regionInUse c i).1 ≤ a) && decide (a < (regionInUse c i).1 + (regionInUse c i).2)

end Sys2Proof.Machine
end

