-- ==== Sys2Proof/Machine/Ops.lean ====
section
/-! DEFINITION. The shared operations: the primitives of R16, the bounded poll of R17, completion (R99, R112, R149,
R161), the entry of the recovery path and the return from it (R208, R209), and the collaborator calls (R69). -/

namespace Sys2Proof.Machine

/-! ## Single elements -/

/-- Append an event to the history (R18). -/
def emit (e : Event) (s : State) : State := { s with trace := e :: s.trace }

/-- `fsm <- f` (R22, R126). -/
def setFsm (f : Fsm) (s : State) : State := { s with fsm := f, fsmPath := f :: s.fsmPath }

/-- `rsm_budget <- v` (R24). -/
def setRsmBudget (v : Word) (s : State) : State := { s with rsm := { s.rsm with budget := v } }

/-- `rsm_retry <- v` (R24). -/
def setRsmRetry (v : Word) (s : State) : State := { s with rsm := { s.rsm with retry := v } }

/-- `aux_retry <- v` (R24). -/
def setAuxRetry (v : Word) (s : State) : State := { s with rsm := { s.rsm with aux := v } }

/-- `status_byte <- sb` (R24). -/
def setStatusByte (sb : Byte) (s : State) : State := { s with rsm := { s.rsm with statusByte := .wrote sb } }

/-- `dte_retry <- v` (R25). -/
def setDteRetry (v : Word) (s : State) : State := { s with dte := { s.dte with retry := v } }

/-- `dte_cnt <- dte_cnt + k` (R96, R98). -/
def advanceDte (k : Nat) (s : State) : State := { s with dte := { s.dte with cnt := s.dte.cnt + BitVec.ofNat 24 k } }

/-- `ecc_latch <- e` (R26). -/
def setEccLatch (e : Word) (s : State) : State := { s with ecv := { s.ecv with latch := .wrote e } }

/-- `ecv_attempt <- n` (R26). -/
def setEcvAttempt (n : BitVec 2) (s : State) : State := { s with ecv := { s.ecv with attempt := n } }

/-- `bb_tag <- t` (R27). -/
def setBbTag (t : Byte) (s : State) : State := { s with bbd := { s.bbd with tag := .wrote t } }

/-- `bb_bad <- b` (R27). -/
def setBbBad (b : Bool) (s : State) : State := { s with bbd := { s.bbd with bad := .wrote b } }

/-! ## The NFC registers -/

/-- ENV's answer to the next read of register `r` (R53), and the state once it has been drawn. -/
def envAnswer (r : NfcReg) (s : State) : Word × State :=
  match s.env.reads with
  | v :: vs => (v, { s with env := { s.env with reads := vs } })
  | [] => (Config.envRead s.trace r s.env.drawn, { s with env := { s.env with drawn := s.env.drawn + 1 } })

/-- The register holds `v` when an access last saw it. -/
def setNfc (r : NfcReg) (v : Word) (s : State) : State := { s with nfc := s.nfc.set r v }

/-- What a write of `v` leaves in register `r` at the instant of the write: write-1-to-clear for INTERRUPT_STATUS
(R55), a free value for STATUS and ECC, and the value written for the others (R52). For DATA, a port, it is the word
that last crossed it (R37). -/
def storedByWrite (r : NfcReg) (v : Word) (s : State) : Word :=
  match r with
  | .interruptStatus => w1c s.nfc.interruptStatus v
  | .status => Config.envStore s.trace .status v
  | .ecc => Config.envStore s.trace .ecc v
  | .command1 | .command2 | .command3 | .address | .config | .control | .data => v

/-- `RegRead(r)` (R16, R53): the value ENV supplies. -/
def regRead (r : NfcReg) (s : State) : Word × State :=
  let a := envAnswer r s
  (a.1, emit (.regRead r a.1) (setNfc r a.1 a.2))

/-- `RegWrite(r, v)` (R16, R52). -/
def regWrite (r : NfcReg) (v : Word) (s : State) : State :=
  emit (.regWrite r v) (setNfc r (storedByWrite r v s) s)

/-- The register writes of a parameter sequence, in list order (R10). -/
def regWrites : List (NfcReg × Word) → State → State
  | [], s => s
  | (r, v) :: rest, s => regWrites rest (regWrite r v s)

/-! ## BUFMEM -/

/-- The byte of BUFMEM at `a`: a fault outside BUFMEM (R56) and for a byte that holds no value (R44). -/
def bufByte (a : Nat) (s : State) : Except Fault Byte :=
  if a < s.cfg.bufmemSize then
    match Memory.lookup s.bufmem a with
    | some b => .ok b
    | none => .error (.uninitialisedRead (.bufByte a))
  else .error (.outsideBufmem a)

/-- BUFMEM with the byte at `a` written; a fault outside BUFMEM (R56). -/
def putByte (a : Nat) (b : Byte) (s : State) : Except Fault State :=
  if a < s.cfg.bufmemSize then .ok { s with bufmem := Memory.store s.bufmem a b } else .error (.outsideBufmem a)

/-- `MemRead(a, 1)` (R16, R56). -/
def memRead (a : Nat) (s : State) : Except Fault (Byte × State) :=
  match bufByte a s with
  | .ok b => .ok (b, emit (.bufRead a b) s)
  | .error f => .error f

/-- `MemWrite(a, 1, b)` (R16, R56). -/
def memWrite (a : Nat) (b : Byte) (s : State) : Except Fault State :=
  match putByte a b s with
  | .ok t => .ok (emit (.bufWrite a b) t)
  | .error f => .error f

/-- Bytes read one at a time from `a` on, in increasing address order (R56). -/
def memReads (a : Nat) : Nat → State → Except Fault (List Byte × State)
  | 0, s => .ok ([], s)
  | k + 1, s =>
    match memRead a s with
    | .error f => .error f
    | .ok (b, s') =>
      match memReads (a + 1) k s' with
      | .error f => .error f
      | .ok (bs, s'') => .ok (b :: bs, s'')

/-- Bytes written one at a time from `a` on, in increasing address order (R56). -/
def memWrites (a : Nat) : List Byte → State → Except Fault State
  | [], s => .ok s
  | b :: bs, s =>
    match memWrite a b s with
    | .error f => .error f
    | .ok s' => memWrites (a + 1) bs s'

/-! ## Waiting -/

/-- `delay_us(n)` (R16, R257): no state of the block changes. -/
def delayUs (n : Nat) (s : State) : State := emit (.delay n) { s with elapsedUs := s.elapsedUs + n }

/-- The loop of R17 with `n` in its counter: sample, leave with the sample's verdict if it has one, leave without one
if the counter is 0, else delay one microsecond, count down and sample again. -/
def poll {α : Type} (sample : State → Option α × State) (setCtr : Word → State → State) :
    Nat → State → Option α × State
  | 0, s => sample s
  | n + 1, s =>
    match sample s with
    | (some a, t) => (some a, t)
    | (none, t) => poll sample setCtr n (setCtr (BitVec.ofNat 32 n) (delayUs 1 t))

/-- `PollUntil` (R17): load the counter with the budget, then poll. -/
def pollUntil {α : Type} (sample : State → Option α × State) (setCtr : Word → State → State) (budget : Nat)
    (s : State) : Option α × State :=
  poll sample setCtr (BitVec.ofNat 32 budget).toNat (setCtr (BitVec.ofNat 32 budget) s)

/-- A sample of one register that ends a poll when a test of the value holds. -/
def sampleReg (r : NfcReg) (test : Word → Bool) (s : State) : Option Unit × State :=
  let v := regRead r s
  (if test v.1 then some () else none, v.2)

/-! ## Completion, failure and recovery -/

/-- `commit(code, val)` (R75, R99, R149, R161): the result code into `err`, code and value into RESP, `busy` cleared. -/
def commit (code : Code) (val : Len) (s : State) : State :=
  { s with err := code.bits, port := { s.port with resp := .wrote (respWord val code.bits) }, busy := false }

/-- `commit(code, sb)` of an RSM operation (R112). -/
def commitRsm (code : Code) (sb : Byte) (s : State) : State :=
  commit code (sb.setWidth 24) (setStatusByte sb s)

/-- A refused request (R86): RESP alone is written. -/
def refuse (s : State) : State :=
  { s with port := { s.port with resp := .wrote (respWord 0 refusedBits) } }

/-- Entry of the recovery path (R208): the old `in_recovery` is what is saved, and the flag is set. -/
def enterRecovery (s : State) : Bool × State := (s.inRecovery, { s with inRecovery := true })

/-- Return from the recovery path (R209): the saved `in_recovery` is restored. -/
def leaveRecovery (saved : Bool) (s : State) : State := { s with inRecovery := saved }

/-! ## Collaborator calls -/

/-- A collaborator call leaves the NFC registers and the DTE and RSM elements with any values (R69 c). -/
def applyHavoc (h : Havoc) (s : State) : State :=
  { s with
    nfc := h.nfc
    fsm := h.fsm
    rsm := { budget := h.rsmBudget, retry := h.rsmRetry, aux := h.auxRetry, statusByte := .wrote h.statusByte }
    dte := { len := h.dteLen, cnt := h.dteCnt, retry := h.dteRetry, dir := h.dteDir }
    elapsedUs := s.elapsedUs + h.delay }

/-- The HOST's answer to the next `Coll.PageReread` of page `p` (R43, R69). -/
def rereadAnswer (p : Nat) (s : State) : RereadAnswer × State :=
  match s.env.rereads with
  | a :: rest => (a, { s with env := { s.env with rereads := rest } })
  | [] => (Config.freeReread s.trace p s.env.drawn, { s with env := { s.env with drawn := s.env.drawn + 1 } })

/-- The HOST's answer to the next `Coll.ReadOob` of page `p` (R43, R69). -/
def oobAnswer (p : Nat) (s : State) : OobAnswer × State :=
  match s.env.oobs with
  | a :: rest => (a, { s with env := { s.env with oobs := rest } })
  | [] => (Config.freeOob s.trace p s.env.drawn, { s with env := { s.env with drawn := s.env.drawn + 1 } })

/-- The `PAGE_IMAGE` bytes a re-read leaves in its destination (R69 b): those the answer lists, and free bytes where
it lists none. -/
def imageBytes (c : Config) (a : RereadAnswer) (history : List Event) : List Byte :=
  (List.range c.pageImage).map fun i => a.image.getD i (Config.freeImageByte history i)

/-- `Coll.PageReread(p, dst)` (R69, R147) as one oracle action. -/
def pageReread (p dst : Nat) (s : State) : Except Fault (Bool × State) :=
  if dst + s.cfg.pageImage ≤ s.cfg.bufmemSize then
    let a := rereadAnswer p s
    let t := applyHavoc a.1.havoc a.2
    let m := Memory.storeAll t.bufmem dst (imageBytes s.cfg a.1 s.trace)
    .ok (a.1.ok, emit (.reread p a.1.ok) { t with bufmem := m })
  else .error (.outsideBufmem (dst + s.cfg.pageImage - 1))

/-- The entries of an answer that lie in the read-back region, and in BUFMEM (R41, R251). In a well-formed configuration
the region lies in BUFMEM. -/
def stagedBytes (c : Config) (a : OobAnswer) : List (Option Byte) :=
  a.staged.take (min c.pageImage (c.bufmemSize - c.rbufBase))

/-- `Coll.ReadOob(p, off, len)` (R69, R160) as one oracle action. What it leaves in the read-back region is the answer's
(R251); the rest of BUFMEM is as it was (DEDUCED, notes/assumptions/22.md). -/
def readOob (p off len : Nat) (s : State) : OobResult × State :=
  let a := oobAnswer p s
  let t := applyHavoc a.1.havoc a.2
  (a.1.res, emit (.readOob p off len a.1.res)
    { t with bufmem := Memory.overlay t.bufmem s.cfg.rbufBase (stagedBytes s.cfg a.1) })

end Sys2Proof.Machine
end

