-- ==== Sys2Proof/Machine/Bbd.lean ====
section
/-! DEFINITION. The bad-block marker detector: BB_DETECT and BB_PROBE (R155 to R162). -/

namespace Sys2Proof.Machine

/-- `commit_bb` (R161). -/
def finishBbd (code : Code) (bad : Bool) (s : State) : Host.Outcome State Fault Refusal :=
  .next (commit code (verdictVal bad) s)

/-- `bb_tag` and `bb_bad` from a tag byte (R157, R159). -/
def judgeTag (tag : Byte) (s : State) : State := setBbBad (tagIsBad tag) (setBbTag tag s)

/-- The OOB read of BB_PROBE: the tag byte of the first page of the block that holds the offset (R159). -/
def probeTag (off : Word) (s : State) : OobResult × State :=
  readOob (firstPageOfBlock s.cfg (reduceOffset s.cfg off)) s.cfg.bbOobOffset 1 s

/-- BB_DETECT (R157). -/
def execBbDetect (tag : Byte) (s : State) : Host.Outcome State Fault Refusal :=
  finishBbd .ok (tagIsBad tag) (judgeTag tag s)

/-- What BB_PROBE does with the read's result (R159): a failed read is bad, with the read's code, and leaves `bb_tag`. -/
def finishProbe (res : OobResult) (s : State) : Host.Outcome State Fault Refusal :=
  match res with
  | .failed c => finishBbd c.code true (setBbBad true s)
  | .byte b => finishBbd .ok (tagIsBad b) (judgeTag b s)

/-- BB_PROBE (R159). -/
def execBbProbe (off : Word) (s : State) : Host.Outcome State Fault Refusal :=
  finishProbe (probeTag off s).1 (probeTag off s).2

end Sys2Proof.Machine
end

