-- ==== Sys2Proof/Machine/Dte.lean ====
section
/-! DEFINITION. The Data Transfer Engine: PULL and PUSH (R95 to R104). -/

namespace Sys2Proof.Machine

/-- What one sample of INTERRUPT_STATUS lets the DTE do, when it does not count as idle. -/
inductive DteVerdict where
  /-- The ready bit of the direction is set: a word is moved. -/
  | ready
  /-- `done` is set and the ready bit is clear: a short transfer. -/
  | done
  deriving DecidableEq, Repr

/-- One sample of INTERRUPT_STATUS: the ready bit first, `done` second, idle last (R100). -/
def dteSample (readyMask : Word) (s : State) : Option DteVerdict × State :=
  let ist := regRead .interruptStatus s
  (if anySet ist.1 readyMask then some .ready else if istDone s.cfg ist.1 then some .done else none, ist.2)

/-- The loop of R96 and R98 with `n` words still to move: poll with what is left of `dte_retry`, which is not
reloaded (R101), and move one word per ready sample. `dte_cnt < dte_len` holds exactly while `n` is not 0. -/
def dteLoop (readyMask : Word) (moveWord : State → Except Fault State) : Nat → State → Except Fault (Code × State)
  | 0, s => .ok (.ok, s)
  | n + 1, s =>
    match poll (dteSample readyMask) setDteRetry s.dte.retry.toNat s with
    | (none, t) => .ok (.hardwareTimeout, t)
    | (some .done, t) => .ok (.transferShort, t)
    | (some .ready, t) =>
      match moveWord t with
      | .error f => .error f
      | .ok u => dteLoop readyMask moveWord n u

/-- The assignments at the start of PULL and PUSH (R96, R98). -/
def startDte (dir : Dir) (len : Len) (budget : Nat) (s : State) : State :=
  { s with dte := { len := len, cnt := 0, retry := BitVec.ofNat 32 budget, dir := dir } }

/-- One word of PULL (R96): read DATA, store its low `k` bytes, count them, clear `rx_ready`. -/
def pullWord (buf : Nat) (s : State) : Except Fault State :=
  let w := regRead .data s
  let k := dteChunk s.dte
  match memWrites (buf + s.dte.cnt.toNat) (wordBytes w.1 k) w.2 with
  | .error f => .error f
  | .ok t => .ok (regWrite .interruptStatus t.cfg.intRxReady (advanceDte k t))

/-- One word of PUSH (R98): read `k` bytes, write DATA, count them, clear `tx_ready`. -/
def pushWord (buf : Nat) (s : State) : Except Fault State :=
  let k := dteChunk s.dte
  match memReads (buf + s.dte.cnt.toNat) k s with
  | .error f => .error f
  | .ok (bs, t) =>
    .ok (regWrite .interruptStatus t.cfg.intTxReady (advanceDte k (regWrite .data (wordOfBytes bs) t)))

/-- The result of a DTE operation: its code and `dte_cnt` (R99). -/
def finishDte (r : Except Fault (Code × State)) : Host.Outcome State Fault Refusal :=
  match r with
  | .error f => .fault f
  | .ok (code, t) => .next (commit code t.dte.cnt t)

/-- PULL (R96). -/
def execPull (len : Len) (buf : Word) (s : State) : Host.Outcome State Fault Refusal :=
  finishDte (dteLoop s.cfg.intRxReady (pullWord buf.toNat) (dteWords len.toNat) (startDte .rx len s.cfg.pullRetries s))

/-- PUSH (R98). -/
def execPush (len : Len) (buf : Word) (s : State) : Host.Outcome State Fault Refusal :=
  finishDte (dteLoop s.cfg.intTxReady (pushWord buf.toNat) (dteWords len.toNat) (startDte .tx len s.cfg.pushRetries s))

end Sys2Proof.Machine
end

