-- ==== Sys2Proof/Machine/Ecv.lean ====
section
/-! DEFINITION. The ECC verification comparator: ECC_VERIFY.READ and ECC_VERIFY.WRITE (R140 to R150). -/

namespace Sys2Proof.Machine

/-- The byte comparisons of EccCompare from byte `i` on, `n` of them: it stops at the first mismatch (R142). -/
def compareEcc (e : Word) (base : Nat) : Nat → Nat → State → Except Fault (Code × State)
  | _, 0, s => .ok (.ok, s)
  | i, n + 1, s =>
    match memRead (eccAddr s.cfg base i) s with
    | .error f => .error f
    | .ok (b, t) => if b = wordByte e i then compareEcc e base (i + 1) n t else .ok (.eccMismatch, t)

/-- EccCompare (R142): a register of zero needs no correction and reads no buffer byte. -/
def eccCompare (base : Nat) (s : State) : Except Fault (Code × State) :=
  let e := regRead .ecc s
  let t := setEccLatch e.1 e.2
  if e.1 = 0 then .ok (.ok, t) else compareEcc e.1 base 0 s.cfg.eccBytes t

/-- The result of an ECV operation (R149): the code, and a value of 0. -/
def finishEcv (r : Except Fault (Code × State)) : Host.Outcome State Fault Refusal :=
  match r with
  | .error f => .fault f
  | .ok (code, t) => .next (commit code 0 t)

/-- The read-backs of ECC_VERIFY.WRITE (R146): a second one only when the first failed. -/
def readBack (p : Nat) (s : State) : Except Fault (Bool × State) :=
  match pageReread p s.cfg.rbufBase (setEcvAttempt 1 s) with
  | .error f => .error f
  | .ok (true, t) => .ok (true, t)
  | .ok (false, t) => pageReread p s.cfg.rbufBase (setEcvAttempt 2 t)

/-- The read-backs and the one comparison, on the read-back image (R146). -/
def verifyWrite (page : Word) (s : State) : Except Fault (Code × State) :=
  match readBack (reducePage s.cfg page) s with
  | .error f => .error f
  | .ok (false, t) => .ok (.eccMismatch, t)
  | .ok (true, t) => eccCompare t.cfg.rbufBase t

/-- ECC_VERIFY.READ (R143): `page` is carried and read by no step. -/
def execEccVerifyRead (buf _page : Word) (s : State) : Host.Outcome State Fault Refusal :=
  finishEcv (eccCompare buf.toNat s)

/-- ECC_VERIFY.WRITE (R146): `buf` is carried and read by no step. -/
def execEccVerifyWrite (_buf page : Word) (s : State) : Host.Outcome State Fault Refusal :=
  finishEcv (verifyWrite page s)

end Sys2Proof.Machine
end

