-- ==== Sys2Proof/Machine/Rsm.lean ====
section
/-! DEFINITION. The Readiness State Machine: its procedures (R111, R114, R116, R117, R119, R120) and WAIT_READY,
READ_STATUS, CHIP_RESET and ALL_RESET (R115, R118, R123, R122).

The procedures call one another in a circle: WaitReady, ReadStatus, AllReset, ChipReset, WaitReady (R110). R121 cuts
it: a status read that times out while `in_recovery` is set starts no recovery. So the recovery is an argument of the
procedures, and those that run inside AllReset, where `in_recovery` is set, are given one that does nothing and is
never reached. -/

namespace Sys2Proof.Machine

/-- What a procedure of the RSM returns: a result code, a status byte and the state (R110). -/
structure RsmReturn where
  code : Code
  sb : Byte
  st : State
  deriving DecidableEq, Repr

/-- What ReadStatusRaw returns (R116). -/
structure RawStatus where
  timedOut : Bool
  sb : Byte
  st : State
  deriving DecidableEq, Repr

/-- The return of an exhausted wait: `fsm <- FAIL`, HardwareTimeout and `FAIL_BYTE` (R114, R120). -/
def returnTimeout (s : State) : RsmReturn := ⟨.hardwareTimeout, s.cfg.failByte, setFsm .fail s⟩

/-- Classify (R111): only the timeout and the fail bit decide. -/
def classify (timedOut : Bool) (sb : Byte) (s : State) : RsmReturn :=
  if timedOut then returnTimeout s
  else if sbFails s.cfg sb then ⟨.deviceFail, sb, setFsm .fail s⟩
  else ⟨.ok, sb, setFsm .ok s⟩

/-- What a timed-out status read does (R116): the recovery, unless one is running (R121). -/
def recoverOnce (recover : State → State) (s : State) : State := if s.inRecovery then s else recover s

/-- ReadStatusRaw (R116). -/
def readStatusRaw (recover : State → State) (s : State) : RawStatus :=
  let issued := setFsm .statusRead (regWrites s.cfg.statusReadSeq (regWrite .interruptStatus s.cfg.intClearAll s))
  match pollUntil (sampleReg .interruptStatus (istRxReady s.cfg)) setAuxRetry s.cfg.statusRetries issued with
  | (some (), t) =>
    let w := regRead .data t
    ⟨false, wordByte w.1 0, w.2⟩
  | (none, t) => ⟨true, t.cfg.failByte, recoverOnce recover t⟩

/-- ReadStatus (R117). -/
def readStatus (recover : State → State) (s : State) : RsmReturn :=
  let raw := readStatusRaw recover s
  classify raw.timedOut raw.sb raw.st

/-- One sample of STATUS in phase 2a of WaitReady, with the state it leaves in `fsm` (R114). -/
def sampleDevReady (s : State) : Option Unit × State :=
  let v := regRead .status s
  if statusDevReady s.cfg v.1 then (some (), setFsm .deviceReady v.2) else (none, setFsm .deviceBusy v.2)

/-- One iteration of phase 2b of WaitReady (R114): a whole status read, which ends the loop when it timed out or when
the byte has its ready bit set. -/
def sampleChipReady (recover : State → State) (s : State) : Option (Code × Byte) × State :=
  let raw := readStatusRaw recover s
  if raw.timedOut then
    let c := classify true raw.sb raw.st
    (some (c.code, c.sb), c.st)
  else if sbIsReady raw.st.cfg raw.sb then
    let c := classify false raw.sb (setFsm .deviceReady raw.st)
    (some (c.code, c.sb), c.st)
  else (none, setFsm .deviceBusy raw.st)

/-- The up-front sleep of WaitReady, none when the snooze is 0 (R114). -/
def snooze (ms : Millis) (s : State) : State := if ms = 0 then s else delayUs (1000 * ms.toNat) s

/-- Phase 2a of WaitReady: the ready/busy line, then the status read (R114). -/
def waitDevReady (recover : State → State) (s : State) : RsmReturn :=
  match poll sampleDevReady setRsmRetry s.rsm.retry.toNat s with
  | (none, t) => returnTimeout t
  | (some (), t) => readStatus recover t

/-- Phase 2b of WaitReady: the chip's own ready bit (R114). -/
def waitChipReady (recover : State → State) (s : State) : RsmReturn :=
  match poll (sampleChipReady recover) setRsmRetry s.rsm.retry.toNat s with
  | (none, t) => returnTimeout t
  | (some (code, sb), t) => ⟨code, sb, t⟩

/-- The reload of the counter between the phases of WaitReady, unless `RB_BUDGET_SHARED` (R114). -/
def reloadRetry (s : State) : State := if s.cfg.rbBudgetShared then s else setRsmRetry s.rsm.budget s

/-- The second phase of WaitReady, from `fsm <- TRANS_DONE` on (R114). -/
def waitDevice (recover : State → State) (s : State) : RsmReturn :=
  let t := reloadRetry (setFsm .transDone s)
  if t.cfg.hasRb then waitDevReady recover t else waitChipReady recover (setFsm .deviceBusy t)

/-- WaitReady (R114). -/
def waitReady (recover : State → State) (ms : Millis) (s : State) : RsmReturn :=
  let budget := retryBudget s.cfg ms
  let started := setRsmBudget (BitVec.ofNat 32 budget) (snooze ms (setFsm .transPending s))
  match pollUntil (sampleReg .interruptStatus (istDone s.cfg)) setRsmRetry budget started with
  | (none, t) => returnTimeout t
  | (some (), t) => waitDevice recover t

/-- ChipReset (R119): the reset command, then WaitReady(0). -/
def chipReset (recover : State → State) (s : State) : RsmReturn :=
  waitReady recover 0 (regWrites s.cfg.chipResetSeq s)

/-- The toggle of `buf_clear` at the start of AllReset (R120): one read of CONTROL and two writes. -/
def toggleBufClear (s : State) : State :=
  let c := regRead .control s
  regWrite .control (controlClearOff s.cfg c.1) (regWrite .control (controlClearOn s.cfg c.1) c.2)

/-- Wait 1 of AllReset: the clear takes effect (R120). -/
def waitBufClear (s : State) : Option Unit × State :=
  pollUntil (sampleReg s.cfg.bufClearDone.reg (bufClearTookEffect s.cfg)) setAuxRetry s.cfg.resetRetries s

/-- Wait 2 of AllReset: controller-busy drops (R120). -/
def waitCtrlIdle (s : State) : Option Unit × State :=
  pollUntil (sampleReg .status fun v => !statusCtrlBusy s.cfg v) setAuxRetry s.cfg.resetRetries s

/-- AllReset (R120). Inside it `in_recovery` is set, so no status read starts another recovery (R121). -/
def allReset (s : State) : RsmReturn :=
  let entered := enterRecovery s
  match waitBufClear (toggleBufClear entered.2) with
  | (none, t) => returnTimeout (leaveRecovery entered.1 t)
  | (some (), t) =>
    match waitCtrlIdle t with
    | (none, u) => returnTimeout (leaveRecovery entered.1 u)
    | (some (), u) =>
      let r := chipReset id u
      { r with st := leaveRecovery entered.1 r.st }

/-- The recovery a timed-out status read runs (R116, R208): AllReset, its result discarded. -/
def recovery (s : State) : State := (allReset s).st

/-- The result of an RSM operation (R112). -/
def finishRsm (r : RsmReturn) : Host.Outcome State Fault Refusal := .next (commitRsm r.code r.sb r.st)

/-- WAIT_READY (R115). -/
def execWaitReady (ms : Millis) (s : State) : Host.Outcome State Fault Refusal := finishRsm (waitReady recovery ms s)

/-- READ_STATUS (R118). -/
def execReadStatus (s : State) : Host.Outcome State Fault Refusal := finishRsm (readStatus recovery s)

/-- CHIP_RESET (R123). -/
def execChipReset (s : State) : Host.Outcome State Fault Refusal := finishRsm (chipReset recovery s)

/-- ALL_RESET (R122). -/
def execAllReset (s : State) : Host.Outcome State Fault Refusal := finishRsm (allReset s)

end Sys2Proof.Machine
end

