-- ==== Sys2Proof/Machine/Dispatch.lean ====
section
/-! DEFINITION. Which meaning runs each operation (R80). -/

namespace Sys2Proof.Machine

def exec (i : Instr) (s : State) : Host.Outcome State Fault Refusal :=
  match i with
  | .pull len buf => Sys2Proof.Machine.execPull len buf s
  | .push len buf => Sys2Proof.Machine.execPush len buf s
  | .waitReady ms => Sys2Proof.Machine.execWaitReady ms s
  | .readStatus => Sys2Proof.Machine.execReadStatus s
  | .chipReset => Sys2Proof.Machine.execChipReset s
  | .allReset => Sys2Proof.Machine.execAllReset s
  | .eccVerifyRead buf page => Sys2Proof.Machine.execEccVerifyRead buf page s
  | .eccVerifyWrite buf page => Sys2Proof.Machine.execEccVerifyWrite buf page s
  | .bbDetect tag => Sys2Proof.Machine.execBbDetect tag s
  | .bbProbe off => Sys2Proof.Machine.execBbProbe off s

end Sys2Proof.Machine
end

