-- ==== Sys2Proof/Decode.lean ====
section
/-! DEFINITION. The request encoding (R76 to R88): the three words of a request, the decoder, the operand ranges that
are part of decoding (R83), and the encoder. -/

namespace Sys2Proof

/-- A request as the block latches it (R64, R75): OPREQ and the two operand words. -/
structure Request where
  opreq : Word
  opa : Word
  opb : Word
  deriving DecidableEq, Repr

/-- Why decoding does not accept a request, in the order of R83. -/
inductive Reject where
  /-- R83 (1): `(opc, mode)` is no row of R80. -/
  | reservedOpcode
  /-- R83 (2): a must-be-zero field of R82 is not zero. -/
  | mustBeZero
  /-- R83 (3): the operation is switched off in the configuration (R84). -/
  | switchedOff
  /-- R83 (4): an operand is out of range (R85). -/
  | outOfRange
  deriving DecidableEq, Repr

/-- `OPREQ[3:0]` (R76). -/
def opcField (w : Word) : BitVec 4 := w.extractLsb' 0 4

/-- `OPREQ[7:4]` (R76). -/
def modeField (w : Word) : BitVec 4 := w.extractLsb' 4 4

/-- `OPREQ[31:8]` (R76). -/
def imm24Field (w : Word) : Len := w.extractLsb' 8 24

/-- `imm24[15:0]`, which is `OPREQ[23:8]` (R77, R79). -/
def snoozeField (w : Word) : Millis := w.extractLsb' 8 16

/-- `imm24[23:16]`, which is `OPREQ[31:24]` (R77, R82). -/
def imm24High (w : Word) : BitVec 8 := w.extractLsb' 24 8

/-- An operation that takes no immediate: `imm24` must be 0 (R82). -/
def withoutImmediate (w : Word) (i : Instr) : Except Reject Instr :=
  if imm24Field w = 0 then .ok i else .error .mustBeZero

/-- Steps (1) and (2) of R83: the opcode map of R80 and R81 and the must-be-zero fields of R82. Total on every
request; what is reserved (R87) is rejected by name. -/
def decode (r : Request) : Except Reject Instr :=
  match (opcField r.opreq).toNat, (modeField r.opreq).toNat with
  | 1, 0 => .ok (.pull (imm24Field r.opreq) r.opa)
  | 2, 0 => .ok (.push (imm24Field r.opreq) r.opa)
  | 3, 0 => if imm24High r.opreq = 0 then .ok (.waitReady (snoozeField r.opreq)) else .error .mustBeZero
  | 4, 0 => withoutImmediate r.opreq .readStatus
  | 5, 0 => withoutImmediate r.opreq .chipReset
  | 6, 0 => withoutImmediate r.opreq .allReset
  | 7, 0 => withoutImmediate r.opreq (.eccVerifyRead r.opa r.opb)
  | 7, 1 => withoutImmediate r.opreq (.eccVerifyWrite r.opa r.opb)
  | 8, 0 => if r.opa.extractLsb' 8 24 = 0 then withoutImmediate r.opreq (.bbDetect (r.opa.extractLsb' 0 8))
            else .error .mustBeZero
  | 9, 0 => withoutImmediate r.opreq (.bbProbe r.opa)
  | _, _ => .error .reservedOpcode

/-- Step (3) of R83: the configuration has the operation (R84). -/
def Instr.enabled (c : Config) : Instr → Bool
  | .bbProbe _ => c.badblockCheck
  | .pull _ _ | .push _ _ | .waitReady _ | .readStatus | .chipReset | .allReset | .eccVerifyRead _ _
  | .eccVerifyWrite _ _ | .bbDetect _ => true

/-- `length ≤ BUFMEM_SIZE` and `buffer ≤ BUFMEM_SIZE - length` (R85). -/
def regionInBufmem (c : Config) (length buffer : Nat) : Bool :=
  decide (length ≤ c.bufmemSize) && decide (buffer ≤ c.bufmemSize - length)

/-- Step (4) of R83: the operand ranges of R85. -/
def Instr.inRange (c : Config) : Instr → Bool
  | .pull len buf => regionInBufmem c len.toNat buf.toNat
  | .push len buf => regionInBufmem c len.toNat buf.toNat
  | .eccVerifyRead buf _ => regionInBufmem c c.pageImage buf.toNat
  | .eccVerifyWrite _ page => c.pageWrap || decide (page.toNat < c.numPages)
  | .bbProbe off => c.pageWrap || decide (off.toNat < c.chipSize)
  | .waitReady _ | .readStatus | .chipReset | .allReset | .bbDetect _ => true

/-- Steps (3) and (4) of R83, in that order. -/
def decodeAdmission (c : Config) (i : Instr) : Except Reject Instr :=
  if i.enabled c then (if i.inRange c then .ok i else .error .outOfRange) else .error .switchedOff

/-- Decoding as a whole (R83): the steps (1) to (4) in order. -/
def decodeRequest (c : Config) (r : Request) : Except Reject Instr :=
  match decode r with
  | .error e => .error e
  | .ok i => decodeAdmission c i

/-- A request word from its three fields (R76): `imm24`, `mode` and `opc` from the top down. -/
def opreqWord (imm : Len) (mode opc : BitVec 4) : Word := imm ++ (mode ++ opc)

/-- The words of an operation (R83's patterns). An operand word the operation does not use is zero. -/
def encode : Instr → Request
  | .pull len buf => ⟨opreqWord len 0 1, buf, 0⟩
  | .push len buf => ⟨opreqWord len 0 2, buf, 0⟩
  | .waitReady ms => ⟨opreqWord ((0#8) ++ ms) 0 3, 0, 0⟩
  | .readStatus => ⟨opreqWord 0 0 4, 0, 0⟩
  | .chipReset => ⟨opreqWord 0 0 5, 0, 0⟩
  | .allReset => ⟨opreqWord 0 0 6, 0, 0⟩
  | .eccVerifyRead buf page => ⟨opreqWord 0 0 7, buf, page⟩
  | .eccVerifyWrite buf page => ⟨opreqWord 0 1 7, buf, page⟩
  | .bbDetect tag => ⟨opreqWord 0 0 8, (0#24) ++ tag, 0⟩
  | .bbProbe off => ⟨opreqWord 0 0 9, off, 0⟩

/-- The words whose bits are `w` as spec/opcode_table.json numbers them: OPREQ in bits 31..0 and, above the bits the
table gives a row, OPA in bits 63..32 and OPB in bits 95..64. -/
def requestOfTableWord (nbits w : Nat) : Request :=
  let bits := w % 2 ^ nbits
  ⟨BitVec.ofNat 32 bits, BitVec.ofNat 32 (bits / 2 ^ 32), BitVec.ofNat 32 (bits / 2 ^ 64)⟩

/-- The operation the decoder reads from a table word. -/
def decodeTableWord (nbits w : Nat) : Option Instr :=
  match decode (requestOfTableWord nbits w) with
  | .ok i => some i
  | .error _ => none

end Sys2Proof
end

