-- ==== Sys2Proof/Machine/HostPort.lean ====
section
/-! DEFINITION. The HOST's side: its accesses to the port, to the NFC registers and to BUFMEM (R21, R68), the issue
protocol (R75), refusal (R86), and the faults of a HOST that breaks its duties (R214). -/

namespace Sys2Proof.Machine

/-- An NFC access of the HOST, while the block is idle (R68), to a whole register (R51) that exists (R61). -/
def hostRegAccess (offset bytes : Nat) (s : State) (access : NfcReg → State) : Host.Outcome State Fault Refusal :=
  if s.busy then .fault .concurrentAccess
  else if bytes ≠ 4 then .refused (.accessWidth bytes)
  else
    match s.cfg.regAt offset with
    | none => .refused (.noRegisterAt offset)
    | some r => .next (access r)

/-- A HOST read of an NFC register: ENV answers it as it answers the block (R53). -/
def hostRegRead (r : NfcReg) (s : State) : State :=
  let a := envAnswer r s
  emit (.hostRegRead r a.1) (setNfc r a.1 a.2)

/-- A HOST write of an NFC register (R52). -/
def hostRegWrite (r : NfcReg) (v : Word) (s : State) : State :=
  emit (.hostRegWrite r v) (setNfc r (storedByWrite r v s) s)

/-- The operation a running block runs: the request as it was latched (R64). -/
def runningInstr (s : State) : Except Reject Instr :=
  decode ⟨s.port.opreq.val, s.port.latchA.val, s.port.latchB.val⟩

/-- An address lies in the BUFMEM region of the running operation (R68). -/
def regionBusy (s : State) (a : Nat) : Bool :=
  s.busy &&
    match runningInstr s with
    | .ok i => inRegionInUse s.cfg i a
    | .error _ => false

/-- One HOST access that starts no operation. The duties of R68 are checked while an operation runs. A write of OPREQ
comes here only while an operation runs, and is the fault of R75. -/
def hostAccess (a : HostAct) (s : State) : Host.Outcome State Fault Refusal :=
  match a with
  | .writeOpreq _ _ => .fault .concurrentIssue
  | .writeOpa w => .next { s with port := { s.port with opa := .wrote w } }
  | .writeOpb w => .next { s with port := { s.port with opb := .wrote w } }
  | .readResp =>
    if s.port.resp.held then .next (emit (.hostResp s.port.resp.val) s) else .fault (.uninitialisedRead .resp)
  | .regRead offset bytes => hostRegAccess offset bytes s fun r => hostRegRead r s
  | .regWrite offset bytes v => hostRegAccess offset bytes s fun r => hostRegWrite r v s
  | .memRead a =>
    match bufByte a s with
    | .error f => .fault f
    | .ok b => .next (emit (.hostBufRead a b) s)
  | .memWrite a b =>
    if regionBusy s a then .fault .concurrentAccess
    else
      match putByte a b s with
      | .error f => .fault f
      | .ok t => .next (emit (.hostBufWrite a b) t)

/-- The HOST accesses that land while an operation runs, in order. Those the duties of R68 allow touch nothing the
operation reads or writes, so they are done before its first step (notes/assumptions/8.md). -/
def overlapAccesses : List HostAct → State → Host.Outcome State Fault Refusal
  | [], s => .next s
  | a :: as, s =>
    match hostAccess a s with
    | .next t => overlapAccesses as t
    | .fault f => .fault f
    | .refused r => .refused r

/-- What the HOST's next action comes to: it has ended, or an operation is accepted and now runs. -/
inductive Presented where
  | ended (o : Host.Outcome State Fault Refusal)
  | running (i : Instr) (s : State)

/-- The state of an accepted request: operands latched, `busy` set (R75). -/
def accept (s : State) : State :=
  { s with port := { s.port with latchA := s.port.opa, latchB := s.port.opb }, busy := true }

/-- The operand words the operation of a request reads have been written (R44, R77); `i` is what OPREQ alone names. -/
def operandsHeld (i : Instr) (s : State) : Except Fault Unit :=
  if i.usesOpa && !s.port.opa.held then .error (.uninitialisedRead .opa)
  else if i.usesOpb && !s.port.opb.held then .error (.uninitialisedRead .opb)
  else .ok ()

/-- The HOST's own write of OPREQ (R21). -/
def writeOpreq (w : Word) (s : State) : State := { s with port := { s.port with opreq := .wrote w } }

/-- The request in the port registers. -/
def portRequest (s : State) : Request := ⟨s.port.opreq.val, s.port.opa.val, s.port.opb.val⟩

/-- An accepted request, with the HOST accesses that land while it runs. -/
def launch (i : Instr) (overlap : Nat) (s : State) : Presented :=
  match overlapAccesses (s.hostq.take overlap) (accept { s with hostq := s.hostq.drop overlap }) with
  | .next t => .running i t
  | .fault f => .ended (.fault f)
  | .refused r => .ended (.refused r)

/-- The issue of a request while the block is idle (R75, R83), OPREQ having been written: the steps of R83 on OPREQ
alone, then the operand words, then the whole of it. -/
def issue (overlap : Nat) (s : State) : Presented :=
  match decode ⟨s.port.opreq.val, 0, 0⟩ with
  | .error _ => .ended (.next (refuse s))
  | .ok i₀ =>
    if i₀.enabled s.cfg then
      match operandsHeld i₀ s with
      | .error f => .ended (.fault f)
      | .ok () =>
        match decodeRequest s.cfg (portRequest s) with
        | .error _ => .ended (.next (refuse s))
        | .ok i => launch i overlap s
    else .ended (.next (refuse s))

/-- The HOST's next action (R43, R75). -/
def present (a : HostAct) (s : State) : Presented :=
  match a with
  | .writeOpreq w overlap =>
    if s.busy then .ended (.fault .concurrentIssue) else issue overlap (writeOpreq w s)
  | .writeOpa _ | .writeOpb _ | .readResp | .regRead _ _ | .regWrite _ _ _ | .memRead _ | .memWrite _ _ =>
    .ended (hostAccess a s)

/-- The HOST's next action is taken from the list of its actions. -/
def takeAct (rest : List HostAct) (s : State) : State := { s with hostq := rest }

end Sys2Proof.Machine
end

