-- ==== Sys2Proof/Machine/Step.lean ====
section
/-! DEFINITION. One step: the HOST's next action, and the whole of the operation it issues (R7, R75). With no action
left the block is idle and nothing changes (R240). -/

namespace Sys2Proof.Machine

def step (s : State) : Host.Outcome State Fault Refusal :=
  match s.hostq with
  | [] => .next s
  | a :: rest =>
    match present a (takeAct rest s) with
    | .ended o => o
    | .running i t => exec i t

/-- The state whose next step issues the request whose bits are `w` (R75): its operand words stand in OPA and OPB, the
write of OPREQ is the HOST's next action, and no operation is running. -/
def State.withFetchWord (s : State) (nbits w : Nat) : State :=
  let r := requestOfTableWord nbits w
  { s with
    port := { s.port with opa := .wrote r.opa, opb := .wrote r.opb }
    busy := false
    hostq := .writeOpreq r.opreq 0 :: s.hostq }

end Sys2Proof.Machine
end

