-- ==== Sys2Proof/Safety.lean ====
section
/-! DEFINITION. The terms statements use: what a safe run is, the views of a trace, the allowed transitions of `fsm`
(R126), and the invariant of the machine. -/

namespace Sys2Proof.Machine

/-! ## Safe steps -/

/-- A step that is safe: it has a next state and does not end in a refused request, which a program that issues one
has gone wrong with (R86). -/
def SafeStep (s : State) : Prop := ∃ t, step s = .next t ∧ respCode t.port.resp.val ≠ refusedBits

/-- The next `n` steps of the HOST's list are safe. -/
def SafeRun : Nat → State → Prop
  | 0, _ => True
  | n + 1, s => ∃ t, step s = .next t ∧ respCode t.port.resp.val ≠ refusedBits ∧ SafeRun n t

/-- The `n` bytes of BUFMEM from `a` on hold values (R44). -/
def holds (s : State) (a n : Nat) : Prop := ∀ j < n, Memory.lookup s.bufmem (a + j) ≠ none

/-! ## Views of a list of events -/

/-- The event is a `RegRead` of the block. -/
def isRegRead : Event → Bool
  | .regRead _ _ => true
  | _ => false

/-- The event is a `RegRead` of register `r`. -/
def isRegReadOf (r : NfcReg) : Event → Bool
  | .regRead r' _ => decide (r' = r)
  | _ => false

/-- The event is a `RegWrite`. -/
def isRegWrite : Event → Bool
  | .regWrite _ _ => true
  | _ => false

/-- How many register reads a list of events holds. -/
def regReadCount (es : List Event) : Nat := es.countP isRegRead

/-- How many reads of register `r` a list of events holds. -/
def regReadCountOf (r : NfcReg) (es : List Event) : Nat := es.countP (isRegReadOf r)

/-- The value of an event, if it is a read of DATA. -/
def dataRead? : Event → Option Word
  | .regRead .data v => some v
  | _ => none

/-- The value of an event, if it is a write of DATA. -/
def dataWritten? : Event → Option Word
  | .regWrite .data v => some v
  | _ => none

/-- The words read from DATA, oldest first, of a list of events newest first. -/
def dataReads (es : List Event) : List Word := (es.filterMap dataRead?).reverse

/-- The words written to DATA, oldest first, of a list of events newest first. -/
def dataWrites (es : List Event) : List Word := (es.filterMap dataWritten?).reverse

/-- The bytes of words in buffer address order, each word least significant byte first (R57). -/
def bytesOfWords (ws : List Word) : List Byte := ws.flatMap fun w => wordBytes w 4

/-- The DATA words of bytes in buffer address order, the last one filled up with zero bytes (R57, R58). -/
def wordsOfBytes : List Byte → List Word
  | b₀ :: b₁ :: b₂ :: b₃ :: rest => wordOfBytes [b₀, b₁, b₂, b₃] :: wordsOfBytes rest
  | [] => []
  | tail => [wordOfBytes tail]

/-- `new` is what write-1-to-clear of `m` leaves of `old` (R55): the bits that are 1 in `m` are 0 and every other bit is
as it was. -/
def clearedBy (m old new : Word) : Prop :=
  ∀ j : Nat, (m.getLsbD j = true → new.getLsbD j = false) ∧ (m.getLsbD j = false → new.getLsbD j = old.getLsbD j)

/-- The microseconds of delay in a list of events (R257). -/
def delaySum : List Event → Nat
  | [] => 0
  | .delay n :: es => n + delaySum es
  | _ :: es => delaySum es

/-- The history oldest event first, as the spec writes traces. -/
def history (s : State) : List Event := s.trace.reverse

/-- The events of samples of a register that each count as idle: the read, and the delay after it (R17). -/
def idleSamples (r : NfcReg) (vs : List Word) : List Event := vs.flatMap fun v => [.regRead r v, .delay 1]

/-- The events of a parameter sequence (R10), oldest first. -/
def sequenceEvents (seq : List (NfcReg × Word)) : List Event := seq.map fun p => .regWrite p.1 p.2

/-- The events of the start of a status read (R116): the clear of INTERRUPT_STATUS and the command. -/
def statusReadEvents (c : Config) : List Event :=
  .regWrite .interruptStatus c.intClearAll :: sequenceEvents c.statusReadSeq

/-- A status read of phase 2b: the idle samples, the sample with `rx_ready`, and the DATA word. -/
structure StatusRound where
  idle : List Word
  ready : Word
  data : Word
  deriving DecidableEq, Repr

/-- The answers of a status read. -/
def StatusRound.answers (q : StatusRound) : List Word := q.idle ++ [q.ready, q.data]

/-- The events of a status read (R116). -/
def StatusRound.events (c : Config) (q : StatusRound) : List Event :=
  statusReadEvents c ++ idleSamples .interruptStatus q.idle ++ [.regRead .interruptStatus q.ready, .regRead .data q.data]

/-- The byte arrives within STATUS_RETRIES (R116). -/
def StatusRound.arrives (c : Config) (q : StatusRound) : Prop :=
  (∀ x ∈ q.idle, istRxReady c x = false) ∧ istRxReady c q.ready = true ∧ q.idle.length ≤ c.statusRetries

/-- The events of the up-front sleep of WaitReady (R114). -/
def sleepEvents (ms : Millis) : List Event := if ms = 0 then [] else [.delay (1000 * ms.toNat)]

/-- The events of the toggle of `buf_clear` (R120). -/
def toggleEvents (c : Config) (v : Word) : List Event :=
  [.regRead .control v, .regWrite .control (controlClearOn c v), .regWrite .control (controlClearOff c v)]

/-- The events of the byte comparisons of EccCompare on the image at `base`: the first `k` stored ECC bytes (R142). -/
def eccReadEvents (c : Config) (base : Nat) (stored : Nat → Byte) (k : Nat) : List Event :=
  (List.range k).map fun j => .bufRead (eccAddr c base j) (stored j)

/-- The NFC registers an RSM operation can read or write in a configuration (R114, R116, R119, R120). -/
def rsmAccessed (c : Config) : List NfcReg :=
  [.interruptStatus, .data, .status, .control, c.bufClearDone.reg] ++ (c.statusReadSeq ++ c.chipResetSeq).map (·.1)

/-! ## The transitions of `fsm` (R126) -/

/-- The transitions of R126 but for T15, by which a READ_STATUS enters STATUS_READ from any state. `hasRb` is the
configuration's switch; `top` says that the operation is READ_STATUS, whose byte is classified from STATUS_READ in
either configuration (T14). -/
def fsmStep (hasRb top : Bool) : Fsm → Fsm → Bool
  | _, .transPending => true
  | _, .fail => true
  | .transPending, .transDone => true
  | .transDone, .deviceReady => hasRb
  | .transDone, .deviceBusy => true
  | .deviceBusy, .deviceReady => hasRb
  | .deviceBusy, .deviceBusy => hasRb
  | .deviceReady, .statusRead => hasRb
  | .deviceBusy, .statusRead => !hasRb
  | .statusRead, .deviceReady => !hasRb
  | .statusRead, .deviceBusy => !hasRb
  | .deviceReady, .ok => !hasRb
  | .statusRead, .ok => hasRb || top
  | _, _ => false

/-- Every two neighbours of a path, newest first, are a transition of R126. -/
def pathAllowed (hasRb top : Bool) : List Fsm → Bool
  | [] => true
  | [_] => true
  | b :: a :: rest => fsmStep hasRb top a b && pathAllowed hasRb top (a :: rest)

/-! ## Results -/

/-- The codes each operation can end with (R202). -/
def codesOf : Instr → List Code
  | .pull _ _ | .push _ _ => [.ok, .transferShort, .hardwareTimeout]
  | .waitReady _ | .readStatus | .chipReset | .allReset => [.ok, .deviceFail, .hardwareTimeout]
  | .eccVerifyRead _ _ | .eccVerifyWrite _ _ => [.ok, .eccMismatch]
  | .bbDetect _ => [.ok]
  | .bbProbe _ => [.ok, .transferShort, .deviceFail]

/-! ## The invariant -/

/-- What holds between any two steps (R28, R45 I2 and I4, R56, R78, R200): BUFMEM is in canonical form and inside its
bounds, no operation and no recovery is running, the attempt count is at most 2, `err` is a code an operation can end
with, and a RESP that has been written has zero bits 7 to 4 and the code of an answer. -/
def State.Inv (s : State) : Prop :=
  Memory.wf s.bufmem = true ∧ (∀ c ∈ s.bufmem, c.1 < s.cfg.bufmemSize) ∧ s.busy = false ∧ s.inRecovery = false ∧
  s.ecv.attempt.toNat ≤ 2 ∧ s.err.toNat ≤ 4 ∧
  (s.port.resp.held = true →
    respMiddle s.port.resp.val = 0 ∧ ((respCode s.port.resp.val).toNat ≤ 4 ∨ respCode s.port.resp.val = refusedBits))

end Sys2Proof.Machine
end

