-- ==== Sys2Proof/WellFormed.lean ====
section
/-! DEFINITION. Which operations are well formed: those the configuration has (R84), with every operand in its range
(R85). A well-formed operation is one decoding accepts (R83 (5)). -/

namespace Sys2Proof

/-- The checks of R84 and R85 on an operation. -/
def Instr.wellFormed (c : Config) (i : Instr) : Bool := i.enabled c && i.inRange c

/-- The unit that runs an operation (R80). -/
inductive OpUnit where
  | dte | rsm | ecv | bbd
  deriving DecidableEq, Repr

/-- The unit of each operation (R80). -/
def Instr.opUnit : Instr → OpUnit
  | .pull _ _ | .push _ _ => .dte
  | .waitReady _ | .readStatus | .chipReset | .allReset => .rsm
  | .eccVerifyRead _ _ | .eccVerifyWrite _ _ => .ecv
  | .bbDetect _ | .bbProbe _ => .bbd

end Sys2Proof
end

