-- ==== Sys2Proof/Certificates/Slice0/Obligations.lean ====
section
/-! DEFINITION. The statements about the model, made from the spec's numbered rules. Every statement about a state is
about every state and every behaviour of ENV: ENV's answers are what State.env lists, and past its end free values
without a body. -/

open Sys2Proof Sys2Proof.Machine

/-! ## Encoding -/

/-- Encoding an operation and decoding its words gives the operation back, at every operand (R76, R77, R79 to R83). -/
def Obligations.DecodeOfEncode : Prop := ∀ i : Instr, decode (encode i) = .ok i

/-- No bit of a request that decoding accepts is dropped: the encoder gives back the request word and every operand
word the operation reads (R76, R77, R82). -/
def Obligations.EncodeOfDecode : Prop :=
  ∀ (r : Request) (i : Instr), decode r = .ok i →
    (encode i).opreq = r.opreq ∧ (i.usesOpa = true → (encode i).opa = r.opa) ∧ (i.usesOpb = true → (encode i).opb = r.opb)

/-- A request is accepted exactly when the operation is well formed: the configuration has it and its operands are in
range (R83 steps 3 to 5, R84, R85). -/
def Obligations.WellFormedAccepted : Prop :=
  ∀ (c : Config) (i : Instr),
    (i.wellFormed c = true → decodeRequest c (encode i) = .ok i) ∧
    (i.enabled c = false → decodeRequest c (encode i) = .error .switchedOff) ∧
    (i.enabled c = true → i.inRange c = false → decodeRequest c (encode i) = .error .outOfRange)

/-- Which operation a request names is decided by the match and mask pairs of R83 on OPREQ, and for BB_DETECT by the
must-be-zero bits of operand A as well. -/
def Obligations.DecodePatterns : Prop :=
  ∀ r : Request,
    ((∃ len buf, decode r = .ok (.pull len buf)) ↔ r.opreq &&& 0x000000FF#32 = 0x00000001#32) ∧
    ((∃ len buf, decode r = .ok (.push len buf)) ↔ r.opreq &&& 0x000000FF#32 = 0x00000002#32) ∧
    ((∃ ms, decode r = .ok (.waitReady ms)) ↔ r.opreq &&& 0xFF0000FF#32 = 0x00000003#32) ∧
    (decode r = .ok .readStatus ↔ r.opreq &&& 0xFFFFFFFF#32 = 0x00000004#32) ∧
    (decode r = .ok .chipReset ↔ r.opreq &&& 0xFFFFFFFF#32 = 0x00000005#32) ∧
    (decode r = .ok .allReset ↔ r.opreq &&& 0xFFFFFFFF#32 = 0x00000006#32) ∧
    ((∃ buf page, decode r = .ok (.eccVerifyRead buf page)) ↔ r.opreq &&& 0xFFFFFFFF#32 = 0x00000007#32) ∧
    ((∃ buf page, decode r = .ok (.eccVerifyWrite buf page)) ↔ r.opreq &&& 0xFFFFFFFF#32 = 0x00000017#32) ∧
    ((∃ tag, decode r = .ok (.bbDetect tag)) ↔
      r.opreq &&& 0xFFFFFFFF#32 = 0x00000008#32 ∧ r.opa &&& 0xFFFFFF00#32 = 0) ∧
    ((∃ off, decode r = .ok (.bbProbe off)) ↔ r.opreq &&& 0xFFFFFFFF#32 = 0x00000009#32)

/-- The order of R83: the opcode and mode first, the must-be-zero fields second, the configuration third, the operand
ranges last. -/
def Obligations.DecodeOrder : Prop :=
  ∀ (c : Config) (r : Request),
    let opc := r.opreq.toNat % 16
    let mode := r.opreq.toNat / 16 % 16
    let row := (1 ≤ opc ∧ opc ≤ 9 ∧ mode = 0) ∨ (opc = 7 ∧ mode = 1)
    let nonZero := (4 ≤ opc ∧ r.opreq.toNat / 256 ≠ 0) ∨ (opc = 3 ∧ r.opreq.toNat / 2 ^ 24 ≠ 0) ∨
      (opc = 8 ∧ r.opa.toNat / 256 ≠ 0)
    (decodeRequest c r = .error .reservedOpcode ↔ ¬ row) ∧
    (decodeRequest c r = .error .mustBeZero ↔ row ∧ nonZero) ∧
    (decodeRequest c r = .error .switchedOff ↔ row ∧ ¬ nonZero ∧ opc = 9 ∧ c.badblockCheck = false) ∧
    (decodeRequest c r = .error .outOfRange ↔
      ∃ i, decode r = .ok i ∧ i.enabled c = true ∧ i.inRange c = false)

/-- The operands are taken from the request as R79 says: unsigned, unscaled, from the places R76 and R77 give. -/
def Obligations.OperandAssembly : Prop :=
  ∀ r : Request,
    (∀ len buf, decode r = .ok (.pull len buf) → len.toNat = r.opreq.toNat / 2 ^ 8 ∧ buf = r.opa) ∧
    (∀ len buf, decode r = .ok (.push len buf) → len.toNat = r.opreq.toNat / 2 ^ 8 ∧ buf = r.opa) ∧
    (∀ ms, decode r = .ok (.waitReady ms) → ms.toNat = r.opreq.toNat / 2 ^ 8 % 2 ^ 16) ∧
    (∀ buf page, decode r = .ok (.eccVerifyRead buf page) →
      r.opreq.toNat / 2 ^ 4 % 2 ^ 4 = 0 ∧ buf = r.opa ∧ page = r.opb) ∧
    (∀ buf page, decode r = .ok (.eccVerifyWrite buf page) →
      r.opreq.toNat / 2 ^ 4 % 2 ^ 4 = 1 ∧ buf = r.opa ∧ page = r.opb) ∧
    (∀ tag, decode r = .ok (.bbDetect tag) → tag.toNat = r.opa.toNat % 2 ^ 8) ∧
    (∀ off, decode r = .ok (.bbProbe off) → off = r.opa)

/-- The operand ranges of R85, in the numbers of the configuration. -/
def Obligations.OperandRanges : Prop :=
  ∀ c : Config, c.wf = true →
    (∀ len buf, decodeRequest c (encode (.pull len buf)) = .ok (.pull len buf) ↔
      len.toNat ≤ c.bufmemSize ∧ buf.toNat + len.toNat ≤ c.bufmemSize) ∧
    (∀ len buf, decodeRequest c (encode (.push len buf)) = .ok (.push len buf) ↔
      len.toNat ≤ c.bufmemSize ∧ buf.toNat + len.toNat ≤ c.bufmemSize) ∧
    (∀ buf page, decodeRequest c (encode (.eccVerifyRead buf page)) = .ok (.eccVerifyRead buf page) ↔
      buf.toNat + (c.pageSize + c.oobSize) ≤ c.bufmemSize) ∧
    (∀ buf page, decodeRequest c (encode (.eccVerifyWrite buf page)) = .ok (.eccVerifyWrite buf page) ↔
      (c.pageWrap = false → page.toNat < c.chipSize / c.pageSize)) ∧
    (∀ off, c.badblockCheck = true → (decodeRequest c (encode (.bbProbe off)) = .ok (.bbProbe off) ↔
      (c.pageWrap = false → off.toNat < c.chipSize))) ∧
    (∀ i : Instr, i.opUnit = .rsm ∨ (∃ tag, i = .bbDetect tag) → decodeRequest c (encode i) = .ok i)

/-- Words written out from the patterns of R83 and the vectors of 95_test_vectors.md section 6 decode to their
operations, at least one for each unit. -/
def Obligations.SpecWordsDecode : Prop :=
  decode ⟨0x00000601#32, 0#32, 0#32⟩ = .ok (.pull 6 0) ∧
  decode ⟨0x00021002#32, 0#32, 0#32⟩ = .ok (.push 528 0) ∧
  decode ⟨0x00000303#32, 0#32, 0#32⟩ = .ok (.waitReady 3) ∧
  decode ⟨0x00FFFF03#32, 0#32, 0#32⟩ = .ok (.waitReady 65535) ∧
  decode ⟨0x00000004#32, 0#32, 0#32⟩ = .ok .readStatus ∧
  decode ⟨0x00000005#32, 0#32, 0#32⟩ = .ok .chipReset ∧
  decode ⟨0x00000006#32, 0#32, 0#32⟩ = .ok .allReset ∧
  decode ⟨0x00000007#32, 0#32, 7#32⟩ = .ok (.eccVerifyRead 0 7) ∧
  decode ⟨0x00000017#32, 0#32, 35#32⟩ = .ok (.eccVerifyWrite 0 35) ∧
  decode ⟨0x00000008#32, 0x000000FE#32, 0#32⟩ = .ok (.bbDetect 0xFE) ∧
  decode ⟨0x00000009#32, 0x00005000#32, 0#32⟩ = .ok (.bbProbe 0x5000)

/-! ## Steps and the request port -/

/-- When the block is idle, the HOST's next action is the write of OPREQ and the request decodes to a well-formed
operation whose operand words have been written, the step is that operation, run on the state that has OPREQ written,
the operands latched and `busy` set (R75, R77, R83). -/
def Obligations.StepRunsDecodedInstr : Prop :=
  ∀ (s : State) (w : Word) (rest : List HostAct) (i : Instr),
    s.busy = false → s.hostq = .writeOpreq w 0 :: rest → decode ⟨w, s.port.opa.val, s.port.opb.val⟩ = .ok i →
    i.wellFormed s.cfg = true → (i.usesOpa = true → s.port.opa.held = true) →
    (i.usesOpb = true → s.port.opb.held = true) →
    step s = exec i { s with
      hostq := rest
      busy := true
      port := { s.port with opreq := .wrote w, latchA := s.port.opa, latchB := s.port.opb } }

/-- OPA and OPB are sampled once, when OPREQ is written: writes of them while the operation runs change neither the
operation nor its operands (R21, R64). -/
def Obligations.OperandsSampledOnce : Prop :=
  ∀ (s : State) (w a b : Word) (rest : List HostAct) (i : Instr),
    s.busy = false → s.hostq = .writeOpreq w 2 :: .writeOpa a :: .writeOpb b :: rest →
    decode ⟨w, s.port.opa.val, s.port.opb.val⟩ = .ok i → i.wellFormed s.cfg = true →
    (i.usesOpa = true → s.port.opa.held = true) → (i.usesOpb = true → s.port.opb.held = true) →
    step s = exec i { s with
      hostq := rest
      busy := true
      port := { s.port with opreq := .wrote w, opa := .wrote a, opb := .wrote b, latchA := s.port.opa, latchB := s.port.opb } }

/-- A request that decoding does not accept is refused: RESP becomes 0x0000000F and, beside the HOST's own write of
OPREQ, nothing else changes (R86). The operand words that what OPREQ names reads have been written. That the latches
opa and opb stay as they were is the model's choice, since R75 writes them before decoding (notes/assumptions/10.md). -/
def Obligations.RefusedRequest : Prop :=
  ∀ (s : State) (w : Word) (n : Nat) (rest : List HostAct) (e : Reject),
    s.busy = false → s.hostq = .writeOpreq w n :: rest →
    (∀ j, decode ⟨w, 0, 0⟩ = .ok j →
      (j.usesOpa = true → s.port.opa.held = true) ∧ (j.usesOpb = true → s.port.opb.held = true)) →
    decodeRequest s.cfg ⟨w, s.port.opa.val, s.port.opb.val⟩ = .error e →
    step s = .next { s with
      hostq := rest
      port := { s.port with opreq := .wrote w, resp := .wrote 0x0000000F#32 } }

/-- The reserved encodings of R87 are refused, whatever the operand words hold: the step leaves RESP at 0x0000000F and
runs no operation, and nothing else changes (R86). That the latches opa and opb stay as they were is the model's choice,
since R75 writes them before decoding (notes/assumptions/10.md). -/
def Obligations.ReservedRefused : Prop :=
  ∀ (s : State) (w : Word) (n : Nat) (rest : List HostAct),
    s.busy = false → s.hostq = .writeOpreq w n :: rest →
    (let opc := w.toNat % 16
     let mode := w.toNat / 16 % 16
     opc = 0 ∨ 10 ≤ opc ∨ (opc = 7 ∧ 2 ≤ mode) ∨ (opc ≠ 7 ∧ mode ≠ 0) ∨ (4 ≤ opc ∧ w.toNat / 256 ≠ 0) ∨
       (opc = 3 ∧ w.toNat / 2 ^ 24 ≠ 0) ∨ (opc = 9 ∧ s.cfg.badblockCheck = false) ∨
       (opc = 8 ∧ s.port.opa.held = true ∧ s.port.opa.val.toNat / 256 ≠ 0)) →
    step s = .next { s with
      hostq := rest
      port := { s.port with opreq := .wrote w, resp := .wrote 0x0000000F#32 } }

/-- A request whose operation reads an operand word the HOST has not written since reset reads an element that holds
no value (R44, R214). Which of the faults comes first is the model's choice (notes/assumptions/11.md). -/
def Obligations.UnwrittenOperandFaults : Prop :=
  ∀ (s : State) (w : Word) (n : Nat) (rest : List HostAct) (i : Instr),
    s.busy = false → s.hostq = .writeOpreq w n :: rest → decode ⟨w, 0, 0⟩ = .ok i → i.enabled s.cfg = true →
    (i.usesOpa = true → s.port.opa.held = false → step s = .fault (.uninitialisedRead .opa)) ∧
    (i.usesOpa = false → i.usesOpb = true → s.port.opb.held = false → step s = .fault (.uninitialisedRead .opb))

/-- While an operation runs, a write of OPREQ is `ConcurrentIssue`; an access to an NFC register of any offset and width,
and a write into the BUFMEM region in use, are `ConcurrentAccess` (R68, R75, R214). The access is the one that lands
while the operation `i` of an accepted request runs; that it is met before the operation's first step is the model's
choice (notes/assumptions/8.md). That the fault comes first where the access is of another width than 4 (R51) or at an
offset where no register lies (R61) is the model's choice too (notes/assumptions/14.md). -/
def Obligations.ConcurrentFaults : Prop :=
  ∀ (s : State) (w : Word) (a : HostAct) (rest : List HostAct) (i : Instr),
    s.busy = false → s.hostq = .writeOpreq w 1 :: a :: rest → decode ⟨w, s.port.opa.val, s.port.opb.val⟩ = .ok i →
    i.wellFormed s.cfg = true → (i.usesOpa = true → s.port.opa.held = true) →
    (i.usesOpb = true → s.port.opb.held = true) →
    (∀ w' n, a = .writeOpreq w' n → step s = .fault .concurrentIssue) ∧
    (∀ off wid, a = .regRead off wid → step s = .fault .concurrentAccess) ∧
    (∀ off wid v, a = .regWrite off wid v → step s = .fault .concurrentAccess) ∧
    (∀ x b, a = .memWrite x b → (regionInUse s.cfg i).1 ≤ x → x < (regionInUse s.cfg i).1 + (regionInUse s.cfg i).2 →
      step s = .fault .concurrentAccess)

/-- While the block is idle the HOST reads and writes BUFMEM and every NFC register freely (R68): a write of a byte is
what the next read of it finds, a read of a register is answered by ENV, and each access changes only what it names.
What `nfc` holds after an access is the model's mirror (notes/assumptions/9.md). -/
def Obligations.HostAccessWhileIdle : Prop :=
  ∀ (s : State) (rest : List HostAct), s.busy = false → s.cfg.wf = true →
    (∀ a b, s.hostq = .memWrite a b :: rest → a < s.cfg.bufmemSize →
      ∃ t, step s = .next t ∧ Memory.lookup t.bufmem a = some b ∧
        (∀ x, x ≠ a → Memory.lookup t.bufmem x = Memory.lookup s.bufmem x) ∧
        t = { s with hostq := rest, bufmem := t.bufmem, trace := .hostBufWrite a b :: s.trace }) ∧
    (∀ a b, s.hostq = .memRead a :: rest → a < s.cfg.bufmemSize → Memory.lookup s.bufmem a = some b →
      step s = .next { s with hostq := rest, trace := .hostBufRead a b :: s.trace }) ∧
    (∀ r v, s.hostq = .regWrite (s.cfg.regOffset.get r) 4 v :: rest →
      ∃ t, step s = .next t ∧ t = { s with hostq := rest, nfc := t.nfc, trace := .hostRegWrite r v :: s.trace } ∧
        ∀ r', r' ≠ r → t.nfc.get r' = s.nfc.get r') ∧
    (∀ r v vs, s.hostq = .regRead (s.cfg.regOffset.get r) 4 :: rest → s.env.reads = v :: vs →
      step s = .next { s with hostq := rest, nfc := s.nfc.set r v, env := { s.env with reads := vs },
                              trace := .hostRegRead r v :: s.trace })

/-- The HOST reads RESP, and that read changes nothing; before any request has been answered RESP holds no value and
the read is a fault (R44). A read of a BUFMEM byte that holds no value is a fault (R44, R56). -/
def Obligations.HostReads : Prop :=
  ∀ (s : State) (rest : List HostAct),
    (s.hostq = .readResp :: rest → s.port.resp.held = true →
      step s = .next { s with hostq := rest, trace := .hostResp s.port.resp.val :: s.trace }) ∧
    (s.hostq = .readResp :: rest → s.port.resp.held = false → step s = .fault (.uninitialisedRead .resp)) ∧
    (∀ a, s.hostq = .memRead a :: rest → a < s.cfg.bufmemSize → Memory.lookup s.bufmem a = none →
      step s = .fault (.uninitialisedRead (.bufByte a)))

/-- Write-1-to-clear (R36, R55): a write of `m` to INTERRUPT_STATUS clears at that instant every bit that is 1 in `m`,
leaves every other bit as it was and sets none. First the HOST's write at the register's offset; then `RegWrite` of the
block, which all three clears of the block are: of `rx_ready` after a word of PULL, of `tx_ready` after a word of PUSH,
and of INT_CLEAR_ALL at the start of a status read. The first two are also seen after a transfer that ends with OK: its
last access to the register is that clear, and the register is the last sample but for the ready bit. What the register
holds is read in the model's mirror, which is the model's choice (notes/assumptions/9.md): a bit that is not cleared is
as the last access saw it. -/
def Obligations.WriteOneToClear : Prop :=
  (∀ (s : State) (m : Word) (rest : List HostAct), s.busy = false → s.cfg.wf = true →
    s.hostq = .regWrite s.cfg.regOffset.interruptStatus 4 m :: rest →
    ∃ t, step s = .next t ∧ clearedBy m s.nfc.interruptStatus t.nfc.interruptStatus) ∧
  (∀ (s : State) (m : Word), clearedBy m s.nfc.interruptStatus (regWrite .interruptStatus m s).nfc.interruptStatus) ∧
  (∀ (i : Instr) (len : Len) (buf : Word) (s t : State) (ready : Word),
    ((i = .pull len buf ∧ ready = s.cfg.intRxReady) ∨ (i = .push len buf ∧ ready = s.cfg.intTxReady)) →
    0 < len.toNat → exec i s = .next t → t.err = 0 →
    ∃ v es fs, t.trace = .regWrite .interruptStatus ready :: (es ++ .regRead .interruptStatus v :: fs) ∧
      (∀ e ∈ es, isRegReadOf .interruptStatus e = false ∧ ∀ m, e ≠ .regWrite .interruptStatus m) ∧
      clearedBy ready v t.nfc.interruptStatus)

/-! ## Reset and the invariant -/

/-- The values of R44 after RESET, for every configuration: every element at its value, and every element that holds no
value marked so. The values of `nfc` and of the unheld elements are the model's own (notes/assumptions/2.md, 9.md). -/
def Obligations.ResetValues : Prop :=
  ∀ c : Config, let s := State.resetWith c
    s.cfg = c ∧ s.fsm = .idle ∧ s.fsm.bits = 0 ∧ s.busy = false ∧ s.inRecovery = false ∧ s.err = 0 ∧ s.rsm.budget = 0 ∧
    s.rsm.retry = 0 ∧ s.rsm.aux = 0 ∧ s.dte.retry = 0 ∧ s.dte.len = 0 ∧ s.dte.cnt = 0 ∧ s.dte.dir.bit = 0 ∧
    s.ecv.attempt = 0 ∧ s.elapsedUs = 0 ∧ s.trace = [] ∧ (∀ a, Memory.lookup s.bufmem a = none) ∧
    s.rsm.statusByte.held = false ∧ s.ecv.latch.held = false ∧ s.bbd.tag.held = false ∧ s.bbd.bad.held = false ∧
    s.port.opreq.held = false ∧ s.port.opa.held = false ∧ s.port.opb.held = false ∧ s.port.latchA.held = false ∧
    s.port.latchB.held = false ∧ s.port.resp.held = false

/-- The state after RESET meets the invariant, in every configuration. -/
def Obligations.ResetMeetsInvariant : Prop := ∀ c : Config, (State.resetWith c).Inv

/-- Every step from a state that meets the invariant leads to one that meets it, and no step changes the configuration
(R28, R45 I2 and I4, R56, R78, R200). -/
def Obligations.StepKeepsInvariant : Prop :=
  ∀ s t : State, s.Inv → step s = .next t → t.Inv ∧ t.cfg = s.cfg

/-! ## All operations -/

/-- What every operation leaves: one of the codes R202 gives it, in `err` and in RESP[3:0], with RESP[7:4] zero; `busy`
clear; `in_recovery` as it was; the port's other registers, the latches and the configuration as they were. -/
def Obligations.EveryOperationLeaves : Prop :=
  ∀ (i : Instr) (s t : State), exec i s = .next t →
    (∃ c ∈ codesOf i, t.err = c.bits ∧ t.port.resp.held = true ∧ respCode t.port.resp.val = c.bits ∧
      respMiddle t.port.resp.val = 0) ∧
    t.port = { s.port with resp := t.port.resp } ∧ t.busy = false ∧ t.inRecovery = s.inRecovery ∧ t.cfg = s.cfg ∧
    t.hostq = s.hostq

/-- Every operation ends, whatever ENV and the collaborators answer: for every well-formed configuration and accepted
request there is a next state, provided the bytes the operation may read hold values (R250, R44). -/
def Obligations.EveryOperationEnds : Prop :=
  ∀ (i : Instr) (s : State), s.cfg.wf = true → i.wellFormed s.cfg = true →
    (∀ len buf, i = .push len buf → holds s buf.toNat len.toNat) →
    (∀ buf page, i = .eccVerifyRead buf page → holds s (eccAddr s.cfg buf.toNat 0) 4) →
    ∃ t, exec i s = .next t

/-- `elapsed_us` grows by the delays the operation requests (R29), and by no less where a collaborator runs inside it:
that the collaborator's own delays count is the model's reading (notes/assumptions/7.md). -/
def Obligations.ElapsedSums : Prop :=
  ∀ (i : Instr) (s t : State), exec i s = .next t →
    ∃ es, t.trace = es ++ s.trace ∧ s.elapsedUs + delaySum es ≤ t.elapsedUs ∧
      ((∀ buf page, i ≠ .eccVerifyWrite buf page) → (∀ off, i ≠ .bbProbe off) →
        t.elapsedUs = s.elapsedUs + delaySum es)

/-- The starting value of `fsm` never matters to an RSM operation (R23): from any two values it gives the same state. -/
def Obligations.StartingFsmIrrelevant : Prop :=
  ∀ (i : Instr) (s : State) (f : Fsm), i.opUnit = .rsm →
    ∃ t, exec i s = .next t ∧ exec i { s with fsm := f } = .next t

/-- Every assignment of `fsm` is a transition of R126: the path of an RSM operation from the value `fsm` had, that of
READ_STATUS from its first transition to STATUS_READ (T15), and no assignment in the other operations, whose
collaborator calls alone may change `fsm` (R69). -/
def Obligations.FsmTransitions : Prop :=
  ∀ (i : Instr) (s t : State), exec i s = .next t →
    (i.opUnit = .rsm → i ≠ .readStatus → ∃ fs, t.fsmPath = fs ++ s.fsmPath ∧ (fs ++ [s.fsm]).head? = some t.fsm ∧
      pathAllowed s.cfg.hasRb false (fs ++ [s.fsm]) = true) ∧
    (i = .readStatus → ∃ fs, t.fsmPath = fs ++ s.fsmPath ∧ fs.head? = some t.fsm ∧ fs.getLast? = some .statusRead ∧
      pathAllowed s.cfg.hasRb true fs = true) ∧
    (i.opUnit ≠ .rsm → t.fsmPath = s.fsmPath) ∧
    (i.opUnit = .dte → t.fsm = s.fsm) ∧
    (∀ buf page, i = .eccVerifyRead buf page → t.fsm = s.fsm) ∧ (∀ tag, i = .bbDetect tag → t.fsm = s.fsm)

/-! ## The Data Transfer Engine -/

/-- The completion of PULL and PUSH (R99): the code in `err`, the bytes moved and the code in RESP, `busy` clear; the
code is OK iff all bytes were moved, and the two failures imply fewer. -/
def Obligations.DteCompletion : Prop :=
  ∀ (i : Instr) (len : Len) (buf : Word) (s : State),
    (i = .pull len buf ∨ (i = .push len buf ∧ holds s buf.toNat len.toNat)) → s.cfg.wf = true →
    i.inRange s.cfg = true →
    ∃ (code : Code) (t : State), exec i s = .next t ∧ t.err = code.bits ∧
      t.port = { s.port with resp := .wrote (respWord t.dte.cnt code.bits) } ∧ t.busy = false ∧
      (code = .ok ↔ t.dte.cnt = len) ∧
      (code = .ok ∨ ((code = .transferShort ∨ code = .hardwareTimeout) ∧ t.dte.cnt.toNat < len.toNat))

/-- PULL (R96, R57, R58): byte `j` of the transfer is byte `j mod 4` of the DATA word number `j / 4` the operation read;
it stands at `buffer + j`; every other byte of BUFMEM is as it was. One DATA word is read and INTERRUPT_STATUS is
written with `rx_ready` once for each word, and no other register is written. -/
def Obligations.PullMovesWords : Prop :=
  ∀ (len : Len) (buf : Word) (s : State), s.cfg.wf = true → (Instr.pull len buf).inRange s.cfg = true →
    ∃ (t : State) (es : List Event), exec (.pull len buf) s = .next t ∧ t.trace = es ++ s.trace ∧
      t.dte.dir = .rx ∧ t.dte.len = len ∧ t.dte.cnt.toNat ≤ len.toNat ∧
      (dataReads es).length = (t.dte.cnt.toNat + 3) / 4 ∧
      (∀ j < t.dte.cnt.toNat, Memory.lookup t.bufmem (buf.toNat + j) =
        ((dataReads es)[j / 4]?).map fun w => wordByte w (j % 4)) ∧
      (∀ a, (a < buf.toNat ∨ buf.toNat + t.dte.cnt.toNat ≤ a) →
        Memory.lookup t.bufmem a = Memory.lookup s.bufmem a) ∧
      (∀ e ∈ es, isRegWrite e = true → e = .regWrite .interruptStatus s.cfg.intRxReady) ∧
      es.countP isRegWrite = (t.dte.cnt.toNat + 3) / 4

/-- PUSH (R98, R57, R58): byte `j mod 4` of the DATA word number `j / 4` the operation wrote is the byte at `buffer + j`,
and 0 past the last byte moved; BUFMEM is only read. One DATA word and one INTERRUPT_STATUS value, `tx_ready`, are
written for each word, and no other register is written. -/
def Obligations.PushMovesWords : Prop :=
  ∀ (len : Len) (buf : Word) (s : State), s.cfg.wf = true → (Instr.push len buf).inRange s.cfg = true →
    holds s buf.toNat len.toNat →
    ∃ (t : State) (es : List Event), exec (.push len buf) s = .next t ∧ t.trace = es ++ s.trace ∧
      t.dte.dir = .tx ∧ t.dte.len = len ∧ t.dte.cnt.toNat ≤ len.toNat ∧
      (dataWrites es).length = (t.dte.cnt.toNat + 3) / 4 ∧
      (∀ j < 4 * ((t.dte.cnt.toNat + 3) / 4), ((dataWrites es)[j / 4]?).map (fun w => wordByte w (j % 4)) =
        if j < t.dte.cnt.toNat then Memory.lookup s.bufmem (buf.toNat + j) else some 0) ∧
      t.bufmem = s.bufmem ∧
      (∀ e ∈ es, isRegWrite e = true →
        e = .regWrite .interruptStatus s.cfg.intTxReady ∨ ∃ w, e = .regWrite .data w) ∧
      es.countP isRegWrite = 2 * ((t.dte.cnt.toNat + 3) / 4)

/-- The frame of PULL and PUSH (R96, R98, R104): beside the DTE's own elements, `err`, RESP, `busy`, the ghost and the
history nothing of the block changes; of the NFC registers only INTERRUPT_STATUS and DATA are touched; PULL changes no
byte outside the ones it moved and PUSH changes none. -/
def Obligations.DteChangesNothingElse : Prop :=
  ∀ (i : Instr) (len : Len) (buf : Word) (s t : State), (i = .pull len buf ∨ i = .push len buf) →
    exec i s = .next t →
    t = { s with
      port := { s.port with resp := t.port.resp }
      busy := false
      err := t.err
      dte := { len := len, cnt := t.dte.cnt, retry := t.dte.retry, dir := if i = .pull len buf then .rx else .tx }
      elapsedUs := t.elapsedUs
      bufmem := t.bufmem
      nfc := t.nfc
      trace := t.trace
      env := { s.env with reads := t.env.reads, drawn := t.env.drawn } } ∧
    (∀ r, r ≠ .interruptStatus → r ≠ .data → t.nfc.get r = s.nfc.get r) ∧
    (∀ a, (a < buf.toNat ∨ buf.toNat + t.dte.cnt.toNat ≤ a) → Memory.lookup t.bufmem a = Memory.lookup s.bufmem a) ∧
    (i = .push len buf → t.bufmem = s.bufmem)

/-- A transfer of length 0 (R102): accepted with any buffer up to BUFMEM_SIZE, it makes no access and no delay, sets the
DTE's elements and completes with RESP = 0x00000000. -/
def Obligations.DteZeroLength : Prop :=
  ∀ (buf : Word) (s : State),
    exec (.pull 0 buf) s = .next { s with
      dte := { len := 0, cnt := 0, retry := BitVec.ofNat 32 s.cfg.pullRetries, dir := .rx }
      err := 0, busy := false, port := { s.port with resp := .wrote 0x00000000#32 } } ∧
    exec (.push 0 buf) s = .next { s with
      dte := { len := 0, cnt := 0, retry := BitVec.ofNat 32 s.cfg.pushRetries, dir := .tx }
      err := 0, busy := false, port := { s.port with resp := .wrote 0x00000000#32 } } ∧
    (buf.toNat ≤ s.cfg.bufmemSize → decodeRequest s.cfg (encode (.pull 0 buf)) = .ok (.pull 0 buf) ∧
      decodeRequest s.cfg (encode (.push 0 buf)) = .ok (.push 0 buf))

/-- The priority of R100 in the first sample `v` of a transfer: with the ready bit set a word is moved, whatever `done`
is; with it clear and `done` set the transfer stops with TransferShort; with both clear the sample is idle: a delay
follows, or HardwareTimeout where the budget is 0. -/
def Obligations.DteSamplePriority : Prop :=
  ∀ (i : Instr) (len : Len) (buf : Word) (s : State) (ready : Word) (budget : Nat) (v : Word) (vs : List Word),
    ((i = .pull len buf ∧ ready = s.cfg.intRxReady ∧ budget = s.cfg.pullRetries) ∨
      (i = .push len buf ∧ ready = s.cfg.intTxReady ∧ budget = s.cfg.pushRetries ∧ holds s buf.toNat len.toNat)) →
    s.cfg.wf = true → i.inRange s.cfg = true → 0 < len.toNat → s.env.reads = v :: vs →
    ∃ (t : State) (fs : List Event), exec i s = .next t ∧ history t = history s ++ .regRead .interruptStatus v :: fs ∧
      (v &&& ready ≠ 0 → min 4 len.toNat ≤ t.dte.cnt.toNat) ∧
      (v &&& ready = 0 → v &&& s.cfg.intDone ≠ 0 →
        fs = [] ∧ t.port.resp = .wrote (respWord 0 Code.transferShort.bits)) ∧
      (v &&& ready = 0 → v &&& s.cfg.intDone = 0 →
        (budget = 0 ∧ fs = [] ∧ t.port.resp = .wrote (respWord 0 Code.hardwareTimeout.bits)) ∨
        (0 < budget ∧ ∃ gs, fs = .delay 1 :: gs))

/-- The sample that ends a transfer early (R100, R206 b): its ready bit is clear, so TransferShort is never reported
while a word is available; `done` tells the two failures apart, so HardwareTimeout is never reported while it is set. -/
def Obligations.DteEarlyEnd : Prop :=
  ∀ (i : Instr) (len : Len) (buf : Word) (s t : State) (ready : Word),
    ((i = .pull len buf ∧ ready = s.cfg.intRxReady) ∨ (i = .push len buf ∧ ready = s.cfg.intTxReady)) →
    s.cfg.wf = true → i.inRange s.cfg = true → exec i s = .next t → t.err ≠ 0 →
    ∃ v es, t.trace = .regRead .interruptStatus v :: es ∧ v &&& ready = 0 ∧
      (t.err = Code.transferShort.bits ↔ v &&& s.cfg.intDone ≠ 0) ∧
      (t.err = Code.hardwareTimeout.bits ↔ v &&& s.cfg.intDone = 0)

/-- The retry counter of a transfer (R101, R257): loaded once and not reloaded, it bounds the delays of the whole
operation; a transfer that ends in HardwareTimeout has delayed exactly its budget and made its idle samples budget + 1. -/
def Obligations.DteBudget : Prop :=
  ∀ (i : Instr) (len : Len) (buf : Word) (s : State) (budget : Nat),
    ((i = .pull len buf ∧ budget = s.cfg.pullRetries) ∨
      (i = .push len buf ∧ budget = s.cfg.pushRetries ∧ holds s buf.toNat len.toNat)) →
    s.cfg.wf = true → i.inRange s.cfg = true →
    ∃ (t : State) (es : List Event), exec i s = .next t ∧ t.trace = es ++ s.trace ∧
      t.elapsedUs = s.elapsedUs + delaySum es ∧ t.dte.retry.toNat + delaySum es = budget ∧
      (t.err = Code.hardwareTimeout.bits → delaySum es = budget ∧
        regReadCountOf .interruptStatus es = (t.dte.cnt.toNat + 3) / 4 + budget + 1)

/-- The termination bound of R103: PULL and PUSH sample INTERRUPT_STATUS at most ceil(length / 4) + budget + 1 times,
whatever ENV answers. -/
def Obligations.DteSampleBound : Prop :=
  ∀ (i : Instr) (len : Len) (buf : Word) (s : State) (budget : Nat),
    ((i = .pull len buf ∧ budget = s.cfg.pullRetries) ∨
      (i = .push len buf ∧ budget = s.cfg.pushRetries ∧ holds s buf.toNat len.toNat)) →
    s.cfg.wf = true → i.inRange s.cfg = true →
    ∃ (t : State) (es : List Event), exec i s = .next t ∧ t.trace = es ++ s.trace ∧
      regReadCountOf .interruptStatus es ≤ (len.toNat + 3) / 4 + budget + 1

/-- A PUSH that reaches a byte of BUFMEM that holds no value is a fault (R56, R44): byte `j`, the first one without a
value. The samples before the one that lets its word be sent are `vs`: one with the ready bit for each whole word before
it, and idle ones within the budget. -/
def Obligations.PushUnheldByteFaults : Prop :=
  ∀ (len : Len) (buf : Word) (s : State) (vs : List Word) (v : Word) (rest : List Word) (j : Nat), s.cfg.wf = true →
    (Instr.push len buf).inRange s.cfg = true → s.env.reads = vs ++ v :: rest → v &&& s.cfg.intTxReady ≠ 0 →
    (∀ x ∈ vs, x &&& s.cfg.intTxReady = 0 → x &&& s.cfg.intDone = 0) →
    vs.countP (fun x => decide (x &&& s.cfg.intTxReady ≠ 0)) = j / 4 →
    vs.countP (fun x => decide (x &&& s.cfg.intTxReady = 0)) ≤ s.cfg.pushRetries → j < len.toNat →
    (∀ k < j, Memory.lookup s.bufmem (buf.toNat + k) ≠ none) → Memory.lookup s.bufmem (buf.toNat + j) = none →
    exec (.push len buf) s = .fault (.uninitialisedRead (.bufByte (buf.toNat + j)))

/-! ## The Readiness State Machine -/

/-- The completion of the four RSM operations (R111, R112): the code in `err`, the status byte in `status_byte` and in
RESP, `busy` clear, and `fsm` OK iff the code is OK, else FAIL. The code is DeviceFail exactly when the byte has its
fail bit set and no wait timed out; on a timeout the byte is FAIL_BYTE. -/
def Obligations.RsmCompletion : Prop :=
  ∀ (i : Instr) (s : State), i.opUnit = .rsm →
    ∃ (code : Code) (sb : Byte) (t : State), exec i s = .next t ∧ t.err = code.bits ∧ t.rsm.statusByte = .wrote sb ∧
      t.port = { s.port with resp := .wrote (respWord (sb.setWidth 24) code.bits) } ∧ t.busy = false ∧
      ((code = .ok ∧ t.fsm = .ok ∧ sb &&& s.cfg.sbFail = 0) ∨
        (code = .deviceFail ∧ t.fsm = .fail ∧ sb &&& s.cfg.sbFail ≠ 0) ∨
        (code = .hardwareTimeout ∧ t.fsm = .fail ∧ sb = s.cfg.failByte))

/-- The fail bit of the byte in RESP is what a caller sees (R203): it is set exactly when the code is HardwareTimeout or
DeviceFail, so a timeout shows as a device failure. -/
def Obligations.FailBitSurfaces : Prop :=
  ∀ (i : Instr) (s t : State), i.opUnit = .rsm → s.cfg.wf = true → exec i s = .next t →
    (respStatusByte t.port.resp.val &&& s.cfg.sbFail ≠ 0 ↔
      respCode t.port.resp.val = 0x1#4 ∨ respCode t.port.resp.val = 0x2#4)

/-- The frame of the RSM operations (R115, R118, R122, R123): BUFMEM, the elements of the DTE, the ECV and the BBD, the
operand words and latches and `in_recovery` are as they were; of the NFC registers only INTERRUPT_STATUS, DATA, STATUS,
CONTROL and those of the parameter sequences and of BUF_CLEAR_DONE are touched. -/
def Obligations.RsmChangesNothingElse : Prop :=
  ∀ (i : Instr) (s t : State), i.opUnit = .rsm → exec i s = .next t →
    t = { s with
      port := { s.port with resp := t.port.resp }
      busy := false
      err := t.err
      fsm := t.fsm
      rsm := t.rsm
      elapsedUs := t.elapsedUs
      nfc := t.nfc
      trace := t.trace
      fsmPath := t.fsmPath
      env := { s.env with reads := t.env.reads, drawn := t.env.drawn } } ∧
    ∀ r, r ∉ rsmAccessed s.cfg → t.nfc.get r = s.nfc.get r

/-- READ_STATUS whose byte arrives (R116 to R118): the exact history, the counter, the byte and the result. -/
def Obligations.ReadStatusByte : Prop :=
  ∀ (s : State) (q : StatusRound) (rest : List Word), s.cfg.wf = true → q.arrives s.cfg →
    s.env.reads = q.answers ++ rest →
    ∃ t, exec .readStatus s = .next t ∧
      history t = history s ++ (.regWrite .interruptStatus s.cfg.intClearAll :: sequenceEvents s.cfg.statusReadSeq ++
        idleSamples .interruptStatus q.idle ++ [.regRead .interruptStatus q.ready, .regRead .data q.data]) ∧
      t.env.reads = rest ∧ t.elapsedUs = s.elapsedUs + q.idle.length ∧
      t.rsm = { s.rsm with aux := BitVec.ofNat 32 (s.cfg.statusRetries - q.idle.length),
                           statusByte := .wrote (wordByte q.data 0) } ∧
      (wordByte q.data 0 &&& s.cfg.sbFail = 0 → t.fsm = .ok ∧
        t.port.resp = .wrote (respWord ((wordByte q.data 0).setWidth 24) Code.ok.bits)) ∧
      (wordByte q.data 0 &&& s.cfg.sbFail ≠ 0 → t.fsm = .fail ∧
        t.port.resp = .wrote (respWord ((wordByte q.data 0).setWidth 24) Code.deviceFail.bits))

/-- READ_STATUS whose byte does not arrive (R116, R208, R209): the state `u` holds exactly the events up to the sample
that exhausts the budget. Where `in_recovery` is 0 what follows is AllReset from `u`, whole: the operation ends as
ALL_RESET from `u` ends, but that its result is discarded and the operation ends with HardwareTimeout, FAIL_BYTE and
`fsm = FAIL`. Where `in_recovery` is 1 nothing follows (R121). At least STATUS_RETRIES microseconds have passed before
the recovery (R257). -/
def Obligations.ReadStatusTimeout : Prop :=
  ∀ (s : State) (vs : List Word) (v : Word) (rest : List Word), s.cfg.wf = true → s.env.reads = vs ++ v :: rest →
    vs.length = s.cfg.statusRetries → (∀ x ∈ vs, x &&& s.cfg.intRxReady = 0) → v &&& s.cfg.intRxReady = 0 →
    ∃ u w t, exec .readStatus s = .next t ∧
      history u = history s ++ (statusReadEvents s.cfg ++ idleSamples .interruptStatus vs ++
        [.regRead .interruptStatus v]) ∧
      u = { s with
        fsm := .statusRead
        fsmPath := .statusRead :: s.fsmPath
        rsm := { s.rsm with aux := 0 }
        elapsedUs := s.elapsedUs + s.cfg.statusRetries
        nfc := u.nfc
        trace := u.trace
        env := { s.env with reads := rest } } ∧
      (s.inRecovery = false → exec .allReset u = .next w ∧ ∃ c gs, history w = history u ++ (toggleEvents s.cfg c ++ gs)) ∧
      (s.inRecovery = true → w = u) ∧
      t = { w with
        fsm := .fail
        fsmPath := .fail :: w.fsmPath
        rsm := { w.rsm with statusByte := .wrote s.cfg.failByte }
        err := Code.hardwareTimeout.bits
        busy := false
        port := { s.port with resp := .wrote (respWord (s.cfg.failByte.setWidth 24) Code.hardwareTimeout.bits) } } ∧
      t.inRecovery = s.inRecovery ∧ s.elapsedUs + s.cfg.statusRetries ≤ t.elapsedUs

/-- WAIT_READY with a ready/busy line (R114, R115): the sleep, the samples up to transaction-done, those up to
device-ready, and the status read, with the exact history and counters. The second phase has the budget of the first,
reloaded, or what the first left where RB_BUDGET_SHARED. -/
def Obligations.WaitReadyLine : Prop :=
  ∀ (s : State) (ms : Millis) (ds : List Word) (d : Word) (bs : List Word) (b : Word) (q : StatusRound)
    (rest : List Word), s.cfg.wf = true → s.cfg.hasRb = true →
    s.env.reads = ds ++ d :: (bs ++ b :: (q.answers ++ rest)) →
    (∀ x ∈ ds, x &&& s.cfg.intDone = 0) → d &&& s.cfg.intDone ≠ 0 →
    (∀ x ∈ bs, x &&& s.cfg.stDevReady = 0) → b &&& s.cfg.stDevReady ≠ 0 → q.arrives s.cfg →
    ds.length ≤ max 1 ms.toNat * s.cfg.retriesPerMs →
    (if s.cfg.rbBudgetShared then ds.length + bs.length else bs.length) ≤ max 1 ms.toNat * s.cfg.retriesPerMs →
    ∃ t, exec (.waitReady ms) s = .next t ∧
      history t = history s ++ ((if ms = 0 then [] else [.delay (1000 * ms.toNat)]) ++
        idleSamples .interruptStatus ds ++ [.regRead .interruptStatus d] ++ idleSamples .status bs ++
        [.regRead .status b] ++ q.events s.cfg) ∧
      t.env.reads = rest ∧
      t.rsm = { budget := BitVec.ofNat 32 (max 1 ms.toNat * s.cfg.retriesPerMs)
                retry := BitVec.ofNat 32 (max 1 ms.toNat * s.cfg.retriesPerMs -
                  (if s.cfg.rbBudgetShared then ds.length + bs.length else bs.length))
                aux := BitVec.ofNat 32 (s.cfg.statusRetries - q.idle.length)
                statusByte := .wrote (wordByte q.data 0) } ∧
      (wordByte q.data 0 &&& s.cfg.sbFail = 0 → t.fsm = .ok ∧
        t.port.resp = .wrote (respWord ((wordByte q.data 0).setWidth 24) Code.ok.bits)) ∧
      (wordByte q.data 0 &&& s.cfg.sbFail ≠ 0 → t.fsm = .fail ∧
        t.port.resp = .wrote (respWord ((wordByte q.data 0).setWidth 24) Code.deviceFail.bits))

/-- WAIT_READY without a ready/busy line (R114, R115): after transaction-done whole status reads, a delay after each
byte whose ready bit is clear, until a byte has it set or the counter is 0; STATUS is never read. A fail bit in a
not-ready byte does not end the loop; exhaustion gives FAIL_BYTE, not the last byte. -/
def Obligations.WaitReadyChip : Prop :=
  ∀ (s : State) (ms : Millis) (ds : List Word) (d : Word) (qs : List StatusRound) (q : StatusRound)
    (rest : List Word), s.cfg.wf = true → s.cfg.hasRb = false →
    s.env.reads = ds ++ d :: (qs.flatMap StatusRound.answers ++ (q.answers ++ rest)) →
    (∀ x ∈ ds, x &&& s.cfg.intDone = 0) → d &&& s.cfg.intDone ≠ 0 →
    ds.length ≤ max 1 ms.toNat * s.cfg.retriesPerMs →
    (∀ x ∈ qs, x.arrives s.cfg ∧ wordByte x.data 0 &&& s.cfg.sbReady = 0) → q.arrives s.cfg →
    (let polls := if s.cfg.rbBudgetShared then ds.length + qs.length else qs.length
     (polls ≤ max 1 ms.toNat * s.cfg.retriesPerMs ∧ wordByte q.data 0 &&& s.cfg.sbReady ≠ 0) ∨
     polls = max 1 ms.toNat * s.cfg.retriesPerMs) →
    ∃ t, exec (.waitReady ms) s = .next t ∧
      history t = history s ++ (sleepEvents ms ++ idleSamples .interruptStatus ds ++ [.regRead .interruptStatus d] ++
        qs.flatMap (fun x => x.events s.cfg ++ [.delay 1]) ++ q.events s.cfg) ∧
      t.env.reads = rest ∧
      (wordByte q.data 0 &&& s.cfg.sbReady = 0 → t.fsm = .fail ∧ t.rsm.retry = 0 ∧
        t.port.resp = .wrote (respWord (s.cfg.failByte.setWidth 24) Code.hardwareTimeout.bits)) ∧
      (wordByte q.data 0 &&& s.cfg.sbReady ≠ 0 → wordByte q.data 0 &&& s.cfg.sbFail = 0 → t.fsm = .ok ∧
        t.port.resp = .wrote (respWord ((wordByte q.data 0).setWidth 24) Code.ok.bits)) ∧
      (wordByte q.data 0 &&& s.cfg.sbReady ≠ 0 → wordByte q.data 0 &&& s.cfg.sbFail ≠ 0 → t.fsm = .fail ∧
        t.port.resp = .wrote (respWord ((wordByte q.data 0).setWidth 24) Code.deviceFail.bits))

/-- WAIT_READY whose status byte does not arrive (R114, R115, site `status_rx`), in either configuration: `u` is the
state in which that status read begins, after the ready/busy line showed ready (HAS_RB) or after whole status reads
whose bytes were not ready (no line). From there the operation ends as READ_STATUS from `u` ends: the poll of the chip
ends at once, one recovery runs unless one is running, and the result is HardwareTimeout with FAIL_BYTE. -/
def Obligations.WaitReadyStatusTimeout : Prop :=
  ∀ (s : State) (ms : Millis) (ds : List Word) (d : Word) (mid : List Word) (evs : List Event) (polls : Nat)
    (vs : List Word) (v : Word) (rest : List Word), s.cfg.wf = true →
    s.env.reads = ds ++ d :: (mid ++ (vs ++ v :: rest)) →
    (∀ x ∈ ds, x &&& s.cfg.intDone = 0) → d &&& s.cfg.intDone ≠ 0 →
    ds.length ≤ max 1 ms.toNat * s.cfg.retriesPerMs →
    ((s.cfg.hasRb = true ∧ ∃ bs b, mid = bs ++ [b] ∧ (∀ x ∈ bs, x &&& s.cfg.stDevReady = 0) ∧
        b &&& s.cfg.stDevReady ≠ 0 ∧ polls = bs.length ∧ evs = idleSamples .status bs ++ [.regRead .status b]) ∨
      (s.cfg.hasRb = false ∧ ∃ qs : List StatusRound, mid = qs.flatMap StatusRound.answers ∧
        (∀ x ∈ qs, x.arrives s.cfg ∧ wordByte x.data 0 &&& s.cfg.sbReady = 0) ∧ polls = qs.length ∧
        evs = qs.flatMap fun x => x.events s.cfg ++ [.delay 1])) →
    (if s.cfg.rbBudgetShared then ds.length + polls else polls) ≤ max 1 ms.toNat * s.cfg.retriesPerMs →
    vs.length = s.cfg.statusRetries → (∀ x ∈ vs, x &&& s.cfg.intRxReady = 0) → v &&& s.cfg.intRxReady = 0 →
    ∃ u t fs, exec (.waitReady ms) s = .next t ∧ exec .readStatus u = .next t ∧
      history u = history s ++ (sleepEvents ms ++ idleSamples .interruptStatus ds ++ [.regRead .interruptStatus d] ++ evs) ∧
      u = { s with
        fsm := u.fsm
        fsmPath := u.fsmPath
        rsm := { s.rsm with
          budget := BitVec.ofNat 32 (max 1 ms.toNat * s.cfg.retriesPerMs)
          retry := BitVec.ofNat 32 (max 1 ms.toNat * s.cfg.retriesPerMs -
            (if s.cfg.rbBudgetShared then ds.length + polls else polls))
          aux := u.rsm.aux }
        elapsedUs := u.elapsedUs
        nfc := u.nfc
        trace := u.trace
        env := { s.env with reads := vs ++ v :: rest } } ∧
      history t = history u ++ (statusReadEvents s.cfg ++ idleSamples .interruptStatus vs ++
        [.regRead .interruptStatus v]) ++ fs ∧
      (s.inRecovery = false → ∃ c gs, fs = toggleEvents s.cfg c ++ gs) ∧ (s.inRecovery = true → fs = []) ∧
      t.port.resp = .wrote (respWord (s.cfg.failByte.setWidth 24) Code.hardwareTimeout.bits) ∧
      t.rsm.statusByte = .wrote s.cfg.failByte ∧ t.fsm = .fail ∧ t.inRecovery = s.inRecovery

/-- WAIT_READY whose transaction-done never appears (R114, R257): HardwareTimeout with FAIL_BYTE after exactly
1000 × s + B microseconds and B + 1 samples; nothing is written and STATUS is not read. -/
def Obligations.WaitReadyNeverDone : Prop :=
  ∀ (s : State) (ms : Millis) (ds : List Word) (d : Word) (rest : List Word), s.cfg.wf = true →
    s.env.reads = ds ++ d :: rest → ds.length = max 1 ms.toNat * s.cfg.retriesPerMs →
    (∀ x ∈ ds, x &&& s.cfg.intDone = 0) → d &&& s.cfg.intDone = 0 →
    ∃ t, exec (.waitReady ms) s = .next t ∧
      history t = history s ++ (sleepEvents ms ++ idleSamples .interruptStatus ds ++ [.regRead .interruptStatus d]) ∧
      t.elapsedUs = s.elapsedUs + (1000 * ms.toNat + max 1 ms.toNat * s.cfg.retriesPerMs) ∧ t.fsm = .fail ∧
      t.rsm.retry = 0 ∧ t.port.resp = .wrote (respWord (s.cfg.failByte.setWidth 24) Code.hardwareTimeout.bits)

/-- WAIT_READY whose device never shows ready on the line (R114): HardwareTimeout with FAIL_BYTE and no status read. The
second phase has a budget of its own, or what the first left where RB_BUDGET_SHARED. -/
def Obligations.WaitReadyNeverReady : Prop :=
  ∀ (s : State) (ms : Millis) (ds : List Word) (d : Word) (bs : List Word) (b : Word) (rest : List Word),
    s.cfg.wf = true → s.cfg.hasRb = true → s.env.reads = ds ++ d :: (bs ++ b :: rest) →
    (∀ x ∈ ds, x &&& s.cfg.intDone = 0) → d &&& s.cfg.intDone ≠ 0 →
    (∀ x ∈ bs, x &&& s.cfg.stDevReady = 0) → b &&& s.cfg.stDevReady = 0 →
    ds.length ≤ max 1 ms.toNat * s.cfg.retriesPerMs →
    (if s.cfg.rbBudgetShared then ds.length + bs.length else bs.length) = max 1 ms.toNat * s.cfg.retriesPerMs →
    ∃ t, exec (.waitReady ms) s = .next t ∧
      history t = history s ++ (sleepEvents ms ++ idleSamples .interruptStatus ds ++ [.regRead .interruptStatus d] ++
        idleSamples .status bs ++ [.regRead .status b]) ∧
      t.env.reads = rest ∧ t.fsm = .fail ∧ t.rsm.retry = 0 ∧
      t.port.resp = .wrote (respWord (s.cfg.failByte.setWidth 24) Code.hardwareTimeout.bits)

/-- CHIP_RESET (R119, R123): the writes of CHIP_RESET_SEQ in list order, then WAIT_READY with a snooze of 0; it does not
clear INTERRUPT_STATUS first. -/
def Obligations.ChipResetThenWaits : Prop :=
  ∀ s : State, ∃ t u, exec .chipReset s = .next u ∧ exec (.waitReady 0) t = .next u ∧
    history t = history s ++ sequenceEvents s.cfg.chipResetSeq ∧
    t = { s with nfc := t.nfc, trace := t.trace } ∧
    ∀ r, r ∉ s.cfg.chipResetSeq.map (·.1) → t.nfc.get r = s.nfc.get r

/-- ALL_RESET whose first two waits end (R120, R122): the toggle of `buf_clear` with every other bit of CONTROL as read,
the two waits, then CHIP_RESET's procedure with `in_recovery` set, and `in_recovery` as it was at the end. -/
def Obligations.AllResetReachesChipReset : Prop :=
  ∀ (s : State) (c : Word) (xs : List Word) (x : Word) (ys : List Word) (y : Word) (rest : List Word),
    s.cfg.wf = true → s.env.reads = c :: (xs ++ x :: (ys ++ y :: rest)) →
    (∀ v ∈ xs, v &&& s.cfg.bufClearDone.mask ≠ s.cfg.bufClearDone.expect) →
    x &&& s.cfg.bufClearDone.mask = s.cfg.bufClearDone.expect →
    (∀ v ∈ ys, v &&& s.cfg.stCtrlBusy ≠ 0) → y &&& s.cfg.stCtrlBusy = 0 →
    xs.length ≤ s.cfg.resetRetries → ys.length ≤ s.cfg.resetRetries →
    ∃ t u, exec .allReset s = .next { u with inRecovery := s.inRecovery } ∧ exec .chipReset t = .next u ∧
      t.inRecovery = true ∧ t.env.reads = rest ∧ t.cfg = s.cfg ∧
      history t = history s ++ ([.regRead .control c, .regWrite .control (c ||| s.cfg.ctlBufClear),
        .regWrite .control (c &&& ~~~s.cfg.ctlBufClear)] ++ idleSamples s.cfg.bufClearDone.reg xs ++
        [.regRead s.cfg.bufClearDone.reg x] ++ idleSamples .status ys ++ [.regRead .status y])

/-- ALL_RESET whose first or second wait exhausts its budget (R120): HardwareTimeout with FAIL_BYTE, `fsm = FAIL`, and no
reset command: CHIP_RESET's procedure is not attempted. -/
def Obligations.AllResetWaitsFail : Prop :=
  ∀ (s : State) (c : Word) (xs : List Word) (x : Word) (rest : List Word), s.cfg.wf = true →
    s.env.reads = c :: (xs ++ x :: rest) → (∀ v ∈ xs, v &&& s.cfg.bufClearDone.mask ≠ s.cfg.bufClearDone.expect) →
    (x &&& s.cfg.bufClearDone.mask ≠ s.cfg.bufClearDone.expect → xs.length = s.cfg.resetRetries →
      ∃ t, exec .allReset s = .next t ∧
        history t = history s ++ (toggleEvents s.cfg c ++ idleSamples s.cfg.bufClearDone.reg xs ++
          [.regRead s.cfg.bufClearDone.reg x]) ∧ t.fsm = .fail ∧ t.inRecovery = s.inRecovery ∧ t.rsm.aux = 0 ∧
        t.port.resp = .wrote (respWord (s.cfg.failByte.setWidth 24) Code.hardwareTimeout.bits)) ∧
    (∀ ys y rest', x &&& s.cfg.bufClearDone.mask = s.cfg.bufClearDone.expect → xs.length ≤ s.cfg.resetRetries →
      rest = ys ++ y :: rest' → (∀ v ∈ ys, v &&& s.cfg.stCtrlBusy ≠ 0) → y &&& s.cfg.stCtrlBusy ≠ 0 →
      ys.length = s.cfg.resetRetries →
      ∃ t, exec .allReset s = .next t ∧
        history t = history s ++ (toggleEvents s.cfg c ++ idleSamples s.cfg.bufClearDone.reg xs ++
          [.regRead s.cfg.bufClearDone.reg x] ++ idleSamples .status ys ++ [.regRead .status y]) ∧ t.fsm = .fail ∧
        t.inRecovery = s.inRecovery ∧ t.rsm.aux = 0 ∧
        t.port.resp = .wrote (respWord (s.cfg.failByte.setWidth 24) Code.hardwareTimeout.bits))

/-- The recovery is attempted once (R121): within one RSM operation at most one AllReset runs, whatever ENV answers. An
AllReset is seen by its read of CONTROL, which nothing else of the block reads where BUF_CLEAR_DONE does not name it; a
configuration whose BUF_CLEAR_DONE names CONTROL is bounded by RsmReadBounds alone. -/
def Obligations.RecoveryOnce : Prop :=
  ∀ (i : Instr) (s t : State), i.opUnit = .rsm → s.cfg.bufClearDone.reg ≠ .control → exec i s = .next t →
    ∃ es, t.trace = es ++ s.trace ∧ regReadCountOf .control es ≤ 1

/-- The bounds of R124 on the register reads of the RSM operations, a recovery included, whatever ENV answers. -/
def Obligations.RsmReadBounds : Prop :=
  ∀ (i : Instr) (s t : State), exec i s = .next t →
    let status := s.cfg.statusRetries + 2
    let wait := fun b : Nat => if s.cfg.hasRb then (b + 1) + (b + 1) + status else (b + 1) + (b + 1) * status
    let inner := wait s.cfg.retriesPerMs
    let recovery := 1 + (s.cfg.resetRetries + 1) * 2 + inner
    ∃ es, t.trace = es ++ s.trace ∧
      (∀ ms, i = .waitReady ms → regReadCount es ≤ wait (max 1 ms.toNat * s.cfg.retriesPerMs) + recovery) ∧
      (i = .readStatus → regReadCount es ≤ status + recovery) ∧
      (i = .chipReset → regReadCount es ≤ inner + recovery) ∧
      (i = .allReset → regReadCount es ≤ recovery)

/-! ## The ECC verification comparator -/

/-- ECC_VERIFY.READ (R142, R143, R149): ECC is read once into `ecc_latch`; the stored bytes are read in order up to the
first that differs from the register's byte of the same number, none at all where the register is 0; the code is OK
iff the register is 0 or all four agree, else EccMismatch, and the value of RESP is 0. -/
def Obligations.EccReadCompares : Prop :=
  ∀ (s : State) (buf page : Word) (stored : Nat → Byte), s.cfg.wf = true →
    (Instr.eccVerifyRead buf page).inRange s.cfg = true →
    (∀ j < 4, Memory.lookup s.bufmem (buf.toNat + s.cfg.pageSize + s.cfg.eccOobOffset + j) = some (stored j)) →
    ∃ (code : Code) (e : Word) (k : Nat) (t : State), exec (.eccVerifyRead buf page) s = .next t ∧
      t.ecv.latch = .wrote e ∧ (∀ vs v, s.env.reads = v :: vs → e = v) ∧
      history t = history s ++ .regRead .ecc e :: eccReadEvents s.cfg buf.toNat stored k ∧
      (code = .ok ↔ e = 0 ∨ ∀ j < 4, stored j = wordByte e j) ∧ (code = .ok ∨ code = .eccMismatch) ∧
      (e = 0 → k = 0) ∧ (e ≠ 0 → code = .ok → k = 4) ∧
      (code = .eccMismatch → 0 < k ∧ k ≤ 4 ∧ stored (k - 1) ≠ wordByte e (k - 1)) ∧
      (∀ j, j + 1 < k → stored j = wordByte e j) ∧ t.err = code.bits ∧
      t.port = { s.port with resp := .wrote (respWord 0 code.bits) } ∧ t.busy = false

/-- A zero ECC register needs no correction (R144 a): OK before any buffer read, even where the stored bytes hold no
value. -/
def Obligations.EccReadZeroRegister : Prop :=
  ∀ (s : State) (buf page : Word) (vs : List Word), s.env.reads = 0 :: vs →
    exec (.eccVerifyRead buf page) s = .next { s with
      ecv := { s.ecv with latch := .wrote 0 }
      nfc := { s.nfc with ecc := 0 }
      trace := .regRead .ecc 0 :: s.trace
      env := { s.env with reads := vs }
      err := 0, busy := false, port := { s.port with resp := .wrote 0x00000000#32 } }

/-- A comparison that reaches a stored byte that holds no value is a fault (R56, R44): here byte `j`, the bytes before
it agreeing with the register. -/
def Obligations.EccReadUnheldByteFaults : Prop :=
  ∀ (s : State) (buf page e : Word) (vs : List Word) (j : Nat), s.cfg.wf = true →
    (Instr.eccVerifyRead buf page).inRange s.cfg = true → s.env.reads = e :: vs → e ≠ 0 → j < 4 →
    (∀ k < j, Memory.lookup s.bufmem (eccAddr s.cfg buf.toNat k) = some (wordByte e k)) →
    Memory.lookup s.bufmem (eccAddr s.cfg buf.toNat j) = none →
    exec (.eccVerifyRead buf page) s = .fault (.uninitialisedRead (.bufByte (eccAddr s.cfg buf.toNat j)))

/-- The frame of ECC_VERIFY.READ (R143, R149): beside `ecc_latch`, `err`, RESP and `busy` nothing of the block changes,
`fsm` and `status_byte` among it; BUFMEM is only read; of the NFC registers only ECC is read and none is written. -/
def Obligations.EccReadChangesNothingElse : Prop :=
  ∀ (buf page : Word) (s t : State), exec (.eccVerifyRead buf page) s = .next t →
    t = { s with
      port := { s.port with resp := t.port.resp }
      busy := false
      err := t.err
      ecv := { s.ecv with latch := t.ecv.latch }
      nfc := { s.nfc with ecc := t.nfc.ecc }
      trace := t.trace
      env := { s.env with reads := t.env.reads, drawn := t.env.drawn } } ∧
    ∃ es, t.trace = es ++ s.trace ∧ ∀ e ∈ es, isRegWrite e = false

/-- ECC_VERIFY.WRITE after a read-back that succeeds, the first one or the second (R146): `ecv_attempt` counts the
read-backs, ECC is read once, and the one comparison is made on the image the successful re-read left at RBUF_BASE. It
reads the stored bytes up to the first that differs, and none where the register is 0 (R142). -/
def Obligations.EccWriteCompares : Prop :=
  ∀ (s : State) (buf page : Word) (failed : List RereadAnswer) (a : RereadAnswer) (rest : List RereadAnswer),
    s.cfg.wf = true → s.env.rereads = failed ++ a :: rest → failed.length ≤ 1 → (∀ x ∈ failed, x.ok = false) →
    a.ok = true → a.image.length = s.cfg.pageSize + s.cfg.oobSize →
    let stored := fun j => a.image.getD (s.cfg.pageSize + s.cfg.eccOobOffset + j) 0
    let p := reducePage s.cfg page
    ∃ (code : Code) (e : Word) (k : Nat) (t : State), exec (.eccVerifyWrite buf page) s = .next t ∧
      t.ecv.attempt.toNat = failed.length + 1 ∧ t.ecv.latch = .wrote e ∧ (∀ vs v, s.env.reads = v :: vs → e = v) ∧
      history t = history s ++ (failed.map fun _ => .reread p false) ++ .reread p true :: .regRead .ecc e ::
        eccReadEvents s.cfg s.cfg.rbufBase stored k ∧
      (code = .ok ↔ e = 0 ∨ ∀ j < 4, stored j = wordByte e j) ∧ (code = .ok ∨ code = .eccMismatch) ∧
      (e = 0 → k = 0) ∧ (e ≠ 0 → code = .ok → k = 4) ∧
      (code = .eccMismatch → 0 < k ∧ k ≤ 4 ∧ stored (k - 1) ≠ wordByte e (k - 1)) ∧
      (∀ j, j + 1 < k → stored j = wordByte e j) ∧
      t.env.rereads = rest ∧ t.err = code.bits ∧ t.port = { s.port with resp := .wrote (respWord 0 code.bits) } ∧
      t.busy = false

/-- ECC_VERIFY.WRITE whose two read-backs fail (R146): EccMismatch after exactly two re-reads; the ECC register is not
read and `ecc_latch` keeps its value. -/
def Obligations.EccWriteReadBackFails : Prop :=
  ∀ (s : State) (buf page : Word) (a b : RereadAnswer) (rest : List RereadAnswer), s.cfg.wf = true →
    s.env.rereads = a :: b :: rest → a.ok = false → b.ok = false →
    ∃ t, exec (.eccVerifyWrite buf page) s = .next t ∧ t.ecv = { latch := s.ecv.latch, attempt := 2 } ∧
      history t = history s ++ [.reread (reducePage s.cfg page) false, .reread (reducePage s.cfg page) false] ∧
      t.err = Code.eccMismatch.bits ∧ t.port.resp = .wrote (respWord 0 Code.eccMismatch.bits)

/-- The frame of ECC_VERIFY.WRITE (R69, R146, R149): the collaborator may leave any values in the NFC registers and in
the elements of the DTE and the RSM, and writes the read-back image; every other byte of BUFMEM, `in_recovery`, the
operand words and latches and the BBD are as they were. That `elapsed_us` may grow by the collaborator's own delays is
the model's choice (notes/assumptions/7.md). -/
def Obligations.EccWriteChangesNothingElse : Prop :=
  ∀ (buf page : Word) (s t : State), exec (.eccVerifyWrite buf page) s = .next t →
    t = { s with
      port := { s.port with resp := .wrote (respWord 0 t.err) }
      busy := false
      err := t.err
      ecv := t.ecv
      fsm := t.fsm
      rsm := t.rsm
      dte := t.dte
      nfc := t.nfc
      elapsedUs := t.elapsedUs
      bufmem := t.bufmem
      trace := t.trace
      env := { t.env with oobs := s.env.oobs } } ∧
    (∀ a, (a < s.cfg.rbufBase ∨ s.cfg.rbufBase + (s.cfg.pageSize + s.cfg.oobSize) ≤ a) →
      Memory.lookup t.bufmem a = Memory.lookup s.bufmem a)

/-- The page of ECC_VERIFY.WRITE is reduced to the chip before use (R145): with PAGE_WRAP the re-read is of
`page mod NUM_PAGES`, which the mask of NUM_PAGES - 1 gives; without it the page is used as it is, and one at or above
NUM_PAGES was refused at decode. -/
def Obligations.PageReduced : Prop :=
  ∀ (buf page : Word) (s : State), s.cfg.wf = true →
    (∀ t, exec (.eccVerifyWrite buf page) s = .next t →
      ∃ ok fs, history t = history s ++ .reread (reducePage s.cfg page) ok :: fs) ∧
    (s.cfg.pageWrap = true → reducePage s.cfg page = page.toNat &&& (s.cfg.chipSize / s.cfg.pageSize - 1) ∧
      reducePage s.cfg page = page.toNat % (s.cfg.chipSize / s.cfg.pageSize)) ∧
    (s.cfg.pageWrap = false → reducePage s.cfg page = page.toNat) ∧
    (s.cfg.pageWrap = false → s.cfg.chipSize / s.cfg.pageSize ≤ page.toNat →
      decodeRequest s.cfg (encode (.eccVerifyWrite buf page)) = .error .outOfRange)

/-! ## The bad-block marker detector -/

/-- BB_DETECT (R157, R161): `bb_tag` takes the tag, `bb_bad` says whether it differs from 0xFF, RESP is 0x00000100 for
bad and 0x00000000 for good, the code is OK, and nothing else changes. -/
def Obligations.BbDetectVerdict : Prop :=
  ∀ (tag : Byte) (s : State),
    exec (.bbDetect tag) s = .next { s with
      bbd := { tag := .wrote tag, bad := .wrote (decide (tag ≠ 0xFF#8)) }
      err := 0
      busy := false
      port := { s.port with resp := .wrote (if tag = 0xFF#8 then 0x00000000#32 else 0x00000100#32) } }

/-- BB_PROBE (R159, R161): one OOB read of the tag byte of the first page of the block that holds the offset, reduced to
the chip; a byte read decides the verdict, a failed read is bad with the read's code and leaves `bb_tag`. The
collaborator may leave any values in the NFC registers, the elements of the DTE and the RSM and the read-back region
(R69, R251). Nothing else changes but the history, the model's answers and `elapsed_us`, which may grow by the
collaborator's own delays, the model's choice (notes/assumptions/7.md). That every byte of BUFMEM outside the read-back
region is as it was is the model's reading of R251 (notes/assumptions/22.md). -/
def Obligations.BbProbeVerdict : Prop :=
  ∀ (off : Word) (s : State), s.cfg.wf = true →
    let a := if s.cfg.pageWrap then off.toNat % s.cfg.chipSize else off.toNat
    let p := a / s.cfg.blockSize * s.cfg.pagesPerBlock
    ∃ (res : OobResult) (t : State), exec (.bbProbe off) s = .next t ∧
      (∀ x xs, s.env.oobs = x :: xs → res = x.res) ∧
      t = { s with
        bbd := t.bbd
        err := t.err
        busy := false
        port := { s.port with resp := t.port.resp }
        fsm := t.fsm
        rsm := t.rsm
        dte := t.dte
        nfc := t.nfc
        elapsedUs := t.elapsedUs
        bufmem := t.bufmem
        trace := .readOob p s.cfg.bbOobOffset 1 res :: s.trace
        env := { t.env with reads := s.env.reads, rereads := s.env.rereads } } ∧
      (∀ x, (x < s.cfg.rbufBase ∨ s.cfg.rbufBase + (s.cfg.pageSize + s.cfg.oobSize) ≤ x) →
        Memory.lookup t.bufmem x = Memory.lookup s.bufmem x) ∧
      (∀ x xs, s.env.oobs = x :: xs → ∀ j < s.cfg.pageSize + s.cfg.oobSize,
        Memory.lookup t.bufmem (s.cfg.rbufBase + j) =
          ((x.staged[j]?).join).or (Memory.lookup s.bufmem (s.cfg.rbufBase + j))) ∧
      (∀ b, res = .byte b → t.bbd = { tag := .wrote b, bad := .wrote (decide (b ≠ 0xFF#8)) } ∧ t.err = 0 ∧
        t.port.resp = .wrote (if b = 0xFF#8 then 0x00000000#32 else 0x00000100#32)) ∧
      (res = .failed .transferShort → t.bbd = { tag := s.bbd.tag, bad := .wrote true } ∧ t.err = 3 ∧
        t.port.resp = .wrote 0x00000103#32) ∧
      (res = .failed .deviceFail → t.bbd = { tag := s.bbd.tag, bad := .wrote true } ∧ t.err = 2 ∧
        t.port.resp = .wrote 0x00000102#32)
end

