-- ==== Sys2Proof/Laws/Decode.lean ====
section
/-! SUPPORT. The fields of a request word: what each field of an encoded word is (R76), and each field as a number. -/

namespace Sys2Proof

/-- The bits of a request word by field (R76). -/
theorem opreqWord_getLsbD (imm : Len) (mode opc : BitVec 4) (i : Nat) : (opreqWord imm mode opc).getLsbD i =
    if i < 4 then opc.getLsbD i else if i < 8 then mode.getLsbD (i - 4) else imm.getLsbD (i - 8) := by
  unfold opreqWord
  rw [BitVec.getLsbD_append, BitVec.getLsbD_append]
  by_cases h4 : i < 4
  · simp [h4, show i < 8 by omega]
  · by_cases h8 : i < 8
    · simp [h4, h8]
    · simp [h4, h8]

@[simp] theorem opcField_opreqWord (imm : Len) (mode opc : BitVec 4) : opcField (opreqWord imm mode opc) = opc := by
  apply BitVec.eq_of_getLsbD_eq
  intro i hi
  simp [opcField, opreqWord_getLsbD, hi]

@[simp] theorem modeField_opreqWord (imm : Len) (mode opc : BitVec 4) : modeField (opreqWord imm mode opc) = mode := by
  apply BitVec.eq_of_getLsbD_eq
  intro i hi
  simp [modeField, opreqWord_getLsbD, hi, show 4 + i < 8 by omega]

@[simp] theorem imm24Field_opreqWord (imm : Len) (mode opc : BitVec 4) : imm24Field (opreqWord imm mode opc) = imm := by
  apply BitVec.eq_of_getLsbD_eq
  intro i hi
  simp [imm24Field, opreqWord_getLsbD, hi, show ¬ 8 + i < 4 by omega]

@[simp] theorem imm24High_opreqWord (ms : Millis) (mode opc : BitVec 4) :
    imm24High (opreqWord ((0#8) ++ ms) mode opc) = 0 := by
  apply BitVec.eq_of_getLsbD_eq
  intro i hi
  have h : ((0#8) ++ ms).getLsbD (24 + i - 8) = false := by
    rw [BitVec.getLsbD_append]; simp [show ¬ 24 + i - 8 < 16 by omega]
  simp only [imm24High, BitVec.getLsbD_extractLsb', opreqWord_getLsbD, h]
  simp [show ¬ 24 + i < 8 by omega, show ¬ 24 + i < 4 by omega]

@[simp] theorem snoozeField_opreqWord (ms : Millis) (mode opc : BitVec 4) :
    snoozeField (opreqWord ((0#8) ++ ms) mode opc) = ms := by
  apply BitVec.eq_of_getLsbD_eq
  intro i hi
  have h : ((0#8) ++ ms).getLsbD (8 + i - 8) = ms.getLsbD i := by
    rw [BitVec.getLsbD_append]; simp [show 8 + i - 8 = i by omega, hi]
  simp only [snoozeField, BitVec.getLsbD_extractLsb', opreqWord_getLsbD, h]
  simp [hi, show ¬ 8 + i < 8 by omega, show ¬ 8 + i < 4 by omega]

/-- A request word is made of its three fields (R76). -/
theorem opreqWord_fields (w : Word) : opreqWord (imm24Field w) (modeField w) (opcField w) = w := by
  apply BitVec.eq_of_getLsbD_eq
  intro i hi
  rw [opreqWord_getLsbD]
  simp only [opcField, modeField, imm24Field, BitVec.getLsbD_extractLsb']
  by_cases h4 : i < 4
  · simp [h4]
  · by_cases h8 : i < 8
    · simp [h4, h8, show i - 4 < 4 by omega, show 4 + (i - 4) = i by omega]
    · simp [h4, h8, show i - 8 < 24 by omega, show 8 + (i - 8) = i by omega]

/-- The snooze and the byte above it make up `imm24` (R77, R82). -/
theorem snooze_imm24 {w : Word} (h : imm24High w = 0) : (0#8) ++ snoozeField w = imm24Field w := by
  apply BitVec.eq_of_getLsbD_eq
  intro i hi
  rw [BitVec.getLsbD_append]
  by_cases h16 : i < 16
  · simp [snoozeField, imm24Field, h16, hi]
  · have := congrArg (BitVec.getLsbD · (i - 16)) h
    simp [imm24High, show i - 16 < 8 by omega, show 24 + (i - 16) = 8 + i by omega] at this
    simp [h16, imm24Field, hi, this]

/-- The bits of an operand word that holds a tag (R77, R82). -/
theorem tagWord_getLsbD (tag : Byte) (i : Nat) :
    ((0#24) ++ tag : Word).getLsbD i = if i < 8 then tag.getLsbD i else false := by
  rw [show ((0#24) ++ tag : Word) = ((0#24) ++ tag : BitVec (24 + 8)) from rfl, BitVec.getLsbD_append]
  by_cases h : i < 8 <;> simp [h]

@[simp] theorem tagWord_low (tag : Byte) : ((0#24) ++ tag : Word).extractLsb' 0 8 = tag := by
  apply BitVec.eq_of_getLsbD_eq
  intro i hi
  rw [BitVec.getLsbD_extractLsb', tagWord_getLsbD]
  simp [hi]

@[simp] theorem tagWord_high (tag : Byte) : ((0#24) ++ tag : Word).extractLsb' 8 24 = 0 := by
  apply BitVec.eq_of_getLsbD_eq
  intro i hi
  rw [BitVec.getLsbD_extractLsb', tagWord_getLsbD]
  simp

theorem tagWord_back {a : Word} (h : a.extractLsb' 8 24 = 0) : ((0#24) ++ a.extractLsb' 0 8 : Word) = a := by
  apply BitVec.eq_of_getLsbD_eq
  intro i hi
  rw [tagWord_getLsbD]
  by_cases h8 : i < 8
  · simp [h8]
  · have := congrArg (BitVec.getLsbD · (i - 8)) h
    simp [show i - 8 < 24 by omega, show 8 + (i - 8) = i by omega] at this
    simp [h8, this]

/-! ## The fields as numbers -/

theorem opcField_toNat (w : Word) : (opcField w).toNat = w.toNat % 16 := by
  simp [opcField, BitVec.extractLsb'_toNat]

theorem modeField_toNat (w : Word) : (modeField w).toNat = w.toNat / 16 % 16 := by
  simp [modeField, BitVec.extractLsb'_toNat, Nat.shiftRight_eq_div_pow]

theorem imm24Field_toNat (w : Word) : (imm24Field w).toNat = w.toNat / 256 := by
  have := w.isLt
  simp [imm24Field, BitVec.extractLsb'_toNat, Nat.shiftRight_eq_div_pow]
  omega

theorem imm24High_toNat (w : Word) : (imm24High w).toNat = w.toNat / 2 ^ 24 := by
  have := w.isLt
  simp [imm24High, BitVec.extractLsb'_toNat, Nat.shiftRight_eq_div_pow]
  omega

theorem snoozeField_toNat (w : Word) : (snoozeField w).toNat = w.toNat / 2 ^ 8 % 2 ^ 16 := by
  simp [snoozeField, BitVec.extractLsb'_toNat, Nat.shiftRight_eq_div_pow]

theorem imm24Field_eq_zero (w : Word) : imm24Field w = 0 ↔ w.toNat / 256 = 0 := by
  rw [← imm24Field_toNat, BitVec.toNat_eq]; rfl

theorem imm24High_eq_zero (w : Word) : imm24High w = 0 ↔ w.toNat / 2 ^ 24 = 0 := by
  rw [← imm24High_toNat, BitVec.toNat_eq]; rfl

/-- The must-be-zero bits of an operand word that holds a tag (R82). -/
theorem tagHigh_eq_zero (w : Word) : w.extractLsb' 8 24 = 0 ↔ w.toNat / 256 = 0 := imm24Field_eq_zero w

end Sys2Proof
end

