-- ==== Sys2Proof/Laws/Memory.lean ====
section
/-! SUPPORT. The laws of BUFMEM: the canonical form is kept, a byte reads as it was last written, and every other
byte reads as before. -/

namespace Sys2Proof.Machine.Memory

theorem sortedAbove_mono {a b : Nat} (h : a ≤ b) {m : List Host.Cell} (hm : sortedAbove b m = true) :
    sortedAbove a m = true := by
  cases m with
  | nil => rfl
  | cons c cs =>
    simp only [sortedAbove, Bool.and_eq_true, decide_eq_true_eq] at hm ⊢
    exact ⟨by omega, hm.2⟩

theorem wf_of_sortedAbove {a : Nat} {m : List Host.Cell} (h : sortedAbove a m = true) : wf m = true := by
  cases m with
  | nil => rfl
  | cons c cs =>
    simp only [sortedAbove, Bool.and_eq_true] at h
    exact h.2

theorem sortedAbove_store {m : List Host.Cell} {a x : Nat} {b : Byte} (hx : x < a) (hm : sortedAbove x m = true) :
    sortedAbove x (store m a b) = true := by
  induction m generalizing x with
  | nil => simpa [store, sortedAbove] using hx
  | cons c cs ih =>
    simp only [sortedAbove, Bool.and_eq_true, decide_eq_true_eq] at hm
    unfold store
    split
    · simp [sortedAbove, *]
    · split
      · next h => subst h; simp [sortedAbove, hx, hm.2]
      · simp [sortedAbove, hm.1, ih (show c.1 < a by omega) hm.2]

/-- A store keeps the canonical form. -/
theorem wf_store {m : List Host.Cell} (a : Nat) (b : Byte) (hm : wf m = true) : wf (store m a b) = true := by
  cases m with
  | nil => rfl
  | cons c cs =>
    simp only [wf] at hm
    unfold store
    split
    · simp [wf, sortedAbove, *]
    · split
      · next h => subst h; simpa [wf] using hm
      · simpa [wf] using sortedAbove_store (show c.1 < a by omega) hm

/-- A byte reads as it was stored. -/
@[simp] theorem lookup_store_same (m : List Host.Cell) (a : Nat) (b : Byte) : lookup (store m a b) a = some b := by
  induction m with
  | nil => simp [store, lookup]
  | cons c cs ih =>
    unfold store
    split
    · simp [lookup]
    · split
      · simp [lookup]
      · next h => simp [lookup, ih, Ne.symm h]

/-- Every other byte reads as before. -/
@[simp] theorem lookup_store_other {m : List Host.Cell} {a a' : Nat} (b : Byte) (h : a' ≠ a) :
    lookup (store m a b) a' = lookup m a' := by
  induction m with
  | nil => simp [store, lookup, Ne.symm h]
  | cons c cs ih =>
    unfold store
    split
    · simp [lookup, Ne.symm h]
    · split
      · next he => subst he; simp [lookup, Ne.symm h]
      · simp [lookup, ih]

theorem lookup_store (m : List Host.Cell) (a a' : Nat) (b : Byte) :
    lookup (store m a b) a' = if a' = a then some b else lookup m a' := by
  split
  · next h => subst h; simp
  · next h => simp [h]

/-- A run of stores keeps the canonical form. -/
theorem wf_storeAll {m : List Host.Cell} (a : Nat) (bs : List Byte) (hm : wf m = true) :
    wf (storeAll m a bs) = true := by
  induction bs generalizing m a with
  | nil => exact hm
  | cons b bs ih => exact ih _ (wf_store a b hm)

theorem lookup_storeAll_outside {m : List Host.Cell} {a x : Nat} {bs : List Byte}
    (h : x < a ∨ a + bs.length ≤ x) : lookup (storeAll m a bs) x = lookup m x := by
  induction bs generalizing m a with
  | nil => rfl
  | cons b bs ih =>
    simp only [List.length_cons] at h
    rw [storeAll, ih (by omega), lookup_store_other _ (by omega)]

theorem lookup_storeAll_inside {m : List Host.Cell} {a i : Nat} {bs : List Byte} (h : i < bs.length) :
    lookup (storeAll m a bs) (a + i) = some bs[i] := by
  induction bs generalizing m a i with
  | nil => simp at h
  | cons b bs ih =>
    rw [storeAll]
    cases i with
    | zero => rw [lookup_storeAll_outside (by omega)]; simp
    | succ i =>
      have := ih (m := store m a b) (a := a + 1) (i := i) (by simpa using h)
      simpa [Nat.add_assoc, Nat.add_comm, Nat.add_left_comm] using this

/-- Every listed address is below `n`. -/
def below (n : Nat) (m : List Host.Cell) : Prop := ∀ c ∈ m, c.1 < n

theorem below_store {n : Nat} {m : List Host.Cell} {a : Nat} {b : Byte} (ha : a < n) (hm : below n m) :
    below n (store m a b) := by
  induction m with
  | nil => simpa [store, below] using ha
  | cons c cs ih =>
    simp only [below, List.mem_cons, forall_eq_or_imp] at hm
    unfold store
    split
    · simp only [below, List.mem_cons, forall_eq_or_imp]; exact ⟨ha, hm.1, hm.2⟩
    · split
      · simp only [below, List.mem_cons, forall_eq_or_imp]; exact ⟨ha, hm.2⟩
      · simp only [below, List.mem_cons, forall_eq_or_imp]; exact ⟨hm.1, ih hm.2⟩

theorem below_storeAll {n : Nat} {m : List Host.Cell} {a : Nat} {bs : List Byte} (ha : a + bs.length ≤ n)
    (hm : below n m) : below n (storeAll m a bs) := by
  induction bs generalizing m a with
  | nil => exact hm
  | cons b bs ih =>
    simp only [List.length_cons] at ha
    exact ih (by omega) (below_store (by omega) hm)

/-- An overlay keeps the canonical form. -/
theorem wf_overlay {m : List Host.Cell} (a : Nat) (bs : List (Option Byte)) (hm : wf m = true) :
    wf (overlay m a bs) = true := by
  induction bs generalizing m a with
  | nil => exact hm
  | cons b bs ih =>
    cases b with
    | none => exact ih _ hm
    | some b => exact ih _ (wf_store a b hm)

theorem lookup_overlay_outside {m : List Host.Cell} {a x : Nat} {bs : List (Option Byte)}
    (h : x < a ∨ a + bs.length ≤ x) : lookup (overlay m a bs) x = lookup m x := by
  induction bs generalizing m a with
  | nil => rfl
  | cons b bs ih =>
    simp only [List.length_cons] at h
    cases b with
    | none => exact ih (by omega)
    | some b => rw [overlay, ih (by omega), lookup_store_other _ (by omega)]

/-- A byte of an overlay reads as its entry says, and as before where it has none. -/
theorem lookup_overlay (m : List Host.Cell) (a i : Nat) (bs : List (Option Byte)) :
    lookup (overlay m a bs) (a + i) = (bs[i]?.join).or (lookup m (a + i)) := by
  induction bs generalizing m a i with
  | nil => rfl
  | cons b bs ih =>
    cases i with
    | zero => cases b <;> rw [overlay, lookup_overlay_outside (by omega)] <;> simp
    | succ i =>
      rw [show a + (i + 1) = a + 1 + i by omega]
      cases b with
      | none => exact ih m (a + 1) i
      | some b => rw [overlay, ih, lookup_store_other _ (by omega)]; rfl

theorem below_overlay {n : Nat} {m : List Host.Cell} {a : Nat} {bs : List (Option Byte)}
    (ha : bs ≠ [] → a + bs.length ≤ n) (hm : below n m) : below n (overlay m a bs) := by
  induction bs generalizing m a with
  | nil => exact hm
  | cons b bs ih =>
    have ha := ha (by simp)
    simp only [List.length_cons] at ha
    cases b with
    | none => exact ih (fun _ => by omega) hm
    | some b => exact ih (fun _ => by omega) (below_store (by omega) hm)

end Sys2Proof.Machine.Memory
end

