-- ==== Sys2Proof/Laws/State.lean ====
section
/-! SUPPORT. One lemma per field per update of State, each true by rfl, so that no proof unfolds a record update. -/

namespace Sys2Proof.Machine

/-! `emit` -/

@[simp] theorem emit_cfg (e : Event) (s : State) : (emit e s).cfg = s.cfg := rfl
@[simp] theorem emit_port (e : Event) (s : State) : (emit e s).port = s.port := rfl
@[simp] theorem emit_busy (e : Event) (s : State) : (emit e s).busy = s.busy := rfl
@[simp] theorem emit_inRecovery (e : Event) (s : State) : (emit e s).inRecovery = s.inRecovery := rfl
@[simp] theorem emit_err (e : Event) (s : State) : (emit e s).err = s.err := rfl
@[simp] theorem emit_fsm (e : Event) (s : State) : (emit e s).fsm = s.fsm := rfl
@[simp] theorem emit_rsm (e : Event) (s : State) : (emit e s).rsm = s.rsm := rfl
@[simp] theorem emit_dte (e : Event) (s : State) : (emit e s).dte = s.dte := rfl
@[simp] theorem emit_ecv (e : Event) (s : State) : (emit e s).ecv = s.ecv := rfl
@[simp] theorem emit_bbd (e : Event) (s : State) : (emit e s).bbd = s.bbd := rfl
@[simp] theorem emit_elapsedUs (e : Event) (s : State) : (emit e s).elapsedUs = s.elapsedUs := rfl
@[simp] theorem emit_bufmem (e : Event) (s : State) : (emit e s).bufmem = s.bufmem := rfl
@[simp] theorem emit_nfc (e : Event) (s : State) : (emit e s).nfc = s.nfc := rfl
@[simp] theorem emit_trace (e : Event) (s : State) : (emit e s).trace = e :: s.trace := rfl
@[simp] theorem emit_fsmPath (e : Event) (s : State) : (emit e s).fsmPath = s.fsmPath := rfl
@[simp] theorem emit_env (e : Event) (s : State) : (emit e s).env = s.env := rfl
@[simp] theorem emit_hostq (e : Event) (s : State) : (emit e s).hostq = s.hostq := rfl

/-! `setFsm` -/

@[simp] theorem setFsm_cfg (f : Fsm) (s : State) : (setFsm f s).cfg = s.cfg := rfl
@[simp] theorem setFsm_port (f : Fsm) (s : State) : (setFsm f s).port = s.port := rfl
@[simp] theorem setFsm_busy (f : Fsm) (s : State) : (setFsm f s).busy = s.busy := rfl
@[simp] theorem setFsm_inRecovery (f : Fsm) (s : State) : (setFsm f s).inRecovery = s.inRecovery := rfl
@[simp] theorem setFsm_err (f : Fsm) (s : State) : (setFsm f s).err = s.err := rfl
@[simp] theorem setFsm_fsm (f : Fsm) (s : State) : (setFsm f s).fsm = f := rfl
@[simp] theorem setFsm_rsm (f : Fsm) (s : State) : (setFsm f s).rsm = s.rsm := rfl
@[simp] theorem setFsm_dte (f : Fsm) (s : State) : (setFsm f s).dte = s.dte := rfl
@[simp] theorem setFsm_ecv (f : Fsm) (s : State) : (setFsm f s).ecv = s.ecv := rfl
@[simp] theorem setFsm_bbd (f : Fsm) (s : State) : (setFsm f s).bbd = s.bbd := rfl
@[simp] theorem setFsm_elapsedUs (f : Fsm) (s : State) : (setFsm f s).elapsedUs = s.elapsedUs := rfl
@[simp] theorem setFsm_bufmem (f : Fsm) (s : State) : (setFsm f s).bufmem = s.bufmem := rfl
@[simp] theorem setFsm_nfc (f : Fsm) (s : State) : (setFsm f s).nfc = s.nfc := rfl
@[simp] theorem setFsm_trace (f : Fsm) (s : State) : (setFsm f s).trace = s.trace := rfl
@[simp] theorem setFsm_fsmPath (f : Fsm) (s : State) : (setFsm f s).fsmPath = f :: s.fsmPath := rfl
@[simp] theorem setFsm_env (f : Fsm) (s : State) : (setFsm f s).env = s.env := rfl
@[simp] theorem setFsm_hostq (f : Fsm) (s : State) : (setFsm f s).hostq = s.hostq := rfl

/-! `setRsmBudget` -/

@[simp] theorem setRsmBudget_cfg (v : Word) (s : State) : (setRsmBudget v s).cfg = s.cfg := rfl
@[simp] theorem setRsmBudget_port (v : Word) (s : State) : (setRsmBudget v s).port = s.port := rfl
@[simp] theorem setRsmBudget_busy (v : Word) (s : State) : (setRsmBudget v s).busy = s.busy := rfl
@[simp] theorem setRsmBudget_inRecovery (v : Word) (s : State) : (setRsmBudget v s).inRecovery = s.inRecovery := rfl
@[simp] theorem setRsmBudget_err (v : Word) (s : State) : (setRsmBudget v s).err = s.err := rfl
@[simp] theorem setRsmBudget_fsm (v : Word) (s : State) : (setRsmBudget v s).fsm = s.fsm := rfl
@[simp] theorem setRsmBudget_rsm (v : Word) (s : State) : (setRsmBudget v s).rsm = { s.rsm with budget := v } := rfl
@[simp] theorem setRsmBudget_dte (v : Word) (s : State) : (setRsmBudget v s).dte = s.dte := rfl
@[simp] theorem setRsmBudget_ecv (v : Word) (s : State) : (setRsmBudget v s).ecv = s.ecv := rfl
@[simp] theorem setRsmBudget_bbd (v : Word) (s : State) : (setRsmBudget v s).bbd = s.bbd := rfl
@[simp] theorem setRsmBudget_elapsedUs (v : Word) (s : State) : (setRsmBudget v s).elapsedUs = s.elapsedUs := rfl
@[simp] theorem setRsmBudget_bufmem (v : Word) (s : State) : (setRsmBudget v s).bufmem = s.bufmem := rfl
@[simp] theorem setRsmBudget_nfc (v : Word) (s : State) : (setRsmBudget v s).nfc = s.nfc := rfl
@[simp] theorem setRsmBudget_trace (v : Word) (s : State) : (setRsmBudget v s).trace = s.trace := rfl
@[simp] theorem setRsmBudget_fsmPath (v : Word) (s : State) : (setRsmBudget v s).fsmPath = s.fsmPath := rfl
@[simp] theorem setRsmBudget_env (v : Word) (s : State) : (setRsmBudget v s).env = s.env := rfl
@[simp] theorem setRsmBudget_hostq (v : Word) (s : State) : (setRsmBudget v s).hostq = s.hostq := rfl

/-! `setRsmRetry` -/

@[simp] theorem setRsmRetry_cfg (v : Word) (s : State) : (setRsmRetry v s).cfg = s.cfg := rfl
@[simp] theorem setRsmRetry_port (v : Word) (s : State) : (setRsmRetry v s).port = s.port := rfl
@[simp] theorem setRsmRetry_busy (v : Word) (s : State) : (setRsmRetry v s).busy = s.busy := rfl
@[simp] theorem setRsmRetry_inRecovery (v : Word) (s : State) : (setRsmRetry v s).inRecovery = s.inRecovery := rfl
@[simp] theorem setRsmRetry_err (v : Word) (s : State) : (setRsmRetry v s).err = s.err := rfl
@[simp] theorem setRsmRetry_fsm (v : Word) (s : State) : (setRsmRetry v s).fsm = s.fsm := rfl
@[simp] theorem setRsmRetry_rsm (v : Word) (s : State) : (setRsmRetry v s).rsm = { s.rsm with retry := v } := rfl
@[simp] theorem setRsmRetry_dte (v : Word) (s : State) : (setRsmRetry v s).dte = s.dte := rfl
@[simp] theorem setRsmRetry_ecv (v : Word) (s : State) : (setRsmRetry v s).ecv = s.ecv := rfl
@[simp] theorem setRsmRetry_bbd (v : Word) (s : State) : (setRsmRetry v s).bbd = s.bbd := rfl
@[simp] theorem setRsmRetry_elapsedUs (v : Word) (s : State) : (setRsmRetry v s).elapsedUs = s.elapsedUs := rfl
@[simp] theorem setRsmRetry_bufmem (v : Word) (s : State) : (setRsmRetry v s).bufmem = s.bufmem := rfl
@[simp] theorem setRsmRetry_nfc (v : Word) (s : State) : (setRsmRetry v s).nfc = s.nfc := rfl
@[simp] theorem setRsmRetry_trace (v : Word) (s : State) : (setRsmRetry v s).trace = s.trace := rfl
@[simp] theorem setRsmRetry_fsmPath (v : Word) (s : State) : (setRsmRetry v s).fsmPath = s.fsmPath := rfl
@[simp] theorem setRsmRetry_env (v : Word) (s : State) : (setRsmRetry v s).env = s.env := rfl
@[simp] theorem setRsmRetry_hostq (v : Word) (s : State) : (setRsmRetry v s).hostq = s.hostq := rfl

/-! `setAuxRetry` -/

@[simp] theorem setAuxRetry_cfg (v : Word) (s : State) : (setAuxRetry v s).cfg = s.cfg := rfl
@[simp] theorem setAuxRetry_port (v : Word) (s : State) : (setAuxRetry v s).port = s.port := rfl
@[simp] theorem setAuxRetry_busy (v : Word) (s : State) : (setAuxRetry v s).busy = s.busy := rfl
@[simp] theorem setAuxRetry_inRecovery (v : Word) (s : State) : (setAuxRetry v s).inRecovery = s.inRecovery := rfl
@[simp] theorem setAuxRetry_err (v : Word) (s : State) : (setAuxRetry v s).err = s.err := rfl
@[simp] theorem setAuxRetry_fsm (v : Word) (s : State) : (setAuxRetry v s).fsm = s.fsm := rfl
@[simp] theorem setAuxRetry_rsm (v : Word) (s : State) : (setAuxRetry v s).rsm = { s.rsm with aux := v } := rfl
@[simp] theorem setAuxRetry_dte (v : Word) (s : State) : (setAuxRetry v s).dte = s.dte := rfl
@[simp] theorem setAuxRetry_ecv (v : Word) (s : State) : (setAuxRetry v s).ecv = s.ecv := rfl
@[simp] theorem setAuxRetry_bbd (v : Word) (s : State) : (setAuxRetry v s).bbd = s.bbd := rfl
@[simp] theorem setAuxRetry_elapsedUs (v : Word) (s : State) : (setAuxRetry v s).elapsedUs = s.elapsedUs := rfl
@[simp] theorem setAuxRetry_bufmem (v : Word) (s : State) : (setAuxRetry v s).bufmem = s.bufmem := rfl
@[simp] theorem setAuxRetry_nfc (v : Word) (s : State) : (setAuxRetry v s).nfc = s.nfc := rfl
@[simp] theorem setAuxRetry_trace (v : Word) (s : State) : (setAuxRetry v s).trace = s.trace := rfl
@[simp] theorem setAuxRetry_fsmPath (v : Word) (s : State) : (setAuxRetry v s).fsmPath = s.fsmPath := rfl
@[simp] theorem setAuxRetry_env (v : Word) (s : State) : (setAuxRetry v s).env = s.env := rfl
@[simp] theorem setAuxRetry_hostq (v : Word) (s : State) : (setAuxRetry v s).hostq = s.hostq := rfl

/-! `setStatusByte` -/

@[simp] theorem setStatusByte_cfg (sb : Byte) (s : State) : (setStatusByte sb s).cfg = s.cfg := rfl
@[simp] theorem setStatusByte_port (sb : Byte) (s : State) : (setStatusByte sb s).port = s.port := rfl
@[simp] theorem setStatusByte_busy (sb : Byte) (s : State) : (setStatusByte sb s).busy = s.busy := rfl
@[simp] theorem setStatusByte_inRecovery (sb : Byte) (s : State) :
    (setStatusByte sb s).inRecovery = s.inRecovery := rfl
@[simp] theorem setStatusByte_err (sb : Byte) (s : State) : (setStatusByte sb s).err = s.err := rfl
@[simp] theorem setStatusByte_fsm (sb : Byte) (s : State) : (setStatusByte sb s).fsm = s.fsm := rfl
@[simp] theorem setStatusByte_rsm (sb : Byte) (s : State) :
    (setStatusByte sb s).rsm = { s.rsm with statusByte := .wrote sb } := rfl
@[simp] theorem setStatusByte_dte (sb : Byte) (s : State) : (setStatusByte sb s).dte = s.dte := rfl
@[simp] theorem setStatusByte_ecv (sb : Byte) (s : State) : (setStatusByte sb s).ecv = s.ecv := rfl
@[simp] theorem setStatusByte_bbd (sb : Byte) (s : State) : (setStatusByte sb s).bbd = s.bbd := rfl
@[simp] theorem setStatusByte_elapsedUs (sb : Byte) (s : State) :
    (setStatusByte sb s).elapsedUs = s.elapsedUs := rfl
@[simp] theorem setStatusByte_bufmem (sb : Byte) (s : State) : (setStatusByte sb s).bufmem = s.bufmem := rfl
@[simp] theorem setStatusByte_nfc (sb : Byte) (s : State) : (setStatusByte sb s).nfc = s.nfc := rfl
@[simp] theorem setStatusByte_trace (sb : Byte) (s : State) : (setStatusByte sb s).trace = s.trace := rfl
@[simp] theorem setStatusByte_fsmPath (sb : Byte) (s : State) : (setStatusByte sb s).fsmPath = s.fsmPath := rfl
@[simp] theorem setStatusByte_env (sb : Byte) (s : State) : (setStatusByte sb s).env = s.env := rfl
@[simp] theorem setStatusByte_hostq (sb : Byte) (s : State) : (setStatusByte sb s).hostq = s.hostq := rfl

/-! `setDteRetry` -/

@[simp] theorem setDteRetry_cfg (v : Word) (s : State) : (setDteRetry v s).cfg = s.cfg := rfl
@[simp] theorem setDteRetry_port (v : Word) (s : State) : (setDteRetry v s).port = s.port := rfl
@[simp] theorem setDteRetry_busy (v : Word) (s : State) : (setDteRetry v s).busy = s.busy := rfl
@[simp] theorem setDteRetry_inRecovery (v : Word) (s : State) : (setDteRetry v s).inRecovery = s.inRecovery := rfl
@[simp] theorem setDteRetry_err (v : Word) (s : State) : (setDteRetry v s).err = s.err := rfl
@[simp] theorem setDteRetry_fsm (v : Word) (s : State) : (setDteRetry v s).fsm = s.fsm := rfl
@[simp] theorem setDteRetry_rsm (v : Word) (s : State) : (setDteRetry v s).rsm = s.rsm := rfl
@[simp] theorem setDteRetry_dte (v : Word) (s : State) : (setDteRetry v s).dte = { s.dte with retry := v } := rfl
@[simp] theorem setDteRetry_ecv (v : Word) (s : State) : (setDteRetry v s).ecv = s.ecv := rfl
@[simp] theorem setDteRetry_bbd (v : Word) (s : State) : (setDteRetry v s).bbd = s.bbd := rfl
@[simp] theorem setDteRetry_elapsedUs (v : Word) (s : State) : (setDteRetry v s).elapsedUs = s.elapsedUs := rfl
@[simp] theorem setDteRetry_bufmem (v : Word) (s : State) : (setDteRetry v s).bufmem = s.bufmem := rfl
@[simp] theorem setDteRetry_nfc (v : Word) (s : State) : (setDteRetry v s).nfc = s.nfc := rfl
@[simp] theorem setDteRetry_trace (v : Word) (s : State) : (setDteRetry v s).trace = s.trace := rfl
@[simp] theorem setDteRetry_fsmPath (v : Word) (s : State) : (setDteRetry v s).fsmPath = s.fsmPath := rfl
@[simp] theorem setDteRetry_env (v : Word) (s : State) : (setDteRetry v s).env = s.env := rfl
@[simp] theorem setDteRetry_hostq (v : Word) (s : State) : (setDteRetry v s).hostq = s.hostq := rfl

/-! `advanceDte` -/

@[simp] theorem advanceDte_cfg (k : Nat) (s : State) : (advanceDte k s).cfg = s.cfg := rfl
@[simp] theorem advanceDte_port (k : Nat) (s : State) : (advanceDte k s).port = s.port := rfl
@[simp] theorem advanceDte_busy (k : Nat) (s : State) : (advanceDte k s).busy = s.busy := rfl
@[simp] theorem advanceDte_inRecovery (k : Nat) (s : State) : (advanceDte k s).inRecovery = s.inRecovery := rfl
@[simp] theorem advanceDte_err (k : Nat) (s : State) : (advanceDte k s).err = s.err := rfl
@[simp] theorem advanceDte_fsm (k : Nat) (s : State) : (advanceDte k s).fsm = s.fsm := rfl
@[simp] theorem advanceDte_rsm (k : Nat) (s : State) : (advanceDte k s).rsm = s.rsm := rfl
@[simp] theorem advanceDte_dte (k : Nat) (s : State) :
    (advanceDte k s).dte = { s.dte with cnt := s.dte.cnt + BitVec.ofNat 24 k } := rfl
@[simp] theorem advanceDte_ecv (k : Nat) (s : State) : (advanceDte k s).ecv = s.ecv := rfl
@[simp] theorem advanceDte_bbd (k : Nat) (s : State) : (advanceDte k s).bbd = s.bbd := rfl
@[simp] theorem advanceDte_elapsedUs (k : Nat) (s : State) : (advanceDte k s).elapsedUs = s.elapsedUs := rfl
@[simp] theorem advanceDte_bufmem (k : Nat) (s : State) : (advanceDte k s).bufmem = s.bufmem := rfl
@[simp] theorem advanceDte_nfc (k : Nat) (s : State) : (advanceDte k s).nfc = s.nfc := rfl
@[simp] theorem advanceDte_trace (k : Nat) (s : State) : (advanceDte k s).trace = s.trace := rfl
@[simp] theorem advanceDte_fsmPath (k : Nat) (s : State) : (advanceDte k s).fsmPath = s.fsmPath := rfl
@[simp] theorem advanceDte_env (k : Nat) (s : State) : (advanceDte k s).env = s.env := rfl
@[simp] theorem advanceDte_hostq (k : Nat) (s : State) : (advanceDte k s).hostq = s.hostq := rfl

/-! `startDte` -/

@[simp] theorem startDte_cfg (d : Dir) (len : Len) (n : Nat) (s : State) : (startDte d len n s).cfg = s.cfg := rfl
@[simp] theorem startDte_port (d : Dir) (len : Len) (n : Nat) (s : State) :
    (startDte d len n s).port = s.port := rfl
@[simp] theorem startDte_busy (d : Dir) (len : Len) (n : Nat) (s : State) :
    (startDte d len n s).busy = s.busy := rfl
@[simp] theorem startDte_inRecovery (d : Dir) (len : Len) (n : Nat) (s : State) :
    (startDte d len n s).inRecovery = s.inRecovery := rfl
@[simp] theorem startDte_err (d : Dir) (len : Len) (n : Nat) (s : State) : (startDte d len n s).err = s.err := rfl
@[simp] theorem startDte_fsm (d : Dir) (len : Len) (n : Nat) (s : State) : (startDte d len n s).fsm = s.fsm := rfl
@[simp] theorem startDte_rsm (d : Dir) (len : Len) (n : Nat) (s : State) : (startDte d len n s).rsm = s.rsm := rfl
@[simp] theorem startDte_dte (d : Dir) (len : Len) (n : Nat) (s : State) :
    (startDte d len n s).dte = { len := len, cnt := 0, retry := BitVec.ofNat 32 n, dir := d } := rfl
@[simp] theorem startDte_ecv (d : Dir) (len : Len) (n : Nat) (s : State) : (startDte d len n s).ecv = s.ecv := rfl
@[simp] theorem startDte_bbd (d : Dir) (len : Len) (n : Nat) (s : State) : (startDte d len n s).bbd = s.bbd := rfl
@[simp] theorem startDte_elapsedUs (d : Dir) (len : Len) (n : Nat) (s : State) :
    (startDte d len n s).elapsedUs = s.elapsedUs := rfl
@[simp] theorem startDte_bufmem (d : Dir) (len : Len) (n : Nat) (s : State) :
    (startDte d len n s).bufmem = s.bufmem := rfl
@[simp] theorem startDte_nfc (d : Dir) (len : Len) (n : Nat) (s : State) : (startDte d len n s).nfc = s.nfc := rfl
@[simp] theorem startDte_trace (d : Dir) (len : Len) (n : Nat) (s : State) :
    (startDte d len n s).trace = s.trace := rfl
@[simp] theorem startDte_fsmPath (d : Dir) (len : Len) (n : Nat) (s : State) :
    (startDte d len n s).fsmPath = s.fsmPath := rfl
@[simp] theorem startDte_env (d : Dir) (len : Len) (n : Nat) (s : State) : (startDte d len n s).env = s.env := rfl
@[simp] theorem startDte_hostq (d : Dir) (len : Len) (n : Nat) (s : State) :
    (startDte d len n s).hostq = s.hostq := rfl

/-! `setEccLatch` -/

@[simp] theorem setEccLatch_cfg (e : Word) (s : State) : (setEccLatch e s).cfg = s.cfg := rfl
@[simp] theorem setEccLatch_port (e : Word) (s : State) : (setEccLatch e s).port = s.port := rfl
@[simp] theorem setEccLatch_busy (e : Word) (s : State) : (setEccLatch e s).busy = s.busy := rfl
@[simp] theorem setEccLatch_inRecovery (e : Word) (s : State) : (setEccLatch e s).inRecovery = s.inRecovery := rfl
@[simp] theorem setEccLatch_err (e : Word) (s : State) : (setEccLatch e s).err = s.err := rfl
@[simp] theorem setEccLatch_fsm (e : Word) (s : State) : (setEccLatch e s).fsm = s.fsm := rfl
@[simp] theorem setEccLatch_rsm (e : Word) (s : State) : (setEccLatch e s).rsm = s.rsm := rfl
@[simp] theorem setEccLatch_dte (e : Word) (s : State) : (setEccLatch e s).dte = s.dte := rfl
@[simp] theorem setEccLatch_ecv (e : Word) (s : State) :
    (setEccLatch e s).ecv = { s.ecv with latch := .wrote e } := rfl
@[simp] theorem setEccLatch_bbd (e : Word) (s : State) : (setEccLatch e s).bbd = s.bbd := rfl
@[simp] theorem setEccLatch_elapsedUs (e : Word) (s : State) : (setEccLatch e s).elapsedUs = s.elapsedUs := rfl
@[simp] theorem setEccLatch_bufmem (e : Word) (s : State) : (setEccLatch e s).bufmem = s.bufmem := rfl
@[simp] theorem setEccLatch_nfc (e : Word) (s : State) : (setEccLatch e s).nfc = s.nfc := rfl
@[simp] theorem setEccLatch_trace (e : Word) (s : State) : (setEccLatch e s).trace = s.trace := rfl
@[simp] theorem setEccLatch_fsmPath (e : Word) (s : State) : (setEccLatch e s).fsmPath = s.fsmPath := rfl
@[simp] theorem setEccLatch_env (e : Word) (s : State) : (setEccLatch e s).env = s.env := rfl
@[simp] theorem setEccLatch_hostq (e : Word) (s : State) : (setEccLatch e s).hostq = s.hostq := rfl

/-! `setEcvAttempt` -/

@[simp] theorem setEcvAttempt_cfg (n : BitVec 2) (s : State) : (setEcvAttempt n s).cfg = s.cfg := rfl
@[simp] theorem setEcvAttempt_port (n : BitVec 2) (s : State) : (setEcvAttempt n s).port = s.port := rfl
@[simp] theorem setEcvAttempt_busy (n : BitVec 2) (s : State) : (setEcvAttempt n s).busy = s.busy := rfl
@[simp] theorem setEcvAttempt_inRecovery (n : BitVec 2) (s : State) :
    (setEcvAttempt n s).inRecovery = s.inRecovery := rfl
@[simp] theorem setEcvAttempt_err (n : BitVec 2) (s : State) : (setEcvAttempt n s).err = s.err := rfl
@[simp] theorem setEcvAttempt_fsm (n : BitVec 2) (s : State) : (setEcvAttempt n s).fsm = s.fsm := rfl
@[simp] theorem setEcvAttempt_rsm (n : BitVec 2) (s : State) : (setEcvAttempt n s).rsm = s.rsm := rfl
@[simp] theorem setEcvAttempt_dte (n : BitVec 2) (s : State) : (setEcvAttempt n s).dte = s.dte := rfl
@[simp] theorem setEcvAttempt_ecv (n : BitVec 2) (s : State) :
    (setEcvAttempt n s).ecv = { s.ecv with attempt := n } := rfl
@[simp] theorem setEcvAttempt_bbd (n : BitVec 2) (s : State) : (setEcvAttempt n s).bbd = s.bbd := rfl
@[simp] theorem setEcvAttempt_elapsedUs (n : BitVec 2) (s : State) :
    (setEcvAttempt n s).elapsedUs = s.elapsedUs := rfl
@[simp] theorem setEcvAttempt_bufmem (n : BitVec 2) (s : State) : (setEcvAttempt n s).bufmem = s.bufmem := rfl
@[simp] theorem setEcvAttempt_nfc (n : BitVec 2) (s : State) : (setEcvAttempt n s).nfc = s.nfc := rfl
@[simp] theorem setEcvAttempt_trace (n : BitVec 2) (s : State) : (setEcvAttempt n s).trace = s.trace := rfl
@[simp] theorem setEcvAttempt_fsmPath (n : BitVec 2) (s : State) : (setEcvAttempt n s).fsmPath = s.fsmPath := rfl
@[simp] theorem setEcvAttempt_env (n : BitVec 2) (s : State) : (setEcvAttempt n s).env = s.env := rfl
@[simp] theorem setEcvAttempt_hostq (n : BitVec 2) (s : State) : (setEcvAttempt n s).hostq = s.hostq := rfl

/-! `setBbTag` -/

@[simp] theorem setBbTag_cfg (b : Byte) (s : State) : (setBbTag b s).cfg = s.cfg := rfl
@[simp] theorem setBbTag_port (b : Byte) (s : State) : (setBbTag b s).port = s.port := rfl
@[simp] theorem setBbTag_busy (b : Byte) (s : State) : (setBbTag b s).busy = s.busy := rfl
@[simp] theorem setBbTag_inRecovery (b : Byte) (s : State) : (setBbTag b s).inRecovery = s.inRecovery := rfl
@[simp] theorem setBbTag_err (b : Byte) (s : State) : (setBbTag b s).err = s.err := rfl
@[simp] theorem setBbTag_fsm (b : Byte) (s : State) : (setBbTag b s).fsm = s.fsm := rfl
@[simp] theorem setBbTag_rsm (b : Byte) (s : State) : (setBbTag b s).rsm = s.rsm := rfl
@[simp] theorem setBbTag_dte (b : Byte) (s : State) : (setBbTag b s).dte = s.dte := rfl
@[simp] theorem setBbTag_ecv (b : Byte) (s : State) : (setBbTag b s).ecv = s.ecv := rfl
@[simp] theorem setBbTag_bbd (b : Byte) (s : State) : (setBbTag b s).bbd = { s.bbd with tag := .wrote b } := rfl
@[simp] theorem setBbTag_elapsedUs (b : Byte) (s : State) : (setBbTag b s).elapsedUs = s.elapsedUs := rfl
@[simp] theorem setBbTag_bufmem (b : Byte) (s : State) : (setBbTag b s).bufmem = s.bufmem := rfl
@[simp] theorem setBbTag_nfc (b : Byte) (s : State) : (setBbTag b s).nfc = s.nfc := rfl
@[simp] theorem setBbTag_trace (b : Byte) (s : State) : (setBbTag b s).trace = s.trace := rfl
@[simp] theorem setBbTag_fsmPath (b : Byte) (s : State) : (setBbTag b s).fsmPath = s.fsmPath := rfl
@[simp] theorem setBbTag_env (b : Byte) (s : State) : (setBbTag b s).env = s.env := rfl
@[simp] theorem setBbTag_hostq (b : Byte) (s : State) : (setBbTag b s).hostq = s.hostq := rfl

/-! `setBbBad` -/

@[simp] theorem setBbBad_cfg (b : Bool) (s : State) : (setBbBad b s).cfg = s.cfg := rfl
@[simp] theorem setBbBad_port (b : Bool) (s : State) : (setBbBad b s).port = s.port := rfl
@[simp] theorem setBbBad_busy (b : Bool) (s : State) : (setBbBad b s).busy = s.busy := rfl
@[simp] theorem setBbBad_inRecovery (b : Bool) (s : State) : (setBbBad b s).inRecovery = s.inRecovery := rfl
@[simp] theorem setBbBad_err (b : Bool) (s : State) : (setBbBad b s).err = s.err := rfl
@[simp] theorem setBbBad_fsm (b : Bool) (s : State) : (setBbBad b s).fsm = s.fsm := rfl
@[simp] theorem setBbBad_rsm (b : Bool) (s : State) : (setBbBad b s).rsm = s.rsm := rfl
@[simp] theorem setBbBad_dte (b : Bool) (s : State) : (setBbBad b s).dte = s.dte := rfl
@[simp] theorem setBbBad_ecv (b : Bool) (s : State) : (setBbBad b s).ecv = s.ecv := rfl
@[simp] theorem setBbBad_bbd (b : Bool) (s : State) : (setBbBad b s).bbd = { s.bbd with bad := .wrote b } := rfl
@[simp] theorem setBbBad_elapsedUs (b : Bool) (s : State) : (setBbBad b s).elapsedUs = s.elapsedUs := rfl
@[simp] theorem setBbBad_bufmem (b : Bool) (s : State) : (setBbBad b s).bufmem = s.bufmem := rfl
@[simp] theorem setBbBad_nfc (b : Bool) (s : State) : (setBbBad b s).nfc = s.nfc := rfl
@[simp] theorem setBbBad_trace (b : Bool) (s : State) : (setBbBad b s).trace = s.trace := rfl
@[simp] theorem setBbBad_fsmPath (b : Bool) (s : State) : (setBbBad b s).fsmPath = s.fsmPath := rfl
@[simp] theorem setBbBad_env (b : Bool) (s : State) : (setBbBad b s).env = s.env := rfl
@[simp] theorem setBbBad_hostq (b : Bool) (s : State) : (setBbBad b s).hostq = s.hostq := rfl

/-! `setNfc` -/

@[simp] theorem setNfc_cfg (r : NfcReg) (v : Word) (s : State) : (setNfc r v s).cfg = s.cfg := rfl
@[simp] theorem setNfc_port (r : NfcReg) (v : Word) (s : State) : (setNfc r v s).port = s.port := rfl
@[simp] theorem setNfc_busy (r : NfcReg) (v : Word) (s : State) : (setNfc r v s).busy = s.busy := rfl
@[simp] theorem setNfc_inRecovery (r : NfcReg) (v : Word) (s : State) :
    (setNfc r v s).inRecovery = s.inRecovery := rfl
@[simp] theorem setNfc_err (r : NfcReg) (v : Word) (s : State) : (setNfc r v s).err = s.err := rfl
@[simp] theorem setNfc_fsm (r : NfcReg) (v : Word) (s : State) : (setNfc r v s).fsm = s.fsm := rfl
@[simp] theorem setNfc_rsm (r : NfcReg) (v : Word) (s : State) : (setNfc r v s).rsm = s.rsm := rfl
@[simp] theorem setNfc_dte (r : NfcReg) (v : Word) (s : State) : (setNfc r v s).dte = s.dte := rfl
@[simp] theorem setNfc_ecv (r : NfcReg) (v : Word) (s : State) : (setNfc r v s).ecv = s.ecv := rfl
@[simp] theorem setNfc_bbd (r : NfcReg) (v : Word) (s : State) : (setNfc r v s).bbd = s.bbd := rfl
@[simp] theorem setNfc_elapsedUs (r : NfcReg) (v : Word) (s : State) : (setNfc r v s).elapsedUs = s.elapsedUs := rfl
@[simp] theorem setNfc_bufmem (r : NfcReg) (v : Word) (s : State) : (setNfc r v s).bufmem = s.bufmem := rfl
@[simp] theorem setNfc_nfc (r : NfcReg) (v : Word) (s : State) : (setNfc r v s).nfc = s.nfc.set r v := rfl
@[simp] theorem setNfc_trace (r : NfcReg) (v : Word) (s : State) : (setNfc r v s).trace = s.trace := rfl
@[simp] theorem setNfc_fsmPath (r : NfcReg) (v : Word) (s : State) : (setNfc r v s).fsmPath = s.fsmPath := rfl
@[simp] theorem setNfc_env (r : NfcReg) (v : Word) (s : State) : (setNfc r v s).env = s.env := rfl
@[simp] theorem setNfc_hostq (r : NfcReg) (v : Word) (s : State) : (setNfc r v s).hostq = s.hostq := rfl

/-! `delayUs` -/

@[simp] theorem delayUs_cfg (n : Nat) (s : State) : (delayUs n s).cfg = s.cfg := rfl
@[simp] theorem delayUs_port (n : Nat) (s : State) : (delayUs n s).port = s.port := rfl
@[simp] theorem delayUs_busy (n : Nat) (s : State) : (delayUs n s).busy = s.busy := rfl
@[simp] theorem delayUs_inRecovery (n : Nat) (s : State) : (delayUs n s).inRecovery = s.inRecovery := rfl
@[simp] theorem delayUs_err (n : Nat) (s : State) : (delayUs n s).err = s.err := rfl
@[simp] theorem delayUs_fsm (n : Nat) (s : State) : (delayUs n s).fsm = s.fsm := rfl
@[simp] theorem delayUs_rsm (n : Nat) (s : State) : (delayUs n s).rsm = s.rsm := rfl
@[simp] theorem delayUs_dte (n : Nat) (s : State) : (delayUs n s).dte = s.dte := rfl
@[simp] theorem delayUs_ecv (n : Nat) (s : State) : (delayUs n s).ecv = s.ecv := rfl
@[simp] theorem delayUs_bbd (n : Nat) (s : State) : (delayUs n s).bbd = s.bbd := rfl
@[simp] theorem delayUs_elapsedUs (n : Nat) (s : State) : (delayUs n s).elapsedUs = s.elapsedUs + n := rfl
@[simp] theorem delayUs_bufmem (n : Nat) (s : State) : (delayUs n s).bufmem = s.bufmem := rfl
@[simp] theorem delayUs_nfc (n : Nat) (s : State) : (delayUs n s).nfc = s.nfc := rfl
@[simp] theorem delayUs_trace (n : Nat) (s : State) : (delayUs n s).trace = .delay n :: s.trace := rfl
@[simp] theorem delayUs_fsmPath (n : Nat) (s : State) : (delayUs n s).fsmPath = s.fsmPath := rfl
@[simp] theorem delayUs_env (n : Nat) (s : State) : (delayUs n s).env = s.env := rfl
@[simp] theorem delayUs_hostq (n : Nat) (s : State) : (delayUs n s).hostq = s.hostq := rfl

/-! `commit` -/

@[simp] theorem commit_cfg (c : Code) (v : Len) (s : State) : (commit c v s).cfg = s.cfg := rfl
@[simp] theorem commit_port (c : Code) (v : Len) (s : State) :
    (commit c v s).port = { s.port with resp := .wrote (respWord v c.bits) } := rfl
@[simp] theorem commit_busy (c : Code) (v : Len) (s : State) : (commit c v s).busy = false := rfl
@[simp] theorem commit_inRecovery (c : Code) (v : Len) (s : State) : (commit c v s).inRecovery = s.inRecovery := rfl
@[simp] theorem commit_err (c : Code) (v : Len) (s : State) : (commit c v s).err = c.bits := rfl
@[simp] theorem commit_fsm (c : Code) (v : Len) (s : State) : (commit c v s).fsm = s.fsm := rfl
@[simp] theorem commit_rsm (c : Code) (v : Len) (s : State) : (commit c v s).rsm = s.rsm := rfl
@[simp] theorem commit_dte (c : Code) (v : Len) (s : State) : (commit c v s).dte = s.dte := rfl
@[simp] theorem commit_ecv (c : Code) (v : Len) (s : State) : (commit c v s).ecv = s.ecv := rfl
@[simp] theorem commit_bbd (c : Code) (v : Len) (s : State) : (commit c v s).bbd = s.bbd := rfl
@[simp] theorem commit_elapsedUs (c : Code) (v : Len) (s : State) : (commit c v s).elapsedUs = s.elapsedUs := rfl
@[simp] theorem commit_bufmem (c : Code) (v : Len) (s : State) : (commit c v s).bufmem = s.bufmem := rfl
@[simp] theorem commit_nfc (c : Code) (v : Len) (s : State) : (commit c v s).nfc = s.nfc := rfl
@[simp] theorem commit_trace (c : Code) (v : Len) (s : State) : (commit c v s).trace = s.trace := rfl
@[simp] theorem commit_fsmPath (c : Code) (v : Len) (s : State) : (commit c v s).fsmPath = s.fsmPath := rfl
@[simp] theorem commit_env (c : Code) (v : Len) (s : State) : (commit c v s).env = s.env := rfl
@[simp] theorem commit_hostq (c : Code) (v : Len) (s : State) : (commit c v s).hostq = s.hostq := rfl

/-! `refuse` -/

@[simp] theorem refuse_cfg (s : State) : (refuse s).cfg = s.cfg := rfl
@[simp] theorem refuse_port (s : State) :
    (refuse s).port = { s.port with resp := .wrote (respWord 0 refusedBits) } := rfl
@[simp] theorem refuse_busy (s : State) : (refuse s).busy = s.busy := rfl
@[simp] theorem refuse_inRecovery (s : State) : (refuse s).inRecovery = s.inRecovery := rfl
@[simp] theorem refuse_err (s : State) : (refuse s).err = s.err := rfl
@[simp] theorem refuse_fsm (s : State) : (refuse s).fsm = s.fsm := rfl
@[simp] theorem refuse_rsm (s : State) : (refuse s).rsm = s.rsm := rfl
@[simp] theorem refuse_dte (s : State) : (refuse s).dte = s.dte := rfl
@[simp] theorem refuse_ecv (s : State) : (refuse s).ecv = s.ecv := rfl
@[simp] theorem refuse_bbd (s : State) : (refuse s).bbd = s.bbd := rfl
@[simp] theorem refuse_elapsedUs (s : State) : (refuse s).elapsedUs = s.elapsedUs := rfl
@[simp] theorem refuse_bufmem (s : State) : (refuse s).bufmem = s.bufmem := rfl
@[simp] theorem refuse_nfc (s : State) : (refuse s).nfc = s.nfc := rfl
@[simp] theorem refuse_trace (s : State) : (refuse s).trace = s.trace := rfl
@[simp] theorem refuse_fsmPath (s : State) : (refuse s).fsmPath = s.fsmPath := rfl
@[simp] theorem refuse_env (s : State) : (refuse s).env = s.env := rfl
@[simp] theorem refuse_hostq (s : State) : (refuse s).hostq = s.hostq := rfl

/-! `leaveRecovery` -/

@[simp] theorem leaveRecovery_cfg (b : Bool) (s : State) : (leaveRecovery b s).cfg = s.cfg := rfl
@[simp] theorem leaveRecovery_port (b : Bool) (s : State) : (leaveRecovery b s).port = s.port := rfl
@[simp] theorem leaveRecovery_busy (b : Bool) (s : State) : (leaveRecovery b s).busy = s.busy := rfl
@[simp] theorem leaveRecovery_inRecovery (b : Bool) (s : State) : (leaveRecovery b s).inRecovery = b := rfl
@[simp] theorem leaveRecovery_err (b : Bool) (s : State) : (leaveRecovery b s).err = s.err := rfl
@[simp] theorem leaveRecovery_fsm (b : Bool) (s : State) : (leaveRecovery b s).fsm = s.fsm := rfl
@[simp] theorem leaveRecovery_rsm (b : Bool) (s : State) : (leaveRecovery b s).rsm = s.rsm := rfl
@[simp] theorem leaveRecovery_dte (b : Bool) (s : State) : (leaveRecovery b s).dte = s.dte := rfl
@[simp] theorem leaveRecovery_ecv (b : Bool) (s : State) : (leaveRecovery b s).ecv = s.ecv := rfl
@[simp] theorem leaveRecovery_bbd (b : Bool) (s : State) : (leaveRecovery b s).bbd = s.bbd := rfl
@[simp] theorem leaveRecovery_elapsedUs (b : Bool) (s : State) : (leaveRecovery b s).elapsedUs = s.elapsedUs := rfl
@[simp] theorem leaveRecovery_bufmem (b : Bool) (s : State) : (leaveRecovery b s).bufmem = s.bufmem := rfl
@[simp] theorem leaveRecovery_nfc (b : Bool) (s : State) : (leaveRecovery b s).nfc = s.nfc := rfl
@[simp] theorem leaveRecovery_trace (b : Bool) (s : State) : (leaveRecovery b s).trace = s.trace := rfl
@[simp] theorem leaveRecovery_fsmPath (b : Bool) (s : State) : (leaveRecovery b s).fsmPath = s.fsmPath := rfl
@[simp] theorem leaveRecovery_env (b : Bool) (s : State) : (leaveRecovery b s).env = s.env := rfl
@[simp] theorem leaveRecovery_hostq (b : Bool) (s : State) : (leaveRecovery b s).hostq = s.hostq := rfl

/-! `accept` -/

@[simp] theorem accept_cfg (s : State) : (accept s).cfg = s.cfg := rfl
@[simp] theorem accept_port (s : State) :
    (accept s).port = { s.port with latchA := s.port.opa, latchB := s.port.opb } := rfl
@[simp] theorem accept_busy (s : State) : (accept s).busy = true := rfl
@[simp] theorem accept_inRecovery (s : State) : (accept s).inRecovery = s.inRecovery := rfl
@[simp] theorem accept_err (s : State) : (accept s).err = s.err := rfl
@[simp] theorem accept_fsm (s : State) : (accept s).fsm = s.fsm := rfl
@[simp] theorem accept_rsm (s : State) : (accept s).rsm = s.rsm := rfl
@[simp] theorem accept_dte (s : State) : (accept s).dte = s.dte := rfl
@[simp] theorem accept_ecv (s : State) : (accept s).ecv = s.ecv := rfl
@[simp] theorem accept_bbd (s : State) : (accept s).bbd = s.bbd := rfl
@[simp] theorem accept_elapsedUs (s : State) : (accept s).elapsedUs = s.elapsedUs := rfl
@[simp] theorem accept_bufmem (s : State) : (accept s).bufmem = s.bufmem := rfl
@[simp] theorem accept_nfc (s : State) : (accept s).nfc = s.nfc := rfl
@[simp] theorem accept_trace (s : State) : (accept s).trace = s.trace := rfl
@[simp] theorem accept_fsmPath (s : State) : (accept s).fsmPath = s.fsmPath := rfl
@[simp] theorem accept_env (s : State) : (accept s).env = s.env := rfl
@[simp] theorem accept_hostq (s : State) : (accept s).hostq = s.hostq := rfl

/-! `takeAct` -/

@[simp] theorem takeAct_cfg (rest : List HostAct) (s : State) : (takeAct rest s).cfg = s.cfg := rfl
@[simp] theorem takeAct_port (rest : List HostAct) (s : State) : (takeAct rest s).port = s.port := rfl
@[simp] theorem takeAct_busy (rest : List HostAct) (s : State) : (takeAct rest s).busy = s.busy := rfl
@[simp] theorem takeAct_inRecovery (rest : List HostAct) (s : State) :
    (takeAct rest s).inRecovery = s.inRecovery := rfl
@[simp] theorem takeAct_err (rest : List HostAct) (s : State) : (takeAct rest s).err = s.err := rfl
@[simp] theorem takeAct_fsm (rest : List HostAct) (s : State) : (takeAct rest s).fsm = s.fsm := rfl
@[simp] theorem takeAct_rsm (rest : List HostAct) (s : State) : (takeAct rest s).rsm = s.rsm := rfl
@[simp] theorem takeAct_dte (rest : List HostAct) (s : State) : (takeAct rest s).dte = s.dte := rfl
@[simp] theorem takeAct_ecv (rest : List HostAct) (s : State) : (takeAct rest s).ecv = s.ecv := rfl
@[simp] theorem takeAct_bbd (rest : List HostAct) (s : State) : (takeAct rest s).bbd = s.bbd := rfl
@[simp] theorem takeAct_elapsedUs (rest : List HostAct) (s : State) :
    (takeAct rest s).elapsedUs = s.elapsedUs := rfl
@[simp] theorem takeAct_bufmem (rest : List HostAct) (s : State) : (takeAct rest s).bufmem = s.bufmem := rfl
@[simp] theorem takeAct_nfc (rest : List HostAct) (s : State) : (takeAct rest s).nfc = s.nfc := rfl
@[simp] theorem takeAct_trace (rest : List HostAct) (s : State) : (takeAct rest s).trace = s.trace := rfl
@[simp] theorem takeAct_fsmPath (rest : List HostAct) (s : State) : (takeAct rest s).fsmPath = s.fsmPath := rfl
@[simp] theorem takeAct_env (rest : List HostAct) (s : State) : (takeAct rest s).env = s.env := rfl
@[simp] theorem takeAct_hostq (rest : List HostAct) (s : State) : (takeAct rest s).hostq = rest := rfl

/-! `writeOpreq` -/

@[simp] theorem writeOpreq_cfg (w : Word) (s : State) : (writeOpreq w s).cfg = s.cfg := rfl
@[simp] theorem writeOpreq_port (w : Word) (s : State) :
    (writeOpreq w s).port = { s.port with opreq := .wrote w } := rfl
@[simp] theorem writeOpreq_busy (w : Word) (s : State) : (writeOpreq w s).busy = s.busy := rfl
@[simp] theorem writeOpreq_inRecovery (w : Word) (s : State) : (writeOpreq w s).inRecovery = s.inRecovery := rfl
@[simp] theorem writeOpreq_err (w : Word) (s : State) : (writeOpreq w s).err = s.err := rfl
@[simp] theorem writeOpreq_fsm (w : Word) (s : State) : (writeOpreq w s).fsm = s.fsm := rfl
@[simp] theorem writeOpreq_rsm (w : Word) (s : State) : (writeOpreq w s).rsm = s.rsm := rfl
@[simp] theorem writeOpreq_dte (w : Word) (s : State) : (writeOpreq w s).dte = s.dte := rfl
@[simp] theorem writeOpreq_ecv (w : Word) (s : State) : (writeOpreq w s).ecv = s.ecv := rfl
@[simp] theorem writeOpreq_bbd (w : Word) (s : State) : (writeOpreq w s).bbd = s.bbd := rfl
@[simp] theorem writeOpreq_elapsedUs (w : Word) (s : State) : (writeOpreq w s).elapsedUs = s.elapsedUs := rfl
@[simp] theorem writeOpreq_bufmem (w : Word) (s : State) : (writeOpreq w s).bufmem = s.bufmem := rfl
@[simp] theorem writeOpreq_nfc (w : Word) (s : State) : (writeOpreq w s).nfc = s.nfc := rfl
@[simp] theorem writeOpreq_trace (w : Word) (s : State) : (writeOpreq w s).trace = s.trace := rfl
@[simp] theorem writeOpreq_fsmPath (w : Word) (s : State) : (writeOpreq w s).fsmPath = s.fsmPath := rfl
@[simp] theorem writeOpreq_env (w : Word) (s : State) : (writeOpreq w s).env = s.env := rfl
@[simp] theorem writeOpreq_hostq (w : Word) (s : State) : (writeOpreq w s).hostq = s.hostq := rfl

/-! `applyHavoc` -/

@[simp] theorem applyHavoc_cfg (h : Havoc) (s : State) : (applyHavoc h s).cfg = s.cfg := rfl
@[simp] theorem applyHavoc_port (h : Havoc) (s : State) : (applyHavoc h s).port = s.port := rfl
@[simp] theorem applyHavoc_busy (h : Havoc) (s : State) : (applyHavoc h s).busy = s.busy := rfl
@[simp] theorem applyHavoc_inRecovery (h : Havoc) (s : State) : (applyHavoc h s).inRecovery = s.inRecovery := rfl
@[simp] theorem applyHavoc_err (h : Havoc) (s : State) : (applyHavoc h s).err = s.err := rfl
@[simp] theorem applyHavoc_fsm (h : Havoc) (s : State) : (applyHavoc h s).fsm = h.fsm := rfl
@[simp] theorem applyHavoc_rsm (h : Havoc) (s : State) :
    (applyHavoc h s).rsm = { budget := h.rsmBudget, retry := h.rsmRetry, aux := h.auxRetry, statusByte := .wrote h.statusByte } := rfl
@[simp] theorem applyHavoc_dte (h : Havoc) (s : State) :
    (applyHavoc h s).dte = { len := h.dteLen, cnt := h.dteCnt, retry := h.dteRetry, dir := h.dteDir } := rfl
@[simp] theorem applyHavoc_ecv (h : Havoc) (s : State) : (applyHavoc h s).ecv = s.ecv := rfl
@[simp] theorem applyHavoc_bbd (h : Havoc) (s : State) : (applyHavoc h s).bbd = s.bbd := rfl
@[simp] theorem applyHavoc_elapsedUs (h : Havoc) (s : State) :
    (applyHavoc h s).elapsedUs = s.elapsedUs + h.delay := rfl
@[simp] theorem applyHavoc_bufmem (h : Havoc) (s : State) : (applyHavoc h s).bufmem = s.bufmem := rfl
@[simp] theorem applyHavoc_nfc (h : Havoc) (s : State) : (applyHavoc h s).nfc = h.nfc := rfl
@[simp] theorem applyHavoc_trace (h : Havoc) (s : State) : (applyHavoc h s).trace = s.trace := rfl
@[simp] theorem applyHavoc_fsmPath (h : Havoc) (s : State) : (applyHavoc h s).fsmPath = s.fsmPath := rfl
@[simp] theorem applyHavoc_env (h : Havoc) (s : State) : (applyHavoc h s).env = s.env := rfl
@[simp] theorem applyHavoc_hostq (h : Havoc) (s : State) : (applyHavoc h s).hostq = s.hostq := rfl

end Sys2Proof.Machine
end

