-- ==== Sys2Proof/Laws/Ops.lean ====
section
/-! SUPPORT. One lemma for everything each shared operation can do: register accesses, buffer accesses, the bounded
poll, completion and the collaborator calls. Callers cite these and do not unfold the operations. -/

namespace Sys2Proof.Machine

/-! ## ENV's answers and register accesses -/

theorem envAnswer_cons {r : NfcReg} {s : State} {v : Word} {vs : List Word} (h : s.env.reads = v :: vs) :
    envAnswer r s = (v, { s with env := { s.env with reads := vs } }) := by
  simp [envAnswer, h]

/-- Drawing an answer changes the answers alone. -/
theorem envAnswer_state (r : NfcReg) (s : State) : ∃ e : Answers,
    e.rereads = s.env.rereads ∧ e.oobs = s.env.oobs ∧ (envAnswer r s).2 = { s with env := e } := by
  refine ⟨(envAnswer r s).2.env, ?_⟩
  unfold envAnswer
  split <;> exact ⟨rfl, rfl, rfl⟩

/-- What a register read does: the value is ENV's, the register is seen to hold it, and the event is recorded. -/
theorem regRead_state (r : NfcReg) (s : State) : ∃ e : Answers,
    e.rereads = s.env.rereads ∧ e.oobs = s.env.oobs ∧
    (regRead r s).2 = { s with env := e, nfc := s.nfc.set r (regRead r s).1,
                               trace := .regRead r (regRead r s).1 :: s.trace } := by
  obtain ⟨e, h1, h2, h3⟩ := envAnswer_state r s
  exact ⟨e, h1, h2, by simp only [regRead, h3]; rfl⟩

/-- A register read that the list of answers answers. -/
theorem regRead_cons {r : NfcReg} {s : State} {v : Word} {vs : List Word} (h : s.env.reads = v :: vs) :
    regRead r s = (v, { s with env := { s.env with reads := vs }, nfc := s.nfc.set r v,
                               trace := .regRead r v :: s.trace }) := by
  simp only [regRead, envAnswer_cons h]; rfl

section
variable (r : NfcReg) (s : State)

@[simp] theorem regRead_cfg : (regRead r s).2.cfg = s.cfg := by
  obtain ⟨_, -, -, h⟩ := regRead_state r s; simp [h]
@[simp] theorem regRead_port : (regRead r s).2.port = s.port := by
  obtain ⟨_, -, -, h⟩ := regRead_state r s; simp [h]
@[simp] theorem regRead_busy : (regRead r s).2.busy = s.busy := by
  obtain ⟨_, -, -, h⟩ := regRead_state r s; simp [h]
@[simp] theorem regRead_inRecovery : (regRead r s).2.inRecovery = s.inRecovery := by
  obtain ⟨_, -, -, h⟩ := regRead_state r s; simp [h]
@[simp] theorem regRead_err : (regRead r s).2.err = s.err := by
  obtain ⟨_, -, -, h⟩ := regRead_state r s; simp [h]
@[simp] theorem regRead_fsm : (regRead r s).2.fsm = s.fsm := by
  obtain ⟨_, -, -, h⟩ := regRead_state r s; simp [h]
@[simp] theorem regRead_rsm : (regRead r s).2.rsm = s.rsm := by
  obtain ⟨_, -, -, h⟩ := regRead_state r s; simp [h]
@[simp] theorem regRead_dte : (regRead r s).2.dte = s.dte := by
  obtain ⟨_, -, -, h⟩ := regRead_state r s; simp [h]
@[simp] theorem regRead_ecv : (regRead r s).2.ecv = s.ecv := by
  obtain ⟨_, -, -, h⟩ := regRead_state r s; simp [h]
@[simp] theorem regRead_bbd : (regRead r s).2.bbd = s.bbd := by
  obtain ⟨_, -, -, h⟩ := regRead_state r s; simp [h]
@[simp] theorem regRead_elapsedUs : (regRead r s).2.elapsedUs = s.elapsedUs := by
  obtain ⟨_, -, -, h⟩ := regRead_state r s; simp [h]
@[simp] theorem regRead_bufmem : (regRead r s).2.bufmem = s.bufmem := by
  obtain ⟨_, -, -, h⟩ := regRead_state r s; simp [h]
@[simp] theorem regRead_fsmPath : (regRead r s).2.fsmPath = s.fsmPath := by
  obtain ⟨_, -, -, h⟩ := regRead_state r s; simp [h]
@[simp] theorem regRead_hostq : (regRead r s).2.hostq = s.hostq := by
  obtain ⟨_, -, -, h⟩ := regRead_state r s; simp [h]
@[simp] theorem regRead_trace : (regRead r s).2.trace = .regRead r (regRead r s).1 :: s.trace := by
  obtain ⟨_, -, -, h⟩ := regRead_state r s; simp [h]
@[simp] theorem regRead_nfc : (regRead r s).2.nfc = s.nfc.set r (regRead r s).1 := by
  obtain ⟨_, -, -, h⟩ := regRead_state r s; simp [h]
@[simp] theorem regRead_rereads : (regRead r s).2.env.rereads = s.env.rereads := by
  obtain ⟨_, h1, -, h⟩ := regRead_state r s; simp [h, h1]
@[simp] theorem regRead_oobs : (regRead r s).2.env.oobs = s.env.oobs := by
  obtain ⟨_, -, h2, h⟩ := regRead_state r s; simp [h, h2]

end

section
variable (r : NfcReg) (v : Word) (s : State)

@[simp] theorem regWrite_cfg : (regWrite r v s).cfg = s.cfg := rfl
@[simp] theorem regWrite_port : (regWrite r v s).port = s.port := rfl
@[simp] theorem regWrite_busy : (regWrite r v s).busy = s.busy := rfl
@[simp] theorem regWrite_inRecovery : (regWrite r v s).inRecovery = s.inRecovery := rfl
@[simp] theorem regWrite_err : (regWrite r v s).err = s.err := rfl
@[simp] theorem regWrite_fsm : (regWrite r v s).fsm = s.fsm := rfl
@[simp] theorem regWrite_rsm : (regWrite r v s).rsm = s.rsm := rfl
@[simp] theorem regWrite_dte : (regWrite r v s).dte = s.dte := rfl
@[simp] theorem regWrite_ecv : (regWrite r v s).ecv = s.ecv := rfl
@[simp] theorem regWrite_bbd : (regWrite r v s).bbd = s.bbd := rfl
@[simp] theorem regWrite_elapsedUs : (regWrite r v s).elapsedUs = s.elapsedUs := rfl
@[simp] theorem regWrite_bufmem : (regWrite r v s).bufmem = s.bufmem := rfl
@[simp] theorem regWrite_fsmPath : (regWrite r v s).fsmPath = s.fsmPath := rfl
@[simp] theorem regWrite_hostq : (regWrite r v s).hostq = s.hostq := rfl
@[simp] theorem regWrite_env : (regWrite r v s).env = s.env := rfl
@[simp] theorem regWrite_trace : (regWrite r v s).trace = .regWrite r v :: s.trace := rfl
@[simp] theorem regWrite_nfc : (regWrite r v s).nfc = s.nfc.set r (storedByWrite r v s) := rfl

end

/-- The events of a parameter sequence, newest first (R10). -/
def seqEvents : List (NfcReg × Word) → List Event
  | [] => []
  | (r, v) :: rest => seqEvents rest ++ [.regWrite r v]

/-- A parameter sequence writes registers and nothing else. -/
theorem regWrites_state (seq : List (NfcReg × Word)) (s : State) :
    regWrites seq s = { s with nfc := (regWrites seq s).nfc, trace := seqEvents seq ++ s.trace } := by
  induction seq generalizing s with
  | nil => rfl
  | cons p rest ih =>
    obtain ⟨r, v⟩ := p
    rw [regWrites, ih]
    simp [seqEvents, regWrite]

section
variable (seq : List (NfcReg × Word)) (s : State)

@[simp] theorem regWrites_cfg : (regWrites seq s).cfg = s.cfg := by rw [regWrites_state]
@[simp] theorem regWrites_port : (regWrites seq s).port = s.port := by rw [regWrites_state]
@[simp] theorem regWrites_busy : (regWrites seq s).busy = s.busy := by rw [regWrites_state]
@[simp] theorem regWrites_inRecovery : (regWrites seq s).inRecovery = s.inRecovery := by rw [regWrites_state]
@[simp] theorem regWrites_err : (regWrites seq s).err = s.err := by rw [regWrites_state]
@[simp] theorem regWrites_fsm : (regWrites seq s).fsm = s.fsm := by rw [regWrites_state]
@[simp] theorem regWrites_rsm : (regWrites seq s).rsm = s.rsm := by rw [regWrites_state]
@[simp] theorem regWrites_dte : (regWrites seq s).dte = s.dte := by rw [regWrites_state]
@[simp] theorem regWrites_ecv : (regWrites seq s).ecv = s.ecv := by rw [regWrites_state]
@[simp] theorem regWrites_bbd : (regWrites seq s).bbd = s.bbd := by rw [regWrites_state]
@[simp] theorem regWrites_elapsedUs : (regWrites seq s).elapsedUs = s.elapsedUs := by rw [regWrites_state]
@[simp] theorem regWrites_bufmem : (regWrites seq s).bufmem = s.bufmem := by rw [regWrites_state]
@[simp] theorem regWrites_fsmPath : (regWrites seq s).fsmPath = s.fsmPath := by rw [regWrites_state]
@[simp] theorem regWrites_hostq : (regWrites seq s).hostq = s.hostq := by rw [regWrites_state]
@[simp] theorem regWrites_env : (regWrites seq s).env = s.env := by rw [regWrites_state]
@[simp] theorem regWrites_trace : (regWrites seq s).trace = seqEvents seq ++ s.trace := by rw [regWrites_state]

end

/-- Write-1-to-clear, bit by bit (R55). -/
theorem w1c_getLsbD (old m : Word) (i : Nat) : (w1c old m).getLsbD i = (old.getLsbD i && !m.getLsbD i) := by
  simp only [w1c, BitVec.getLsbD_and, BitVec.getLsbD_not]
  by_cases h : i < 32
  · simp [h]
  · simp [BitVec.getLsbD_of_ge _ _ (Nat.le_of_not_lt h)]

/-! ## Buffer accesses -/

theorem memRead_ok {a : Nat} {s t : State} {b : Byte} (h : memRead a s = .ok (b, t)) :
    a < s.cfg.bufmemSize ∧ Memory.lookup s.bufmem a = some b ∧ t = emit (.bufRead a b) s := by
  unfold memRead bufByte at h
  split at h
  · next b' hb =>
    split at hb
    · next hlt =>
      split at hb
      · next hl =>
        simp only [Except.ok.injEq, Prod.mk.injEq] at h hb
        obtain ⟨rfl, rfl⟩ := h
        subst hb
        exact ⟨hlt, hl, rfl⟩
      · simp at hb
    · simp at hb
  · simp at h

theorem memRead_of_lookup {a : Nat} {s : State} {b : Byte} (ha : a < s.cfg.bufmemSize)
    (hb : Memory.lookup s.bufmem a = some b) : memRead a s = .ok (b, emit (.bufRead a b) s) := by
  simp [memRead, bufByte, ha, hb]

theorem memRead_unheld {a : Nat} {s : State} (ha : a < s.cfg.bufmemSize) (hb : Memory.lookup s.bufmem a = none) :
    memRead a s = .error (.uninitialisedRead (.bufByte a)) := by
  simp [memRead, bufByte, ha, hb]

theorem memWrite_of_lt {a : Nat} {s : State} (b : Byte) (ha : a < s.cfg.bufmemSize) :
    memWrite a b s = .ok (emit (.bufWrite a b) { s with bufmem := Memory.store s.bufmem a b }) := by
  simp [memWrite, putByte, ha]

theorem memWrite_ok {a : Nat} {s t : State} {b : Byte} (h : memWrite a b s = .ok t) :
    a < s.cfg.bufmemSize ∧ t = emit (.bufWrite a b) { s with bufmem := Memory.store s.bufmem a b } := by
  by_cases ha : a < s.cfg.bufmemSize
  · rw [memWrite_of_lt b ha] at h
    exact ⟨ha, by simpa using h.symm⟩
  · simp [memWrite, putByte, ha] at h

/-- The events of bytes written from `a` on, newest first. -/
def writeEvents (a : Nat) : List Byte → List Event
  | [] => []
  | b :: bs => writeEvents (a + 1) bs ++ [.bufWrite a b]

/-- The events of bytes read from `a` on, newest first. -/
def readEvents (a : Nat) : List Byte → List Event
  | [] => []
  | b :: bs => readEvents (a + 1) bs ++ [.bufRead a b]

theorem memWrites_of_le {a : Nat} {s : State} {bs : List Byte} (h : a + bs.length ≤ s.cfg.bufmemSize) :
    memWrites a bs s =
      .ok { s with bufmem := Memory.storeAll s.bufmem a bs, trace := writeEvents a bs ++ s.trace } := by
  induction bs generalizing a s with
  | nil => rfl
  | cons b bs ih =>
    simp only [List.length_cons] at h
    rw [memWrites, memWrite_of_lt b (by omega)]
    simp only
    rw [ih (by simp; omega)]
    simp [Memory.storeAll, writeEvents]

theorem memWrites_ok {a : Nat} {s t : State} {bs : List Byte} (h : memWrites a bs s = .ok t) :
    (bs ≠ [] → a + bs.length ≤ s.cfg.bufmemSize) ∧
    t = { s with bufmem := Memory.storeAll s.bufmem a bs, trace := writeEvents a bs ++ s.trace } := by
  induction bs generalizing a s with
  | nil => exact ⟨by simp, by simpa [memWrites, eq_comm, writeEvents, Memory.storeAll] using h⟩
  | cons b bs ih =>
    rw [memWrites] at h
    split at h
    · simp at h
    · next s' hw =>
      obtain ⟨ha, rfl⟩ := memWrite_ok hw
      obtain ⟨h1, h2⟩ := ih h
      refine ⟨fun _ => ?_, by simpa [Memory.storeAll, writeEvents] using h2⟩
      cases bs with
      | nil => simpa using ha
      | cons c cs => have := h1 (by simp); simp at this ⊢; omega

theorem memReads_ok {a k : Nat} {s t : State} {bs : List Byte} (h : memReads a k s = .ok (bs, t)) :
    bs.length = k ∧ (∀ i (hi : i < bs.length), Memory.lookup s.bufmem (a + i) = some bs[i]) ∧
    t = { s with trace := readEvents a bs ++ s.trace } := by
  induction k generalizing a s bs with
  | zero =>
    simp only [memReads, Except.ok.injEq, Prod.mk.injEq] at h
    obtain ⟨rfl, rfl⟩ := h
    exact ⟨rfl, by simp, rfl⟩
  | succ k ih =>
    rw [memReads] at h
    split at h
    · simp at h
    · next b s' hr =>
      obtain ⟨-, hl, rfl⟩ := memRead_ok hr
      split at h
      · simp at h
      · next bs' s'' hrs =>
        simp only [Except.ok.injEq, Prod.mk.injEq] at h
        obtain ⟨rfl, rfl⟩ := h
        obtain ⟨h1, h2, h3⟩ := ih hrs
        refine ⟨by simp [h1], ?_, by simpa [readEvents] using h3⟩
        rintro (_ | i) hi
        · simpa using hl
        · have := h2 i (by simpa using hi)
          simpa [Nat.add_assoc, Nat.add_comm 1 i] using this

theorem memReads_held {a k : Nat} {s : State} (hr : a + k ≤ s.cfg.bufmemSize)
    (h : ∀ i < k, Memory.lookup s.bufmem (a + i) ≠ none) : ∃ bs t, memReads a k s = .ok (bs, t) := by
  induction k generalizing a s with
  | zero => exact ⟨_, _, rfl⟩
  | succ k ih =>
    obtain ⟨b, hb⟩ := Option.ne_none_iff_exists'.mp (by simpa using h 0 (by omega))
    obtain ⟨bs, t, ht⟩ := ih (a := a + 1) (s := emit (.bufRead a b) s) (by simp; omega) (by
      intro i hi
      have := h (i + 1) (by omega)
      simpa [Nat.add_assoc, Nat.add_comm 1 i] using this)
    exact ⟨b :: bs, t, by rw [memReads, memRead_of_lookup (by omega) hb]; simp [ht]⟩

/-- A read that reaches a byte that holds no value is a fault at the first such byte (R56). -/
theorem memReads_unheld {a k i : Nat} {s : State} (hr : a + k ≤ s.cfg.bufmemSize) (hi : i < k)
    (h : ∀ l < i, Memory.lookup s.bufmem (a + l) ≠ none) (hn : Memory.lookup s.bufmem (a + i) = none) :
    memReads a k s = .error (.uninitialisedRead (.bufByte (a + i))) := by
  induction k generalizing a i s with
  | zero => omega
  | succ k ih =>
    cases i with
    | zero => rw [memReads, memRead_unheld (by omega) (by simpa using hn)]; rfl
    | succ i =>
      obtain ⟨b, hb⟩ := Option.ne_none_iff_exists'.mp (by simpa using h 0 (by omega))
      have h1 : a + (i + 1) = a + 1 + i := by omega
      rw [memReads, memRead_of_lookup (by omega) hb, h1]
      simp only
      rw [ih (a := a + 1) (i := i) (s := emit (.bufRead a b) s) (by simp; omega) (by omega)
        (fun l hl => by have := h (l + 1) (by omega); simpa [Nat.add_assoc, Nat.add_comm 1 l] using this)
        (by rw [← h1]; simpa using hn)]

/-! ## The bounded poll -/

/-- A relation that holds from every state to the one a sample leaves, and over every delay and count, holds from the
start of a poll to its end. -/
theorem poll_rel {α : Type} {R : State → State → Prop} {sample : State → Option α × State}
    {setCtr : Word → State → State} (trans : ∀ {s t u}, R s t → R t u → R s u) (hsample : ∀ s, R s (sample s).2)
    (hctr : ∀ v s, R s (setCtr v (delayUs 1 s))) (n : Nat) (s : State) : R s (poll sample setCtr n s).2 := by
  induction n generalizing s with
  | zero => exact hsample s
  | succ n ih =>
    have h := hsample s
    rw [poll]
    split
    · next hs => rwa [hs] at h
    · next t hs => rw [hs] at h; exact trans h (trans (hctr _ _) (ih _))

theorem pollUntil_rel {α : Type} {R : State → State → Prop} {sample : State → Option α × State}
    {setCtr : Word → State → State} (trans : ∀ {s t u}, R s t → R t u → R s u) (hsample : ∀ s, R s (sample s).2)
    (hctr : ∀ v s, R s (setCtr v (delayUs 1 s))) (hload : ∀ v s, R s (setCtr v s)) (n : Nat) (s : State) :
    R s (pollUntil sample setCtr n s).2 := by
  unfold pollUntil
  exact trans (hload _ _) (poll_rel (R := R) trans hsample hctr _ _)

/-- A verdict of a poll is the verdict of one of its samples, and the poll leaves the state of that sample. -/
theorem poll_some {α : Type} {sample : State → Option α × State} {setCtr : Word → State → State} {n : Nat}
    {s t : State} {a : α} (h : poll sample setCtr n s = (some a, t)) : ∃ u, sample u = (some a, t) := by
  induction n generalizing s with
  | zero => exact ⟨s, h⟩
  | succ n ih =>
    rw [poll] at h
    split at h
    · next hs => exact ⟨s, by simpa using hs.trans h⟩
    · exact ih h

/-- A poll without a verdict ended on a sample without one. -/
theorem poll_none {α : Type} {sample : State → Option α × State} {setCtr : Word → State → State} {n : Nat}
    {s t : State} (h : poll sample setCtr n s = (none, t)) : ∃ u, sample u = (none, t) := by
  induction n generalizing s with
  | zero => exact ⟨s, h⟩
  | succ n ih =>
    rw [poll] at h
    split at h
    · simp at h
    · exact ih h

/-- Everything a poll can do (R17): an invariant that knows the counter's value and that every sample without a
verdict keeps over the delay and the count gives, at the end, what a sample gives from it. -/
theorem poll_spec {α : Type} {sample : State → Option α × State} {setCtr : Word → State → State}
    {P : Nat → State → Prop} {Q : Option α → State → Prop}
    (hsome : ∀ n s a t, P n s → sample s = (some a, t) → Q (some a) t)
    (hnone : ∀ s t, P 0 s → sample s = (none, t) → Q none t)
    (hnext : ∀ n s t, P (n + 1) s → sample s = (none, t) → P n (setCtr (BitVec.ofNat 32 n) (delayUs 1 t)))
    {n : Nat} {s : State} (h : P n s) : Q (poll sample setCtr n s).1 (poll sample setCtr n s).2 := by
  induction n generalizing s with
  | zero =>
    rw [poll]
    rcases hs : sample s with ⟨_ | a, t⟩
    · exact hnone s t h hs
    · exact hsome 0 s a t h hs
  | succ n ih =>
    rw [poll]
    rcases hs : sample s with ⟨_ | a, t⟩
    · exact ih (hnext n s t h hs)
    · exact hsome _ s a t h hs

/-! ## Completion -/

@[simp] theorem commitRsm_eq (c : Code) (sb : Byte) (s : State) :
    commitRsm c sb s = { s with err := c.bits, busy := false, rsm := { s.rsm with statusByte := .wrote sb },
                                port := { s.port with resp := .wrote (respWord (sb.setWidth 24) c.bits) } } := rfl

theorem respWord_getLsbD (v : Len) (c : BitVec 4) (i : Nat) :
    (respWord v c).getLsbD i = if i < 4 then c.getLsbD i else if i < 8 then false else v.getLsbD (i - 8) := by
  unfold respWord
  rw [BitVec.getLsbD_append, BitVec.getLsbD_append]
  by_cases h4 : i < 4
  · simp [h4, show i < 8 by omega]
  · by_cases h8 : i < 8
    · simp [h4, h8]
    · simp [h4, h8]

@[simp] theorem respCode_respWord (v : Len) (c : BitVec 4) : respCode (respWord v c) = c := by
  apply BitVec.eq_of_getLsbD_eq
  intro i hi
  simp [respCode, respWord_getLsbD, hi]

@[simp] theorem respVal_respWord (v : Len) (c : BitVec 4) : respVal (respWord v c) = v := by
  apply BitVec.eq_of_getLsbD_eq
  intro i hi
  simp [respVal, respWord_getLsbD, hi, show ¬ 8 + i < 4 by omega]

@[simp] theorem respMiddle_respWord (v : Len) (c : BitVec 4) : respMiddle (respWord v c) = 0 := by
  apply BitVec.eq_of_getLsbD_eq
  intro i hi
  simp [respMiddle, respWord_getLsbD, show 4 + i < 8 by omega]

/-! ## Collaborator calls -/

theorem rereadAnswer_cons {p : Nat} {s : State} {a : RereadAnswer} {rest : List RereadAnswer}
    (h : s.env.rereads = a :: rest) :
    rereadAnswer p s = (a, { s with env := { s.env with rereads := rest } }) := by
  simp [rereadAnswer, h]

theorem oobAnswer_cons {p : Nat} {s : State} {a : OobAnswer} {rest : List OobAnswer} (h : s.env.oobs = a :: rest) :
    oobAnswer p s = (a, { s with env := { s.env with oobs := rest } }) := by
  simp [oobAnswer, h]

@[simp] theorem length_imageBytes (c : Config) (a : RereadAnswer) (es : List Event) :
    (imageBytes c a es).length = c.pageImage := by
  simp [imageBytes]

/-- Everything a re-read can do when its destination lies in BUFMEM (R69). -/
theorem pageReread_of_le {p dst : Nat} {s : State} (h : dst + s.cfg.pageImage ≤ s.cfg.bufmemSize) :
    ∃ (a : RereadAnswer) (e : Answers), a = (rereadAnswer p s).1 ∧ e.reads = s.env.reads ∧ e.oobs = s.env.oobs ∧
      pageReread p dst s =
        .ok (a.ok, { applyHavoc a.havoc s with
          env := e, bufmem := Memory.storeAll s.bufmem dst (imageBytes s.cfg a s.trace),
          trace := .reread p a.ok :: s.trace }) := by
  refine ⟨(rereadAnswer p s).1, (rereadAnswer p s).2.env, rfl, ?_⟩
  unfold pageReread rereadAnswer
  rw [if_pos h]
  split <;> exact ⟨rfl, rfl, rfl⟩

/-- The read-back region lies in BUFMEM as far as an OOB read writes to it. -/
theorem stagedBytes_le (c : Config) (a : OobAnswer) (h : stagedBytes c a ≠ []) :
    c.rbufBase + (stagedBytes c a).length ≤ c.bufmemSize := by
  have := List.length_pos_iff.mpr h
  simp only [stagedBytes, List.length_take] at this ⊢
  omega

theorem length_stagedBytes_le (c : Config) (a : OobAnswer) : (stagedBytes c a).length ≤ c.pageImage := by
  simp only [stagedBytes, List.length_take]
  omega

/-- Where the read-back region lies in BUFMEM, an OOB read leaves each of its bytes as the answer says (R251). -/
theorem lookup_readBack {c : Config} (a : OobAnswer) (mem : List Host.Cell) (h : c.rbufBase + c.pageImage ≤ c.bufmemSize)
    {j : Nat} (hj : j < c.pageImage) :
    Memory.lookup (Memory.overlay mem c.rbufBase (stagedBytes c a)) (c.rbufBase + j) =
      (a.staged[j]?.join).or (Memory.lookup mem (c.rbufBase + j)) := by
  rw [Memory.lookup_overlay, stagedBytes, List.getElem?_take_of_lt (by omega)]

/-- Everything an OOB read can do (R69, R251). -/
theorem readOob_state (p off len : Nat) (s : State) :
    ∃ (a : OobAnswer) (e : Answers), a = (oobAnswer p s).1 ∧ e.reads = s.env.reads ∧ e.rereads = s.env.rereads ∧
      readOob p off len s =
        (a.res, { applyHavoc a.havoc s with
          env := e, bufmem := Memory.overlay s.bufmem s.cfg.rbufBase (stagedBytes s.cfg a),
          trace := .readOob p off len a.res :: s.trace }) := by
  refine ⟨(oobAnswer p s).1, (oobAnswer p s).2.env, rfl, ?_⟩
  unfold readOob oobAnswer
  split <;> exact ⟨rfl, rfl, rfl⟩

end Sys2Proof.Machine
end

