-- ==== Sys2Proof/Laws/Dte.lean ====
section
/-! SUPPORT. What PULL and PUSH can do: the poll of one word, the loop, and an invariant of each loop that says which
bytes have moved, how many polls and delays that took, and that nothing else changed. -/

namespace Sys2Proof.Machine

/-! ## Views of events -/

theorem delaySum_append' (es fs : List Event) : delaySum (es ++ fs) = delaySum es + delaySum fs := by
  induction es with
  | nil => simp [delaySum]
  | cons e es ih => cases e <;> simp [delaySum, ih, Nat.add_assoc]

theorem dataReads_append (es fs : List Event) : dataReads (es ++ fs) = dataReads fs ++ dataReads es := by
  simp [dataReads]

theorem dataWrites_append (es fs : List Event) : dataWrites (es ++ fs) = dataWrites fs ++ dataWrites es := by
  simp [dataWrites]

theorem regReadCountOf_append (r : NfcReg) (es fs : List Event) :
    regReadCountOf r (es ++ fs) = regReadCountOf r es + regReadCountOf r fs := by
  simp [regReadCountOf]

/-- The events of buffer accesses move no DATA word, read no register and delay nothing. -/
structure Plain (es : List Event) : Prop where
  reads : dataReads es = []
  writes : dataWrites es = []
  regs : ∀ r, regReadCountOf r es = 0
  delay : delaySum es = 0
  noWrite : ∀ e ∈ es, isRegWrite e = false

theorem plain_writeEvents (a : Nat) (bs : List Byte) : Plain (writeEvents a bs) := by
  induction bs generalizing a with
  | nil => exact ⟨rfl, rfl, fun _ => rfl, rfl, by simp [writeEvents]⟩
  | cons b bs ih =>
    obtain ⟨h1, h2, h3, h4, h5⟩ := ih (a + 1)
    refine ⟨by simp [writeEvents, dataReads_append, h1]; rfl, by simp [writeEvents, dataWrites_append, h2]; rfl,
      fun r => by simp [writeEvents, regReadCountOf_append, h3]; rfl, by simp [writeEvents, delaySum_append', h4, delaySum],
      ?_⟩
    intro e he
    simp only [writeEvents, List.mem_append, List.mem_singleton] at he
    rcases he with he | rfl
    · exact h5 e he
    · rfl

theorem plain_readEvents (a : Nat) (bs : List Byte) : Plain (readEvents a bs) := by
  induction bs generalizing a with
  | nil => exact ⟨rfl, rfl, fun _ => rfl, rfl, by simp [readEvents]⟩
  | cons b bs ih =>
    obtain ⟨h1, h2, h3, h4, h5⟩ := ih (a + 1)
    refine ⟨by simp [readEvents, dataReads_append, h1]; rfl, by simp [readEvents, dataWrites_append, h2]; rfl,
      fun r => by simp [readEvents, regReadCountOf_append, h3]; rfl, by simp [readEvents, delaySum_append', h4, delaySum],
      ?_⟩
    intro e he
    simp only [readEvents, List.mem_append, List.mem_singleton] at he
    rcases he with he | rfl
    · exact h5 e he
    · rfl

/-! ## The poll of one word -/

/-- The NFC registers other than the two the DTE accesses. -/
def otherRegs (f : NfcFile Word) : NfcFile Word := { f with interruptStatus := 0, data := 0 }

@[simp] theorem otherRegs_set_ist (f : NfcFile Word) (v : Word) : otherRegs (f.set .interruptStatus v) = otherRegs f := rfl
@[simp] theorem otherRegs_set_data (f : NfcFile Word) (v : Word) : otherRegs (f.set .data v) = otherRegs f := rfl

theorem otherRegs_get {f g : NfcFile Word} (h : otherRegs f = otherRegs g) {r : NfcReg} (h1 : r ≠ .interruptStatus)
    (h2 : r ≠ .data) : f.get r = g.get r := by
  have := congrArg (·.get r) h
  cases r <;> first | exact absurd rfl h1 | exact absurd rfl h2 | exact this

/-- What the polling of the DTE does not touch. -/
def dteKept (s : State) :=
  (s.cfg, s.port, s.busy, s.inRecovery, s.err, s.fsm, s.rsm, s.ecv, s.bbd, s.fsmPath, s.hostq, s.env.rereads,
   s.env.oobs, otherRegs s.nfc)

/-- Polling INTERRUPT_STATUS with `idle` delays (R96, R98): the history it adds, and what is left of `dte_retry`. -/
structure DtePolled (s t : State) (es : List Event) (idle : Nat) : Prop where
  kept : dteKept t = dteKept s
  bufmem : t.bufmem = s.bufmem
  dte : t.dte = { s.dte with retry := t.dte.retry }
  retry : t.dte.retry.toNat + idle = s.dte.retry.toNat
  trace : t.trace = es ++ s.trace
  elapsed : t.elapsedUs = s.elapsedUs + idle
  delay : delaySum es = idle
  noData : dataReads es = [] ∧ dataWrites es = []
  noWrite : ∀ e ∈ es, isRegWrite e = false

theorem DtePolled.refl (s : State) : DtePolled s s [] 0 :=
  ⟨rfl, rfl, rfl, rfl, rfl, rfl, rfl, ⟨rfl, rfl⟩, by simp⟩

theorem DtePolled.sample {s t : State} {es : List Event} {idle : Nat} (h : DtePolled s t es idle) :
    DtePolled s (regRead .interruptStatus t).2
      (.regRead .interruptStatus (regRead .interruptStatus t).1 :: es) idle where
  kept := by rw [← h.kept]; simp [dteKept]
  bufmem := by simpa using h.bufmem
  dte := by simpa using h.dte
  retry := by simpa using h.retry
  trace := by simp [h.trace]
  elapsed := by simpa using h.elapsed
  delay := by simpa [delaySum] using h.delay
  noData := by simpa [dataReads, dataWrites, dataRead?, dataWritten?] using h.noData
  noWrite := by
    intro e he
    rcases List.mem_cons.mp he with rfl | he
    · rfl
    · exact h.noWrite e he

theorem DtePolled.idle {s t : State} {es : List Event} {idle m : Nat} (h : DtePolled s t es idle)
    (hm : t.dte.retry.toNat = m + 1) :
    DtePolled s (setDteRetry (BitVec.ofNat 32 m) (delayUs 1 t)) (.delay 1 :: es) (idle + 1) where
  kept := h.kept
  bufmem := h.bufmem
  dte := by have := h.dte; simp only [setDteRetry_dte, delayUs_dte]; rw [this]
  retry := by
    have h1 := h.retry
    have h2 := t.dte.retry.isLt
    simp only [setDteRetry_dte, BitVec.toNat_ofNat]
    omega
  trace := by simp [h.trace]
  elapsed := by simp [h.elapsed, Nat.add_assoc]
  delay := by simp [delaySum, h.delay, Nat.add_comm]
  noData := by simpa [dataReads, dataWrites, dataRead?, dataWritten?] using h.noData
  noWrite := by
    intro e he
    rcases List.mem_cons.mp he with rfl | he
    · rfl
    · exact h.noWrite e he

/-- Everything the poll of one word can do: it samples once more than it delays, and without a verdict nothing is left
of `dte_retry` (R101). -/
theorem dtePoll_spec (mask : Word) (s : State) :
    ∃ es idle, DtePolled s (poll (dteSample mask) setDteRetry s.dte.retry.toNat s).2 es idle ∧
      regReadCountOf .interruptStatus es = idle + 1 ∧
      ((poll (dteSample mask) setDteRetry s.dte.retry.toNat s).1 = none →
        (poll (dteSample mask) setDteRetry s.dte.retry.toNat s).2.dte.retry = 0) := by
  have hsnd : ∀ u, (dteSample mask u).2 = (regRead .interruptStatus u).2 := fun u => rfl
  refine poll_spec (sample := dteSample mask) (setCtr := setDteRetry)
    (P := fun m u => u.dte.retry.toNat = m ∧ ∃ es idle, DtePolled s u es idle ∧
      regReadCountOf .interruptStatus es = idle)
    (Q := fun a t => ∃ es idle, DtePolled s t es idle ∧ regReadCountOf .interruptStatus es = idle + 1 ∧
      (a = none → t.dte.retry = 0))
    ?_ ?_ ?_ ⟨rfl, [], 0, .refl s, rfl⟩
  · rintro m u a t ⟨-, es, idle, hp, hc⟩ hs
    obtain rfl : (regRead .interruptStatus u).2 = t := by rw [← hsnd, hs]
    exact ⟨_, idle, hp.sample, by simp [regReadCountOf, isRegReadOf] at hc ⊢; exact hc, by simp⟩
  · rintro u t ⟨hm, es, idle, hp, hc⟩ hs
    obtain rfl : (regRead .interruptStatus u).2 = t := by rw [← hsnd, hs]
    refine ⟨_, idle, hp.sample, by simp [regReadCountOf, isRegReadOf] at hc ⊢; exact hc, fun _ => ?_⟩
    apply BitVec.eq_of_toNat_eq
    simpa using hm
  · rintro m u t ⟨hm, es, idle, hp, hc⟩ hs
    obtain rfl : (regRead .interruptStatus u).2 = t := by rw [← hsnd, hs]
    have h1 := hp.sample.idle (m := m) (by simpa using hm)
    refine ⟨?_, _, _, h1, by simp [regReadCountOf, isRegReadOf] at hc ⊢; exact hc⟩
    have h2 := h1.retry
    have h3 := hp.retry
    omega

/-! ## The loop -/

/-- Everything the loop of R96 and R98 can do. -/
theorem dteLoop_spec {mask : Word} {move : State → Except Fault State} {P : Nat → State → Prop}
    {Q : Code → State → Prop} (hdone : ∀ s, P 0 s → Q .ok s)
    (hpoll : ∀ n s, P (n + 1) s → ∀ r, poll (dteSample mask) setDteRetry s.dte.retry.toNat s = r →
      (r.1 = none → Q .hardwareTimeout r.2) ∧ (r.1 = some .done → Q .transferShort r.2) ∧
      (r.1 = some .ready → ∀ u, move r.2 = .ok u → P n u))
    {n : Nat} {s t : State} {code : Code} (h : P n s) (hr : dteLoop mask move n s = .ok (code, t)) : Q code t := by
  induction n generalizing s with
  | zero =>
    simp only [dteLoop, Except.ok.injEq, Prod.mk.injEq] at hr
    obtain ⟨rfl, rfl⟩ := hr
    exact hdone _ h
  | succ n ih =>
    rw [dteLoop] at hr
    obtain ⟨h1, h2, h3⟩ := hpoll n s h _ rfl
    split at hr
    · next u hu =>
      simp only [Except.ok.injEq, Prod.mk.injEq] at hr
      obtain ⟨rfl, rfl⟩ := hr
      rw [hu] at h1; exact h1 rfl
    · next u hu =>
      simp only [Except.ok.injEq, Prod.mk.injEq] at hr
      obtain ⟨rfl, rfl⟩ := hr
      rw [hu] at h2; exact h2 rfl
    · next u hu =>
      split at hr
      · simp at hr
      · next v hv => rw [hu] at h3; exact ih (h3 rfl v hv) hr

/-- The loop ends when every word can be moved (R103, R250). -/
theorem dteLoop_total {mask : Word} {move : State → Except Fault State} {P : Nat → State → Prop}
    (hmove : ∀ n s, P (n + 1) s → ∀ t, poll (dteSample mask) setDteRetry s.dte.retry.toNat s = (some .ready, t) →
      ∃ u, move t = .ok u ∧ P n u) {n : Nat} {s : State} (h : P n s) :
    ∃ code t, dteLoop mask move n s = .ok (code, t) := by
  induction n generalizing s with
  | zero => exact ⟨_, _, rfl⟩
  | succ n ih =>
    rw [dteLoop]
    split
    · exact ⟨_, _, rfl⟩
    · exact ⟨_, _, rfl⟩
    · next t ht =>
      obtain ⟨u, hu, hp⟩ := hmove n s h t ht
      rw [hu]
      exact ih hp

/-- The sample that lets a word be moved (R100). -/
theorem dteLoop_ready {mask : Word} {move : State → Except Fault State} {n : Nat} {s : State}
    (h : anySet (regRead .interruptStatus s).1 mask = true) :
    dteLoop mask move (n + 1) s = (match move (regRead .interruptStatus s).2 with
      | .error f => .error f
      | .ok t => dteLoop mask move n t) := by
  have hs : dteSample mask s = (some .ready, (regRead .interruptStatus s).2) := by simp [dteSample, h]
  have hp : ∀ m, poll (dteSample mask) setDteRetry m s = (some .ready, (regRead .interruptStatus s).2) := by
    intro m; cases m <;> simp [poll, hs]
  cases hm : move (regRead .interruptStatus s).2 <;> simp only [dteLoop, hp, hm]

/-- An idle sample within the budget: the loop goes on from the state after the delay (R100, R101). -/
theorem dteLoop_idle {mask : Word} {move : State → Except Fault State} {n m : Nat} {s : State}
    (h : anySet (regRead .interruptStatus s).1 mask = false)
    (hd : istDone s.cfg (regRead .interruptStatus s).1 = false) (hm : s.dte.retry.toNat = m + 1) :
    dteLoop mask move (n + 1) s =
      dteLoop mask move (n + 1) (setDteRetry (BitVec.ofNat 32 m) (delayUs 1 (regRead .interruptStatus s).2)) := by
  have hs : dteSample mask s = (none, (regRead .interruptStatus s).2) := by simp [dteSample, h, hd]
  have hlt := s.dte.retry.isLt
  have hr : (setDteRetry (BitVec.ofNat 32 m) (delayUs 1 (regRead .interruptStatus s).2)).dte.retry.toNat = m := by
    simp only [setDteRetry_dte, BitVec.toNat_ofNat]; omega
  rw [dteLoop, dteLoop, hr, hm, poll, hs]

/-- A transfer of at least one word that ends with OK ends where its last word ends: a sample with the ready bit, then
the move of that word (R96, R98). -/
theorem dteLoop_lastWord {mask : Word} {move : State → Except Fault State} {n : Nat} {s t : State} (hn : n ≠ 0)
    (h : dteLoop mask move n s = .ok (.ok, t)) :
    ∃ u, anySet (regRead .interruptStatus u).1 mask = true ∧ move (regRead .interruptStatus u).2 = .ok t := by
  refine dteLoop_spec (mask := mask) (move := move)
    (P := fun m u => m = n ∨ ∃ v, anySet (regRead .interruptStatus v).1 mask = true ∧
      move (regRead .interruptStatus v).2 = .ok u)
    (Q := fun c t => c = .ok → ∃ u, anySet (regRead .interruptStatus u).1 mask = true ∧
      move (regRead .interruptStatus u).2 = .ok t)
    ?_ ?_ (.inl rfl) h rfl
  · rintro u (h0 | hu) -
    · exact absurd h0.symm hn
    · exact hu
  · rintro m u - r hr
    refine ⟨by simp, by simp, fun hready w hw => .inr ?_⟩
    obtain ⟨v, hv⟩ := poll_some (sample := dteSample mask) (setCtr := setDteRetry) (hr.trans (Prod.ext hready rfl))
    simp only [dteSample, Prod.mk.injEq] at hv
    obtain ⟨h1, h2⟩ := hv
    refine ⟨v, ?_, by rw [h2]; exact hw⟩
    split at h1
    · assumption
    · split at h1 <;> simp at h1

/-! ## Words and bytes -/

theorem length_bytesOfWords (ws : List Word) : (bytesOfWords ws).length = 4 * ws.length := by
  induction ws with
  | nil => rfl
  | cons w ws ih =>
    simp only [bytesOfWords] at ih
    simp only [bytesOfWords, List.flatMap_cons, List.length_append, ih, List.length_cons]
    simp [wordBytes]
    omega

theorem take_wordBytes {k : Nat} (w : Word) (hk : k ≤ 4) : (wordBytes w 4).take k = wordBytes w k := by
  simp [wordBytes, ← List.map_take, List.take_range, hk]

theorem take_bytesOfWords_append {ws : List Word} (w : Word) {k : Nat} (hk : k ≤ 4) :
    (bytesOfWords (ws ++ [w])).take (4 * ws.length + k) = bytesOfWords ws ++ wordBytes w k := by
  have : bytesOfWords (ws ++ [w]) = bytesOfWords ws ++ wordBytes w 4 := by simp [bytesOfWords]
  rw [this, ← length_bytesOfWords, List.take_length_add_append, take_wordBytes w hk]

theorem wordsOfBytes_append {bs cs : List Byte} (hb : bs.length % 4 = 0) (h0 : cs ≠ []) (h4 : cs.length ≤ 4) :
    wordsOfBytes (bs ++ cs) = wordsOfBytes bs ++ [wordOfBytes cs] := by
  induction bs using wordsOfBytes.induct with
  | case1 b₀ b₁ b₂ b₃ rest ih =>
    simp only [List.length_cons] at hb
    have := ih (by omega)
    simp only [List.cons_append, wordsOfBytes]
    rw [← this]
  | case2 =>
    match cs, h0, h4 with
    | [a], _, _ => rfl
    | [a, b], _, _ => rfl
    | [a, b, c], _, _ => rfl
    | [a, b, c, d], _, _ => rfl
    | a :: b :: c :: d :: e :: l, _, h => simp at h; omega
  | case3 tail h1 h2 =>
    match tail with
    | [] => exact absurd rfl h2
    | [a] => simp at hb
    | [a, b] => simp at hb
    | [a, b, c] => simp at hb
    | a :: b :: c :: d :: l => exact absurd rfl (h1 a b c d l)

theorem length_wordsOfBytes (bs : List Byte) : (wordsOfBytes bs).length = dteWords bs.length := by
  induction bs using wordsOfBytes.induct with
  | case1 b₀ b₁ b₂ b₃ rest ih => simp only [wordsOfBytes, List.length_cons, ih, dteWords]; omega
  | case2 => rfl
  | case3 tail h1 h2 =>
    match tail with
    | [] => exact absurd rfl h2
    | [a] => simp [wordsOfBytes, dteWords]
    | [a, b] => simp [wordsOfBytes, dteWords]
    | [a, b, c] => simp [wordsOfBytes, dteWords]
    | a :: b :: c :: d :: l => exact absurd rfl (h1 a b c d l)

end Sys2Proof.Machine

namespace Sys2Proof.Machine.Memory

theorem storeAll_append (m : List Host.Cell) (a : Nat) (xs ys : List Byte) :
    storeAll m a (xs ++ ys) = storeAll (storeAll m a xs) (a + xs.length) ys := by
  induction xs generalizing m a with
  | nil => rfl
  | cons x xs ih =>
    rw [List.cons_append, storeAll, ih, storeAll]
    congr 1
    simp; omega

end Sys2Proof.Machine.Memory

namespace Sys2Proof.Machine

/-! ## A running transfer -/

/-- What holds of PULL and PUSH at every turn of their loop: the bytes moved so far, and what the history `es` of the
operation says of polls and delays; `last` is 1 once the sample that ends the loop has been taken (R97, R101, R103). -/
structure DteRun (s : State) (dir : Dir) (len : Len) (budget : Nat) (u : State) (es : List Event) (last : Nat) :
    Prop where
  kept : dteKept u = dteKept s
  lenEq : u.dte.len = len
  dirEq : u.dte.dir = dir
  cnt_le : u.dte.cnt.toNat ≤ len.toNat
  whole : u.dte.cnt.toNat % 4 = 0 ∨ u.dte.cnt.toNat = len.toNat
  trace : u.trace = es ++ s.trace
  elapsed : u.elapsedUs = s.elapsedUs + delaySum es
  retry : u.dte.retry.toNat + delaySum es = budget
  polls : regReadCountOf .interruptStatus es = dteWords u.dte.cnt.toNat + delaySum es + last

theorem DteRun.start {s : State} {dir : Dir} {len : Len} {budget : Nat} (hb : budget < 2 ^ 32) :
    DteRun s dir len budget (startDte dir len budget s) [] 0 where
  kept := rfl
  lenEq := rfl
  dirEq := rfl
  cnt_le := by simp [startDte]
  whole := .inl rfl
  trace := rfl
  elapsed := rfl
  retry := by simp [startDte, delaySum]; exact hb
  polls := by simp [regReadCountOf, startDte, dteWords, delaySum]

/-- A poll of a running transfer. -/
theorem DteRun.afterPoll {s : State} {dir : Dir} {len : Len} {budget : Nat} {u t : State} {es fs : List Event} {idle : Nat}
    (h : DteRun s dir len budget u es 0) (hp : DtePolled u t fs idle)
    (hc : regReadCountOf .interruptStatus fs = idle + 1) : DteRun s dir len budget t (fs ++ es) 1 where
  kept := hp.kept.trans h.kept
  lenEq := by rw [hp.dte]; exact h.lenEq
  dirEq := by rw [hp.dte]; exact h.dirEq
  cnt_le := by rw [hp.dte]; exact h.cnt_le
  whole := by rw [hp.dte]; exact h.whole
  trace := by rw [hp.trace, h.trace, List.append_assoc]
  elapsed := by rw [hp.elapsed, h.elapsed, delaySum_append', hp.delay]; omega
  retry := by have := hp.retry; have := h.retry; rw [delaySum_append', hp.delay]; omega
  polls := by
    have h2 : t.dte.cnt = u.dte.cnt := by rw [hp.dte]
    rw [regReadCountOf_append, hc, h.polls, delaySum_append', hp.delay, h2]; omega

/-- A word of a running transfer, whose events `fs` poll nothing and delay nothing. -/
theorem DteRun.word {s : State} {dir : Dir} {len : Len} {budget : Nat} {u t : State} {es fs : List Event}
    (h : DteRun s dir len budget u es 1) (hlt : u.dte.cnt.toNat < len.toNat) (hkept : dteKept t = dteKept u)
    (hdte : t.dte = { u.dte with cnt := u.dte.cnt + BitVec.ofNat 24 (dteChunk u.dte) }) (htr : t.trace = fs ++ u.trace)
    (hel : t.elapsedUs = u.elapsedUs) (hd : delaySum fs = 0) (hp : regReadCountOf .interruptStatus fs = 0) :
    DteRun s dir len budget t (fs ++ es) 0 ∧ t.dte.cnt.toNat = u.dte.cnt.toNat + dteChunk u.dte := by
  have hk : dteChunk u.dte = min 4 (len.toNat - u.dte.cnt.toNat) := by rw [dteChunk, h.lenEq]
  have hl := len.isLt
  have hc : t.dte.cnt.toNat = u.dte.cnt.toNat + dteChunk u.dte := by
    rw [hdte, hk]
    simp only [BitVec.toNat_add, BitVec.toNat_ofNat]
    omega
  have hw := h.whole
  refine ⟨?_, hc⟩
  constructor
  · exact hkept.trans h.kept
  · rw [hdte]; exact h.lenEq
  · rw [hdte]; exact h.dirEq
  · omega
  · omega
  · rw [htr, h.trace, List.append_assoc]
  · rw [hel, h.elapsed, delaySum_append', hd]; omega
  · have := h.retry; rw [delaySum_append', hd]; simp only [hdte]; omega
  · rw [regReadCountOf_append, hp, h.polls, delaySum_append', hd, hc]
    simp only [dteWords]
    omega

theorem DteRun.chunk {s : State} {dir : Dir} {len : Len} {budget : Nat} {u : State} {es : List Event} {last : Nat}
    (h : DteRun s dir len budget u es last) : dteChunk u.dte = min 4 (len.toNat - u.dte.cnt.toNat) := by
  rw [dteChunk, h.lenEq]

theorem DteRun.cfg {s : State} {dir : Dir} {len : Len} {budget : Nat} {u : State} {es : List Event} {last : Nat}
    (h : DteRun s dir len budget u es last) : u.cfg = s.cfg := congrArg (·.1) h.kept

/-- What the sample that ends a transfer early says (R100): the ready bit is clear, and `done` tells a short transfer
from an idle sample. -/
def EndsShort (s : State) (mask : Word) (code : Code) (t : State) : Prop :=
  ∃ v rest, t.trace = .regRead .interruptStatus v :: rest ∧ anySet v mask = false ∧
    (code = .transferShort ∧ istDone s.cfg v = true ∨
      code = .hardwareTimeout ∧ istDone s.cfg v = false ∧ t.dte.retry = 0)

/-- Everything the poll of one word of a running transfer can do. -/
theorem DteRun.polled {s : State} {dir : Dir} {len : Len} {budget : Nat} {u : State} {es : List Event} (mask : Word)
    (h : DteRun s dir len budget u es 0) :
    ∃ fs, (∀ r, poll (dteSample mask) setDteRetry u.dte.retry.toNat u = r →
      DteRun s dir len budget r.2 (fs ++ es) 1 ∧ r.2.dte.cnt = u.dte.cnt ∧ r.2.bufmem = u.bufmem ∧
      dataReads fs = [] ∧ dataWrites fs = [] ∧ (∀ e ∈ fs, isRegWrite e = false) ∧
      (r.1 = none → EndsShort s mask .hardwareTimeout r.2) ∧ (r.1 = some .done → EndsShort s mask .transferShort r.2)) := by
  obtain ⟨fs, idle, hp, hc, hz⟩ := dtePoll_spec mask u
  refine ⟨fs, ?_⟩
  rintro r rfl
  have hrun := h.afterPoll hp hc
  refine ⟨hrun, by rw [hp.dte], hp.bufmem, hp.noData.1, hp.noData.2, hp.noWrite, fun hn => ?_, fun hn => ?_⟩
  · obtain ⟨v, hv⟩ := poll_none (sample := dteSample mask) (setCtr := setDteRetry) (Prod.ext hn rfl)
    have hcfg : v.cfg = s.cfg := by
      have h1 : v.cfg = (dteSample mask v).2.cfg := by simp [dteSample]
      rw [h1, hv]; exact hrun.cfg
    have h2 : (dteSample mask v).2 = (poll (dteSample mask) setDteRetry u.dte.retry.toNat u).2 := by rw [hv]
    have h3 : (dteSample mask v).1 = none := by rw [hv]
    refine ⟨(regRead .interruptStatus v).1, v.trace, ?_, ?_, .inr ⟨rfl, ?_, hz hn⟩⟩
    · rw [← h2]; simp [dteSample]
    · simp only [dteSample] at h3; split at h3 <;> simp_all
    · simp only [dteSample] at h3
      rw [← hcfg]
      split at h3
      · simp at h3
      · split at h3
        · simp at h3
        · next hh => simpa using hh
  · obtain ⟨v, hv⟩ := poll_some (sample := dteSample mask) (setCtr := setDteRetry) (Prod.ext hn rfl)
    have hcfg : v.cfg = s.cfg := by
      have h1 : v.cfg = (dteSample mask v).2.cfg := by simp [dteSample]
      rw [h1, hv]; exact hrun.cfg
    have h2 : (dteSample mask v).2 = (poll (dteSample mask) setDteRetry u.dte.retry.toNat u).2 := by rw [hv]
    have h3 : (dteSample mask v).1 = some .done := by rw [hv]
    refine ⟨(regRead .interruptStatus v).1, v.trace, ?_, ?_, .inl ⟨rfl, ?_⟩⟩
    · rw [← h2]; simp [dteSample]
    · simp only [dteSample] at h3; split at h3 <;> simp_all
    · simp only [dteSample] at h3
      rw [← hcfg]
      split at h3
      · simp at h3
      · split at h3
        · assumption
        · simp at h3

/-! ## PULL -/

/-- The data of a running PULL (R57, R96): the low bytes of the DATA words read stand in the buffer, in order, and the
only register written is INTERRUPT_STATUS, with `rx_ready`. -/
structure PullData (s : State) (buf : Nat) (u : State) (es : List Event) : Prop where
  words : (dataReads es).length = dteWords u.dte.cnt.toNat
  bufmem : u.bufmem = Memory.storeAll s.bufmem buf ((bytesOfWords (dataReads es)).take u.dte.cnt.toNat)
  noPush : dataWrites es = []
  writes : ∀ e ∈ es, isRegWrite e = true → e = .regWrite .interruptStatus s.cfg.intRxReady
  count : es.countP isRegWrite = dteWords u.dte.cnt.toNat

/-- The data of a running PUSH (R58, R98): the DATA words written are those of the buffer's bytes, in order, BUFMEM is
unchanged, and the only other register written is INTERRUPT_STATUS, with `tx_ready`. -/
structure PushData (s : State) (buf : Nat) (u : State) (es : List Event) : Prop where
  words : ∃ bs : List Byte, bs.length = u.dte.cnt.toNat ∧
    (∀ i (hi : i < bs.length), Memory.lookup s.bufmem (buf + i) = some bs[i]) ∧ dataWrites es = wordsOfBytes bs
  bufmem : u.bufmem = s.bufmem
  noPull : dataReads es = []
  writes : ∀ e ∈ es, isRegWrite e = true →
    e = .regWrite .interruptStatus s.cfg.intTxReady ∨ ∃ w, e = .regWrite .data w
  count : es.countP isRegWrite = 2 * dteWords u.dte.cnt.toNat

theorem PullData.afterPoll {s : State} {buf : Nat} {u t : State} {es fs : List Event} (h : PullData s buf u es)
    (hc : t.dte.cnt = u.dte.cnt) (hb : t.bufmem = u.bufmem) (hr : dataReads fs = []) (hw : dataWrites fs = [])
    (hn : ∀ e ∈ fs, isRegWrite e = false) : PullData s buf t (fs ++ es) where
  words := by rw [dataReads_append, hr, List.append_nil, hc]; exact h.words
  bufmem := by rw [hb, dataReads_append, hr, List.append_nil, hc]; exact h.bufmem
  noPush := by rw [dataWrites_append, hw, h.noPush]; rfl
  writes := by
    intro e he hwr
    rcases List.mem_append.mp he with he | he
    · rw [hn e he] at hwr; simp at hwr
    · exact h.writes e he hwr
  count := by
    have : fs.countP isRegWrite = 0 := List.countP_eq_zero.mpr fun e he => by simp [hn e he]
    rw [List.countP_append, this, hc, h.count]; omega

theorem PushData.afterPoll {s : State} {buf : Nat} {u t : State} {es fs : List Event} (h : PushData s buf u es)
    (hc : t.dte.cnt = u.dte.cnt) (hb : t.bufmem = u.bufmem) (hr : dataReads fs = []) (hw : dataWrites fs = [])
    (hn : ∀ e ∈ fs, isRegWrite e = false) : PushData s buf t (fs ++ es) where
  words := by rw [dataWrites_append, hw, List.append_nil, hc]; exact h.words
  bufmem := hb.trans h.bufmem
  noPull := by rw [dataReads_append, hr, h.noPull]; rfl
  writes := by
    intro e he hwr
    rcases List.mem_append.mp he with he | he
    · rw [hn e he] at hwr; simp at hwr
    · exact h.writes e he hwr
  count := by
    have : fs.countP isRegWrite = 0 := List.countP_eq_zero.mpr fun e he => by simp [hn e he]
    rw [List.countP_append, this, hc, h.count]; omega

/-- The events of one word of PULL, newest first (R96). -/
def pullWordEvents (c : Config) (w : Word) (a k : Nat) : List Event :=
  .regWrite .interruptStatus c.intRxReady :: (writeEvents a (wordBytes w k) ++ [.regRead .data w])

/-- Everything one word of PULL does when its bytes lie in BUFMEM. -/
theorem pullWord_spec {buf : Nat} {u : State} (h : buf + u.dte.cnt.toNat + dteChunk u.dte ≤ u.cfg.bufmemSize) :
    ∃ w t, pullWord buf u = .ok t ∧ dteKept t = dteKept u ∧
      t.dte = { u.dte with cnt := u.dte.cnt + BitVec.ofNat 24 (dteChunk u.dte) } ∧
      t.trace = pullWordEvents u.cfg w (buf + u.dte.cnt.toNat) (dteChunk u.dte) ++ u.trace ∧
      t.elapsedUs = u.elapsedUs ∧
      t.bufmem = Memory.storeAll u.bufmem (buf + u.dte.cnt.toNat) (wordBytes w (dteChunk u.dte)) := by
  have hm := memWrites_of_le (s := (regRead .data u).2) (a := buf + u.dte.cnt.toNat)
    (bs := wordBytes (regRead .data u).1 (dteChunk u.dte)) (by simpa [wordBytes, Nat.add_assoc] using h)
  refine ⟨(regRead .data u).1, _, by rw [pullWord, hm], ?_, ?_, ?_, ?_, ?_⟩
  · simp [dteKept]
  · simp
  · simp [pullWordEvents]
  · simp
  · simp

theorem pullWordEvents_plain (c : Config) (w : Word) (a k : Nat) :
    delaySum (pullWordEvents c w a k) = 0 ∧ regReadCountOf .interruptStatus (pullWordEvents c w a k) = 0 ∧
    dataReads (pullWordEvents c w a k) = [w] ∧ dataWrites (pullWordEvents c w a k) = [] ∧
    (∀ e ∈ pullWordEvents c w a k, isRegWrite e = true → e = .regWrite .interruptStatus c.intRxReady) ∧
    (pullWordEvents c w a k).countP isRegWrite = 1 := by
  obtain ⟨h1, h2, h3, h4, h5⟩ := plain_writeEvents a (wordBytes w k)
  refine ⟨by simp [pullWordEvents, delaySum, delaySum_append', h4], ?_, ?_, ?_, ?_, ?_⟩
  · have := h3 .interruptStatus
    simp only [regReadCountOf] at this
    simp [pullWordEvents, regReadCountOf, isRegReadOf, this]
  · simp only [dataReads, List.reverse_eq_nil_iff] at h1
    rw [pullWordEvents, dataReads, List.filterMap_cons_none rfl, List.filterMap_append, h1]; rfl
  · simp only [dataWrites, List.reverse_eq_nil_iff] at h2
    rw [pullWordEvents, dataWrites, List.filterMap_cons_none rfl, List.filterMap_append, h2]; rfl
  · intro e he hw
    simp only [pullWordEvents, List.mem_cons, List.mem_append, List.not_mem_nil, or_false] at he
    rcases he with rfl | he | rfl
    · rfl
    · rw [h5 e he] at hw; simp at hw
    · simp [isRegWrite] at hw
  · have : (writeEvents a (wordBytes w k)).countP isRegWrite = 0 :=
      List.countP_eq_zero.mpr fun e he => by simp [h5 e he]
    rw [pullWordEvents, List.countP_cons_of_pos rfl, List.countP_append, this]; rfl

/-- One word of a running PULL. -/
theorem pullWord_run {s : State} {len : Len} {budget buf : Nat} {u : State} {es : List Event}
    (hr : regionInBufmem s.cfg len.toNat buf = true) (h : DteRun s .rx len budget u es 1) (hd : PullData s buf u es)
    (hlt : u.dte.cnt.toNat < len.toNat) :
    ∃ t fs, pullWord buf u = .ok t ∧ DteRun s .rx len budget t (fs ++ es) 0 ∧ PullData s buf t (fs ++ es) ∧
      t.dte.cnt.toNat = u.dte.cnt.toNat + min 4 (len.toNat - u.dte.cnt.toNat) := by
  simp only [regionInBufmem, Bool.and_eq_true, decide_eq_true_eq] at hr
  have hk := h.chunk
  obtain ⟨w, t, ht, hkept, hdte, htr, hel, hbm⟩ := pullWord_spec (buf := buf) (u := u) (by rw [h.cfg, hk]; omega)
  obtain ⟨p1, p2, p3, p4, p5, p6⟩ := pullWordEvents_plain u.cfg w (buf + u.dte.cnt.toNat) (dteChunk u.dte)
  obtain ⟨hrun, hcnt⟩ := h.word hlt hkept hdte htr hel p1 p2
  have hw4 : u.dte.cnt.toNat = 4 * (dataReads es).length := by
    have := h.whole; rw [hd.words]; simp only [dteWords]; omega
  refine ⟨t, _, ht, hrun, ?_, by rw [hcnt, hk]⟩
  constructor
  · rw [dataReads_append, p3, List.length_append, hd.words, hcnt, hk]
    have := h.whole
    simp only [dteWords, List.length_singleton]
    omega
  · have hlen : ((bytesOfWords (dataReads es)).take u.dte.cnt.toNat) = bytesOfWords (dataReads es) :=
      List.take_of_length_le (by rw [length_bytesOfWords]; omega)
    rw [hbm, hd.bufmem, hlen, dataReads_append, p3, hcnt]
    rw [show u.dte.cnt.toNat + dteChunk u.dte = 4 * (dataReads es).length + dteChunk u.dte by omega,
      take_bytesOfWords_append w (by omega), Memory.storeAll_append, length_bytesOfWords, ← hw4]
  · rw [dataWrites_append, p4, hd.noPush]; rfl
  · intro e he hw
    rcases List.mem_append.mp he with he | he
    · rw [← h.cfg]; exact p5 e he hw
    · exact hd.writes e he hw
  · have := h.whole
    rw [List.countP_append, p6, hd.count, hcnt, hk]
    simp only [dteWords]
    omega

/-- The loop of a transfer whose words can be moved: the common part of PULL and PUSH. -/
theorem dteLoop_run {s : State} {dir : Dir} {len : Len} {budget : Nat} {mask : Word}
    {move : State → Except Fault State} {D : State → List Event → Prop}
    (hD : ∀ {u t es fs}, D u es → t.dte.cnt = u.dte.cnt → t.bufmem = u.bufmem → dataReads fs = [] → dataWrites fs = [] →
      (∀ e ∈ fs, isRegWrite e = false) → D t (fs ++ es))
    (hmove : ∀ {u es}, DteRun s dir len budget u es 1 → D u es → u.dte.cnt.toNat < len.toNat →
      ∃ t fs, move u = .ok t ∧ DteRun s dir len budget t (fs ++ es) 0 ∧ D t (fs ++ es) ∧
        t.dte.cnt.toNat = u.dte.cnt.toNat + min 4 (len.toNat - u.dte.cnt.toNat))
    {n : Nat} {u : State} {es : List Event} (h : DteRun s dir len budget u es 0) (hd : D u es)
    (hn : dteWords (len.toNat - u.dte.cnt.toNat) = n) :
    ∃ code t fs last, dteLoop mask move n u = .ok (code, t) ∧ DteRun s dir len budget t fs last ∧ D t fs ∧
      (∃ gs, fs = gs ++ es) ∧ u.dte.cnt.toNat ≤ t.dte.cnt.toNat ∧
      (code = .ok ∧ t.dte.cnt = len ∧ last = 0 ∨
        t.dte.cnt.toNat < len.toNat ∧ last = 1 ∧ EndsShort s mask code t) := by
  induction n generalizing u es with
  | zero =>
    refine ⟨.ok, u, es, 0, rfl, h, hd, ⟨[], rfl⟩, le_rfl, .inl ⟨rfl, BitVec.eq_of_toNat_eq ?_, rfl⟩⟩
    have := h.cnt_le
    simp only [dteWords] at hn
    omega
  | succ n ih =>
    have hlt : u.dte.cnt.toNat < len.toNat := by simp only [dteWords] at hn; omega
    obtain ⟨fs, hp⟩ := h.polled mask
    obtain ⟨hrun, hcnt, hbm, hr, hw, hnw, hnone, hdone⟩ := hp _ rfl
    have hd' := hD hd hcnt hbm hr hw hnw
    rw [dteLoop]
    split
    · next t ht =>
      rw [ht] at hnone hrun hd' hcnt
      exact ⟨_, t, _, 1, rfl, hrun, hd', ⟨fs, rfl⟩, by simp only at hcnt; rw [hcnt],
        .inr ⟨by simp only at hcnt; rw [hcnt]; exact hlt, rfl, hnone rfl⟩⟩
    · next t ht =>
      rw [ht] at hdone hrun hd' hcnt
      exact ⟨_, t, _, 1, rfl, hrun, hd', ⟨fs, rfl⟩, by simp only at hcnt; rw [hcnt],
        .inr ⟨by simp only at hcnt; rw [hcnt]; exact hlt, rfl, hdone rfl⟩⟩
    · next t ht =>
      rw [ht] at hrun hd' hcnt
      simp only at hcnt hrun hd'
      obtain ⟨v, gs, hv, hrun', hd'', hc'⟩ := hmove hrun hd' (by rw [hcnt]; exact hlt)
      rw [hv]
      obtain ⟨code, w, ks, last, k1, k2, k3, ⟨ls, k4⟩, k5, k6⟩ :=
        ih hrun' hd'' (by rw [hc', hcnt]; simp only [dteWords] at hn ⊢; omega)
      refine ⟨code, w, ks, last, k1, k2, k3, ⟨ls ++ (gs ++ fs), by rw [k4]; simp⟩, ?_, k6⟩
      rw [hc', hcnt] at k5
      omega

/-- Everything an accepted PULL can do (R96, R97, R99 to R103). -/
theorem execPull_spec {len : Len} {buf : Word} {s : State} (hb : s.cfg.pullRetries < 2 ^ 32)
    (hr : regionInBufmem s.cfg len.toNat buf.toNat = true) :
    ∃ code t es last, execPull len buf s = .next (commit code t.dte.cnt t) ∧
      DteRun s .rx len s.cfg.pullRetries t es last ∧ PullData s buf.toNat t es ∧
      (code = .ok ∧ t.dte.cnt = len ∧ last = 0 ∨
        t.dte.cnt.toNat < len.toNat ∧ last = 1 ∧ EndsShort s s.cfg.intRxReady code t) := by
  have hd : PullData s buf.toNat (startDte .rx len s.cfg.pullRetries s) [] :=
    ⟨by simp [startDte, dteWords, dataReads], rfl, rfl, by simp, by simp [startDte, dteWords]⟩
  obtain ⟨code, t, es, last, h1, h2, h3, -, -, h4⟩ := dteLoop_run (mask := s.cfg.intRxReady) (D := PullData s buf.toNat)
    (move := pullWord buf.toNat) (fun h => h.afterPoll) (fun h hd hlt => pullWord_run hr h hd hlt) (DteRun.start hb) hd rfl
  refine ⟨code, t, es, last, ?_, h2, h3, h4⟩
  have hn : len.toNat - (startDte .rx len s.cfg.pullRetries s).dte.cnt.toNat = len.toNat := by simp [startDte]
  rw [hn] at h1
  rw [execPull, h1, finishDte]

/-! ## PUSH -/

/-- The events of one word of PUSH, newest first (R98). -/
def pushWordEvents (c : Config) (bs : List Byte) (a : Nat) : List Event :=
  .regWrite .interruptStatus c.intTxReady :: .regWrite .data (wordOfBytes bs) :: readEvents a bs

theorem pushWordEvents_plain (c : Config) (bs : List Byte) (a : Nat) :
    delaySum (pushWordEvents c bs a) = 0 ∧ regReadCountOf .interruptStatus (pushWordEvents c bs a) = 0 ∧
    dataReads (pushWordEvents c bs a) = [] ∧ dataWrites (pushWordEvents c bs a) = [wordOfBytes bs] ∧
    (∀ e ∈ pushWordEvents c bs a, isRegWrite e = true →
      e = .regWrite .interruptStatus c.intTxReady ∨ ∃ w, e = .regWrite .data w) ∧
    (pushWordEvents c bs a).countP isRegWrite = 2 := by
  obtain ⟨h1, h2, h3, h4, h5⟩ := plain_readEvents a bs
  refine ⟨by simp [pushWordEvents, delaySum, h4], ?_, ?_, ?_, ?_, ?_⟩
  · have := h3 .interruptStatus
    simp only [regReadCountOf] at this
    simp [pushWordEvents, regReadCountOf, isRegReadOf, this]
  · simp only [dataReads, List.reverse_eq_nil_iff] at h1
    rw [pushWordEvents, dataReads, List.filterMap_cons_none rfl, List.filterMap_cons_none rfl, h1]; rfl
  · simp only [dataWrites, List.reverse_eq_nil_iff] at h2
    rw [pushWordEvents, dataWrites, List.filterMap_cons_none rfl, List.filterMap_cons_some (f := dataWritten?) (b := wordOfBytes bs) rfl, h2]; rfl
  · intro e he hw
    simp only [pushWordEvents, List.mem_cons] at he
    rcases he with rfl | rfl | he
    · exact .inl rfl
    · exact .inr ⟨_, rfl⟩
    · rw [h5 e he] at hw; simp at hw
  · have : (readEvents a bs).countP isRegWrite = 0 := List.countP_eq_zero.mpr fun e he => by simp [h5 e he]
    rw [pushWordEvents, List.countP_cons_of_pos rfl, List.countP_cons_of_pos rfl, this]

/-- One word of a running PUSH whose bytes hold values. -/
theorem pushWord_run {s : State} {len : Len} {budget buf : Nat} {u : State} {es : List Event}
    (hr : regionInBufmem s.cfg len.toNat buf = true)
    (hheld : ∀ i < len.toNat, Memory.lookup s.bufmem (buf + i) ≠ none) (h : DteRun s .tx len budget u es 1)
    (hd : PushData s buf u es) (hlt : u.dte.cnt.toNat < len.toNat) :
    ∃ t fs, pushWord buf u = .ok t ∧ DteRun s .tx len budget t (fs ++ es) 0 ∧ PushData s buf t (fs ++ es) ∧
      t.dte.cnt.toNat = u.dte.cnt.toNat + min 4 (len.toNat - u.dte.cnt.toNat) := by
  simp only [regionInBufmem, Bool.and_eq_true, decide_eq_true_eq] at hr
  have hk := h.chunk
  obtain ⟨bs, v, hv⟩ := memReads_held (s := u) (a := buf + u.dte.cnt.toNat) (k := dteChunk u.dte)
    (by rw [h.cfg, hk]; omega) (by
      intro i hi
      rw [hd.bufmem, Nat.add_assoc]
      exact hheld _ (by omega))
  obtain ⟨hl, hbs, rfl⟩ := memReads_ok hv
  obtain ⟨p1, p2, p3, p4, p5, p6⟩ := pushWordEvents_plain u.cfg bs (buf + u.dte.cnt.toNat)
  have ht : pushWord buf u = .ok (regWrite .interruptStatus u.cfg.intTxReady (advanceDte (dteChunk u.dte)
      (regWrite .data (wordOfBytes bs) { u with trace := readEvents (buf + u.dte.cnt.toNat) bs ++ u.trace }))) := by
    rw [pushWord, hv]
  obtain ⟨hrun, hcnt⟩ := h.word (t := regWrite .interruptStatus u.cfg.intTxReady (advanceDte (dteChunk u.dte)
      (regWrite .data (wordOfBytes bs) { u with trace := readEvents (buf + u.dte.cnt.toNat) bs ++ u.trace })))
    (fs := pushWordEvents u.cfg bs (buf + u.dte.cnt.toNat)) hlt
    (by simp [dteKept]) (by simp) (by simp [pushWordEvents]) (by simp) p1 p2
  refine ⟨_, _, ht, hrun, ?_, by rw [hcnt, hk]⟩
  obtain ⟨cs, hcs1, hcs2, hcs3⟩ := hd.words
  constructor
  · refine ⟨cs ++ bs, by rw [List.length_append, hcs1, hl, hcnt], ?_, ?_⟩
    · intro i hi
      rw [List.getElem_append]
      split
      · next hlt => exact hcs2 i hlt
      · next hge =>
        have := hbs (i - cs.length) (by simp at hi; omega)
        rw [hd.bufmem] at this
        rw [← this]
        congr 1
        omega
    · have := h.whole
      rw [dataWrites_append, p4, hcs3, wordsOfBytes_append (by omega) (by intro h0; simp [h0] at hl; omega) (by omega)]
  · simpa using hd.bufmem
  · rw [dataReads_append, p3, hd.noPull]; rfl
  · intro e he hw
    rcases List.mem_append.mp he with he | he
    · rw [← h.cfg]; exact p5 e he hw
    · exact hd.writes e he hw
  · have := h.whole
    rw [List.countP_append, p6, hd.count, hcnt, hk]
    simp only [dteWords]
    omega

/-- Everything an accepted PUSH of bytes that hold values can do (R97 to R103). -/
theorem execPush_spec {len : Len} {buf : Word} {s : State} (hb : s.cfg.pushRetries < 2 ^ 32)
    (hr : regionInBufmem s.cfg len.toNat buf.toNat = true)
    (hheld : ∀ i < len.toNat, Memory.lookup s.bufmem (buf.toNat + i) ≠ none) :
    ∃ code t es last, execPush len buf s = .next (commit code t.dte.cnt t) ∧
      DteRun s .tx len s.cfg.pushRetries t es last ∧ PushData s buf.toNat t es ∧
      (code = .ok ∧ t.dte.cnt = len ∧ last = 0 ∨
        t.dte.cnt.toNat < len.toNat ∧ last = 1 ∧ EndsShort s s.cfg.intTxReady code t) := by
  have hd : PushData s buf.toNat (startDte .tx len s.cfg.pushRetries s) [] :=
    ⟨⟨[], rfl, by simp, rfl⟩, rfl, rfl, by simp, by simp [startDte, dteWords]⟩
  obtain ⟨code, t, es, last, h1, h2, h3, -, -, h4⟩ := dteLoop_run (mask := s.cfg.intTxReady) (D := PushData s buf.toNat)
    (move := pushWord buf.toNat) (fun h => h.afterPoll) (fun h hd hlt => pushWord_run hr hheld h hd hlt) (DteRun.start hb)
    hd rfl
  refine ⟨code, t, es, last, ?_, h2, h3, h4⟩
  have hn : len.toNat - (startDte .tx len s.cfg.pushRetries s).dte.cnt.toNat = len.toNat := by simp [startDte]
  rw [hn] at h1
  rw [execPush, h1, finishDte]

/-! ## The frame, for every operand -/

/-- What a transfer into or out of `len` bytes at `buf` leaves alone at every turn of its loop. -/
structure DteFrame (s : State) (dir : Dir) (len : Len) (buf : Nat) (u : State) : Prop where
  kept : dteKept u = dteKept s
  lenEq : u.dte.len = len
  dirEq : u.dte.dir = dir
  cnt_le : u.dte.cnt.toNat ≤ len.toNat
  outside : ∀ a, (a < buf ∨ buf + u.dte.cnt.toNat ≤ a) → Memory.lookup u.bufmem a = Memory.lookup s.bufmem a
  pushed : dir = .tx → u.bufmem = s.bufmem

theorem DteFrame.start (s : State) (dir : Dir) (len : Len) (buf n : Nat) :
    DteFrame s dir len buf (startDte dir len n s) :=
  ⟨rfl, rfl, rfl, by simp [startDte], fun _ _ => rfl, fun _ => rfl⟩

theorem DteFrame.afterPoll {s : State} {dir : Dir} {len : Len} {buf : Nat} {u t : State} {es : List Event} {idle : Nat}
    (h : DteFrame s dir len buf u) (hp : DtePolled u t es idle) : DteFrame s dir len buf t where
  kept := hp.kept.trans h.kept
  lenEq := by rw [hp.dte]; exact h.lenEq
  dirEq := by rw [hp.dte]; exact h.dirEq
  cnt_le := by rw [hp.dte]; exact h.cnt_le
  outside := by rw [hp.dte, hp.bufmem]; exact h.outside
  pushed := fun hd => hp.bufmem.trans (h.pushed hd)

theorem DteFrame.advanced {s : State} {dir : Dir} {len : Len} {buf : Nat} {u : State} (h : DteFrame s dir len buf u) :
    (u.dte.cnt + BitVec.ofNat 24 (dteChunk u.dte)).toNat = u.dte.cnt.toNat + dteChunk u.dte ∧
    u.dte.cnt.toNat + dteChunk u.dte ≤ len.toNat := by
  have h1 := h.cnt_le
  have h2 := len.isLt
  simp only [dteChunk, h.lenEq, BitVec.toNat_add, BitVec.toNat_ofNat]
  omega

theorem DteFrame.ofPullWord {s : State} {len : Len} {buf : Nat} {u t : State} (h : DteFrame s .rx len buf u)
    (ht : pullWord buf u = .ok t) : DteFrame s .rx len buf t := by
  obtain ⟨a1, a2⟩ := h.advanced
  unfold pullWord at ht
  simp only at ht
  split at ht
  · simp at ht
  · next v hv =>
    obtain ⟨-, rfl⟩ := memWrites_ok hv
    simp only [Except.ok.injEq] at ht
    subst ht
    refine ⟨?_, by simpa using h.lenEq, by simpa using h.dirEq, by simpa [a1] using a2, ?_, by simp⟩
    · rw [← h.kept]; simp [dteKept]
    · intro a ha
      simp only [regWrite_dte, advanceDte_dte, regRead_dte, a1] at ha
      simp only [regWrite_bufmem, advanceDte_bufmem, regRead_bufmem]
      rw [Memory.lookup_storeAll_outside (by simp [wordBytes]; omega)]
      exact h.outside a (by omega)

theorem DteFrame.ofPushWord {s : State} {len : Len} {buf : Nat} {u t : State} (h : DteFrame s .tx len buf u)
    (ht : pushWord buf u = .ok t) : DteFrame s .tx len buf t := by
  obtain ⟨a1, a2⟩ := h.advanced
  unfold pushWord at ht
  simp only at ht
  split at ht
  · simp at ht
  · next bs v hv =>
    obtain ⟨-, -, rfl⟩ := memReads_ok hv
    simp only [Except.ok.injEq] at ht
    subst ht
    refine ⟨?_, by simpa using h.lenEq, by simpa using h.dirEq, by simpa [a1] using a2, ?_, ?_⟩
    · rw [← h.kept]; simp [dteKept]
    · intro a ha
      simpa using congrArg (Memory.lookup · a) (h.pushed rfl)
    · intro hd; simpa using h.pushed hd

/-- The loop keeps the frame. -/
theorem DteFrame.ofLoop {s : State} {dir : Dir} {len : Len} {buf : Nat} {mask : Word}
    {move : State → Except Fault State}
    (hmove : ∀ {u t}, DteFrame s dir len buf u → move u = .ok t → DteFrame s dir len buf t) {n : Nat} {u t : State}
    {code : Code} (h : DteFrame s dir len buf u) (hr : dteLoop mask move n u = .ok (code, t)) :
    DteFrame s dir len buf t := by
  refine dteLoop_spec (P := fun _ u => DteFrame s dir len buf u) (Q := fun _ u => DteFrame s dir len buf u)
    (fun _ h => h) ?_ h hr
  rintro m u hu r rfl
  obtain ⟨es, idle, hp, -, -⟩ := dtePoll_spec mask u
  have hk := hu.afterPoll hp
  exact ⟨fun _ => hk, fun _ => hk, fun _ v hv => hmove hk hv⟩

/-! ## The clears of the block -/

theorem clearedBy_w1c (m old : Word) : clearedBy m old (w1c old m) := by
  intro j
  constructor <;> intro h <;> simp [w1c_getLsbD, h]

theorem clearedBy_regWrite (m : Word) (s : State) :
    clearedBy m s.nfc.interruptStatus (regWrite .interruptStatus m s).nfc.interruptStatus := clearedBy_w1c _ _

theorem Plain.noStatus {es : List Event} (h : Plain es) (e : Event) (he : e ∈ es) :
    isRegReadOf .interruptStatus e = false ∧ ∀ m, e ≠ .regWrite .interruptStatus m := by
  refine ⟨?_, fun m hm => ?_⟩
  · have := List.countP_eq_zero.mp (h.regs .interruptStatus) e he
    simpa using this
  · have := h.noWrite e he
    simp [hm, isRegWrite] at this

/-- One word of PULL ends with the clear of its ready bit, the only access to INTERRUPT_STATUS in it (R96, R55). -/
theorem pullWord_clears {buf : Nat} {u t : State} (h : pullWord buf u = .ok t) :
    ∃ es, t.trace = .regWrite .interruptStatus u.cfg.intRxReady :: (es ++ u.trace) ∧
      (∀ e ∈ es, isRegReadOf .interruptStatus e = false ∧ ∀ m, e ≠ .regWrite .interruptStatus m) ∧
      clearedBy u.cfg.intRxReady u.nfc.interruptStatus t.nfc.interruptStatus ∧ t.cfg = u.cfg := by
  rw [pullWord] at h
  split at h
  · simp at h
  · next x hx =>
    obtain ⟨-, rfl⟩ := memWrites_ok hx
    simp only [Except.ok.injEq] at h
    subst h
    refine ⟨writeEvents (buf + u.dte.cnt.toNat) (wordBytes (regRead .data u).1 (dteChunk u.dte)) ++
      [.regRead .data (regRead .data u).1], by simp, ?_, ?_, by simp⟩
    · intro e he
      rcases List.mem_append.mp he with he | he
      · exact (plain_writeEvents _ _).noStatus e he
      · simp only [List.mem_singleton] at he
        subst he
        exact ⟨rfl, by simp⟩
    · have := clearedBy_w1c u.cfg.intRxReady u.nfc.interruptStatus
      simpa [storedByWrite, NfcFile.set] using this

/-- One word of PUSH ends with the clear of its ready bit, the only access to INTERRUPT_STATUS in it (R98, R55). -/
theorem pushWord_clears {buf : Nat} {u t : State} (h : pushWord buf u = .ok t) :
    ∃ es, t.trace = .regWrite .interruptStatus u.cfg.intTxReady :: (es ++ u.trace) ∧
      (∀ e ∈ es, isRegReadOf .interruptStatus e = false ∧ ∀ m, e ≠ .regWrite .interruptStatus m) ∧
      clearedBy u.cfg.intTxReady u.nfc.interruptStatus t.nfc.interruptStatus ∧ t.cfg = u.cfg := by
  rw [pushWord] at h
  split at h
  · simp at h
  · next bs x hx =>
    obtain ⟨-, -, rfl⟩ := memReads_ok hx
    simp only [Except.ok.injEq] at h
    subst h
    refine ⟨.regWrite .data (wordOfBytes bs) :: readEvents (buf + u.dte.cnt.toNat) bs, by simp, ?_, ?_, by simp⟩
    · intro e he
      rcases List.mem_cons.mp he with rfl | he
      · exact ⟨rfl, by simp⟩
      · exact (plain_readEvents _ _).noStatus e he
    · have := clearedBy_w1c u.cfg.intTxReady u.nfc.interruptStatus
      simpa [storedByWrite, NfcFile.set] using this

end Sys2Proof.Machine
end

