-- ==== Sys2Proof/Laws/Ecv.lean ====
section
/-! SUPPORT. What the ECC comparison and the read-backs can do (R142, R146). -/

namespace Sys2Proof.Machine

/-- The comparison of `n` stored bytes from byte `i` on when all of them hold values: `k` bytes are read, the last of
them the first that differs if one does. -/
theorem compareEcc_spec (e : Word) (base : Nat) {i n : Nat} {s : State} {stored : Nat → Byte}
    (hr : eccAddr s.cfg base (i + n) ≤ s.cfg.bufmemSize)
    (hh : ∀ j < n, Memory.lookup s.bufmem (eccAddr s.cfg base (i + j)) = some (stored (i + j))) :
    ∃ code k, compareEcc e base i n s = .ok (code, { s with trace :=
        ((List.range k).map fun j => Event.bufRead (eccAddr s.cfg base (i + j)) (stored (i + j))).reverse ++ s.trace }) ∧
      k ≤ n ∧ (∀ j, j + 1 < k → stored (i + j) = wordByte e (i + j)) ∧
      (code = .ok ∧ k = n ∧ (∀ j < n, stored (i + j) = wordByte e (i + j)) ∨
        code = .eccMismatch ∧ 0 < k ∧ stored (i + (k - 1)) ≠ wordByte e (i + (k - 1))) := by
  induction n generalizing i s with
  | zero => exact ⟨.ok, 0, rfl, le_rfl, by omega, .inl ⟨rfl, rfl, by omega⟩⟩
  | succ n ih =>
    have h0 := hh 0 (by omega)
    have hm := memRead_of_lookup (a := eccAddr s.cfg base i) (s := s) (b := stored i)
      (by simp only [eccAddr] at hr ⊢; omega) (by simpa using h0)
    rw [compareEcc, hm]
    simp only
    split
    · next heq =>
      obtain ⟨code, k, h1, h2, h3, h4⟩ := ih (i := i + 1) (s := emit (.bufRead (eccAddr s.cfg base i) (stored i)) s)
        (by simp only [eccAddr, emit_cfg] at hr ⊢; omega)
        (by intro j hj; have := hh (j + 1) (by omega); simpa [Nat.add_assoc, Nat.add_comm 1 j] using this)
      refine ⟨code, k + 1, ?_, by omega, ?_, ?_⟩
      · rw [h1]
        simp [List.range_succ_eq_map, Nat.add_assoc, Nat.add_comm 1, Function.comp_def]
      · rintro (_ | j) hj
        · simpa using heq
        · have := h3 j (by omega)
          simpa [Nat.add_assoc, Nat.add_comm 1 j] using this
      · rcases h4 with ⟨rfl, rfl, h5⟩ | ⟨rfl, h5, h6⟩
        · refine .inl ⟨rfl, rfl, ?_⟩
          rintro (_ | j) hj
          · simpa using heq
          · have := h5 j (by omega)
            simpa [Nat.add_assoc, Nat.add_comm 1 j] using this
        · refine .inr ⟨rfl, by omega, ?_⟩
          have : i + 1 + (k - 1) = i + (k + 1 - 1) := by omega
          rwa [this] at h6
    · next hne => exact ⟨.eccMismatch, 1, by simp; rfl, by omega, by omega, .inr ⟨rfl, by omega, by simpa using hne⟩⟩

/-- EccCompare of an image whose stored ECC bytes hold values (R142). -/
theorem eccCompare_spec {base : Nat} {s : State} {stored : Nat → Byte} (h4 : s.cfg.eccBytes = 4)
    (hr : eccAddr s.cfg base 4 ≤ s.cfg.bufmemSize)
    (hh : ∀ j < 4, Memory.lookup s.bufmem (eccAddr s.cfg base j) = some (stored j)) :
    ∃ code k t, eccCompare base s = .ok (code, t) ∧
      t = { setEccLatch (regRead .ecc s).1 (regRead .ecc s).2 with trace := t.trace } ∧
      history t = history s ++ (.regRead .ecc (regRead .ecc s).1 :: eccReadEvents s.cfg base stored k) ∧ k ≤ 4 ∧
      (∀ j, j + 1 < k → stored j = wordByte (regRead .ecc s).1 j) ∧
      ((regRead .ecc s).1 = 0 ∧ code = .ok ∧ k = 0 ∨
        (regRead .ecc s).1 ≠ 0 ∧ code = .ok ∧ k = 4 ∧ (∀ j < 4, stored j = wordByte (regRead .ecc s).1 j) ∨
        (regRead .ecc s).1 ≠ 0 ∧ code = .eccMismatch ∧ 0 < k ∧
          stored (k - 1) ≠ wordByte (regRead .ecc s).1 (k - 1)) := by
  unfold eccCompare
  simp only [h4]
  by_cases he : (regRead .ecc s).1 = 0
  · refine ⟨.ok, 0, _, by rw [if_pos he], rfl, ?_, by omega, by omega, .inl ⟨he, rfl, rfl⟩⟩
    simp [history, eccReadEvents]
  · obtain ⟨code, k, h1, h2, h3, h5⟩ := compareEcc_spec (regRead .ecc s).1 base (i := 0) (n := 4)
      (s := setEccLatch (regRead .ecc s).1 (regRead .ecc s).2) (stored := stored) (by simpa using hr)
      (by intro j hj; simpa using hh j hj)
    refine ⟨code, k, _, by rw [if_neg he, h1], rfl, ?_, h2, by simpa using h3, .inr ?_⟩
    · simp [history, eccReadEvents]
    · rcases h5 with ⟨rfl, rfl, h6⟩ | ⟨rfl, h6, h7⟩
      · exact .inl ⟨he, rfl, rfl, by simpa using h6⟩
      · exact .inr ⟨he, rfl, h6, by simpa using h7⟩

/-- EccCompare reads no stored byte when the register is zero (R144 a). -/
theorem eccCompare_zero {base : Nat} {s : State} (he : (regRead .ecc s).1 = 0) :
    eccCompare base s = .ok (.ok, setEccLatch 0 (regRead .ecc s).2) := by
  unfold eccCompare
  simp only [he, if_true]

/-- A re-read leaves all but what R69 names. -/
structure Reread (p dst : Nat) (s t : State) (ok : Bool) : Prop where
  eq : t = { s with nfc := t.nfc, fsm := t.fsm, rsm := t.rsm, dte := t.dte, elapsedUs := t.elapsedUs,
                    bufmem := t.bufmem, trace := .reread p ok :: s.trace, env := t.env }
  env : t.env.reads = s.env.reads ∧ t.env.oobs = s.env.oobs
  image : ∃ bs : List Byte, bs.length = s.cfg.pageImage ∧ t.bufmem = Memory.storeAll s.bufmem dst bs

theorem pageReread_spec {p dst : Nat} {s : State} (h : dst + s.cfg.pageImage ≤ s.cfg.bufmemSize) :
    ∃ ok t, pageReread p dst s = .ok (ok, t) ∧ Reread p dst s t ok := by
  obtain ⟨a, e, -, h1, h2, h3⟩ := pageReread_of_le (p := p) h
  exact ⟨a.ok, _, h3, rfl, ⟨h1, h2⟩, _, length_imageBytes _ _ _, rfl⟩

/-- A re-read the list of answers answers. -/
theorem pageReread_cons {p dst : Nat} {s : State} {a : RereadAnswer} {rest : List RereadAnswer}
    (h : dst + s.cfg.pageImage ≤ s.cfg.bufmemSize) (ha : s.env.rereads = a :: rest) :
    pageReread p dst s = .ok (a.ok, { applyHavoc a.havoc s with
      env := { s.env with rereads := rest }
      bufmem := Memory.storeAll s.bufmem dst (imageBytes s.cfg a s.trace)
      trace := .reread p a.ok :: s.trace }) := by
  unfold pageReread
  rw [if_pos h, rereadAnswer_cons ha]
  rfl

end Sys2Proof.Machine
end

