-- ==== Sys2Proof/Laws/Flags.lean ====
section
/-! SUPPORT. Flag tests as equations on masks, and what a well-formed configuration gives (R9, R113). -/

namespace Sys2Proof

namespace Machine

theorem anySet_iff {w : Nat} {v m : BitVec w} : anySet v m = true ↔ v &&& m ≠ 0 := by simp [anySet]

theorem anySet_iff_not {w : Nat} {v m : BitVec w} : anySet v m = false ↔ v &&& m = 0 := by simp [anySet]

theorem bufClearTookEffect_iff {c : Config} {v : Word} :
    bufClearTookEffect c v = true ↔ v &&& c.bufClearDone.mask = c.bufClearDone.expect := by simp [bufClearTookEffect]

theorem bufClearTookEffect_iff_not {c : Config} {v : Word} :
    bufClearTookEffect c v = false ↔ v &&& c.bufClearDone.mask ≠ c.bufClearDone.expect := by simp [bufClearTookEffect]

end Machine

/-- A power of two, as the configuration check tests it. -/
theorem isPowerOfTwo_pow {n : Nat} (h : isPowerOfTwo n = true) : ∃ k, n = 2 ^ k := by
  simp only [isPowerOfTwo, Bool.and_eq_true, bne_iff_ne, ne_eq, beq_iff_eq] at h
  exact (Nat.ne_zero_and_sub_one_eq_zero_iff_isPowerOfTwo (n := n)).mp h

/-- Masking with a power of two less one is the remainder (R145, R159). -/
theorem and_pred_of_isPowerOfTwo {n : Nat} (h : isPowerOfTwo n = true) (x : Nat) : x &&& (n - 1) = x % n := by
  obtain ⟨k, rfl⟩ := isPowerOfTwo_pow h
  exact Nat.and_two_pow_sub_one_eq_mod x k

/-- In a list of pairwise distinct values, a search by value finds the entry itself. -/
theorem find_of_allDistinct {α : Type} [DecidableEq α] {f : α → Nat} {l : List α} (h : allDistinct (l.map f) = true)
    {r : α} (hr : r ∈ l) : (l.find? fun x => f x == f r) = some r := by
  induction l with
  | nil => simp at hr
  | cons a l ih =>
    simp only [List.map_cons, allDistinct, Bool.and_eq_true, Bool.not_eq_true', List.contains_eq_mem,
      decide_eq_false_iff_not, List.mem_map, not_exists, not_and] at h
    rw [List.find?_cons]
    rcases List.mem_cons.mp hr with rfl | hm
    · simp
    · have : (f a == f r) = false := by simpa using fun heq : f a = f r => h.1 r hm heq.symm
      rw [this]
      exact ih h.2 hm

section
variable {c : Config} (h : c.wf = true)
include h

theorem Config.wf_geometry : c.geometryWf = true := by simp [Config.wf] at h; exact h.1.1.1

theorem Config.wf_layout : c.layoutWf = true := by simp [Config.wf] at h; exact h.1.1.2

theorem Config.wf_interface : c.interfaceWf = true := by simp [Config.wf] at h; exact h.1.2

theorem Config.wf_budgets : c.budgetsWf = true := by simp [Config.wf] at h; exact h.2

theorem Config.wf_eccBytes : c.eccBytes = 4 := by
  have := Config.wf_layout h
  simp [Config.layoutWf] at this
  exact this.1.1.1.1.1

theorem Config.wf_eccOob : c.eccOobOffset + 4 ≤ c.oobSize := by
  have h4 := Config.wf_eccBytes h
  have := Config.wf_layout h
  simp [Config.layoutWf, h4] at this
  omega

theorem Config.wf_rbuf : c.rbufBase + c.pageImage ≤ c.bufmemSize := by
  have := Config.wf_layout h
  simp only [Config.layoutWf, Bool.and_eq_true] at this
  exact of_decide_eq_true this.1.2

theorem Config.wf_sbFail : c.sbFail &&& c.sbFail ≠ 0 := by
  have := Config.wf_interface h
  simp [Config.interfaceWf, isOneBit, isPowerOfTwo] at this
  intro h0
  simp at h0
  simp [h0] at this

theorem Config.wf_chipSize : isPowerOfTwo c.chipSize = true := by
  have := Config.wf_geometry h
  simp only [Config.geometryWf, Bool.and_eq_true] at this
  exact this.1.1.1.2

theorem Config.wf_numPages : ∃ k, c.chipSize / c.pageSize = 2 ^ k := by
  have := Config.wf_geometry h
  simp only [Config.geometryWf, Bool.and_eq_true, beq_iff_eq, decide_eq_true_eq] at this
  obtain ⟨⟨⟨⟨⟨h1, h2⟩, h3⟩, h4⟩, h5⟩, -⟩ := this
  obtain ⟨i, hi⟩ := isPowerOfTwo_pow h1
  obtain ⟨j, hj⟩ := isPowerOfTwo_pow h2
  obtain ⟨k, hk⟩ := isPowerOfTwo_pow h3
  rw [h4, hi, hj, hk, ← Nat.pow_add] at h5
  have hle : i + j ≤ k := (Nat.pow_le_pow_iff_right (by omega)).mp h5
  exact ⟨k - i, by rw [hk, hi, Nat.pow_div (by omega) (by omega)]⟩

/-- Every register is found at its offset (R9, R10). -/
theorem Config.wf_regAt (r : Machine.NfcReg) : c.regAt (c.regOffset.get r) = some r := by
  have hd : allDistinct (Machine.NfcReg.all.map c.regOffset.get) = true := by
    have := Config.wf_interface h
    simp only [Config.interfaceWf, Bool.and_eq_true] at this
    exact this.1.2
  exact find_of_allDistinct hd (by cases r <;> decide)

end

end Sys2Proof
end

