-- ==== Sys2Proof/Laws/PerInstr.lean ====
section
/-! SUPPORT. Statements about every operation as syntax, one lemma per constructor. -/

namespace Sys2Proof.Laws

namespace OpcodeRow

/-- The opcode and the mode of an operation (R80, R81). -/
def row : Instr → BitVec 4 × BitVec 4
  | .pull _ _ => (0x1, 0x0)
  | .push _ _ => (0x2, 0x0)
  | .waitReady _ => (0x3, 0x0)
  | .readStatus => (0x4, 0x0)
  | .chipReset => (0x5, 0x0)
  | .allReset => (0x6, 0x0)
  | .eccVerifyRead _ _ => (0x7, 0x0)
  | .eccVerifyWrite _ _ => (0x7, 0x1)
  | .bbDetect _ => (0x8, 0x0)
  | .bbProbe _ => (0x9, 0x0)

/-- The request word of an operation holds the opcode and the mode R80 and R81 give it. -/
def Statement (i : Instr) : Prop := opcField (encode i).opreq = (row i).1 ∧ modeField (encode i).opreq = (row i).2

theorem pull (len : Len) (buf : Word) : Statement (.pull len buf) := by simp [Statement, encode, row]
theorem push (len : Len) (buf : Word) : Statement (.push len buf) := by simp [Statement, encode, row]
theorem waitReady (ms : Millis) : Statement (.waitReady ms) := by simp [Statement, encode, row]
theorem readStatus : Statement .readStatus := by simp [Statement, encode, row]
theorem chipReset : Statement .chipReset := by simp [Statement, encode, row]
theorem allReset : Statement .allReset := by simp [Statement, encode, row]
theorem eccVerifyRead (buf page : Word) : Statement (.eccVerifyRead buf page) := by simp [Statement, encode, row]
theorem eccVerifyWrite (buf page : Word) : Statement (.eccVerifyWrite buf page) := by simp [Statement, encode, row]
theorem bbDetect (tag : Byte) : Statement (.bbDetect tag) := by simp [Statement, encode, row]
theorem bbProbe (off : Word) : Statement (.bbProbe off) := by simp [Statement, encode, row]

end OpcodeRow

end Sys2Proof.Laws
end

