-- ==== Sys2Proof/Laws/Port.lean ====
section
/-! SUPPORT. The issue of a request: when it runs an operation, and which (R75, R83). -/

namespace Sys2Proof.Machine

/-- What a step answers for what the HOST's next action comes to. -/
def Presented.outcome : Presented → Host.Outcome State Fault Refusal
  | .ended o => o
  | .running i t => exec i t

/-- A write of OPREQ to an idle block is an issue (R75). -/
theorem step_writeOpreq {s : State} {w : Word} {n : Nat} {rest : List HostAct} (hb : s.busy = false)
    (hq : s.hostq = .writeOpreq w n :: rest) :
    step s = (issue n (writeOpreq w (takeAct rest s))).outcome := by
  unfold step
  rw [hq]
  simp only [present]
  rw [show (takeAct rest s).busy = false from hb]
  rfl

/-- An access that starts no operation is a step of its own. -/
theorem step_access {s : State} {a : HostAct} {rest : List HostAct} (hq : s.hostq = a :: rest)
    (ha : ∀ w n, a ≠ .writeOpreq w n) : step s = hostAccess a (takeAct rest s) := by
  unfold step
  rw [hq]
  cases a with
  | writeOpreq w n => exact absurd rfl (ha w n)
  | _ => rfl

/-- OPREQ alone names the same operation as the whole request, but for its operand words. -/
theorem decode_opreq {r : Request} {i : Instr} (h : decode r = .ok i) :
    ∃ j, decode ⟨r.opreq, 0, 0⟩ = .ok j ∧ j.usesOpa = i.usesOpa ∧ j.usesOpb = i.usesOpb ∧
      ∀ c, j.enabled c = i.enabled c := by
  unfold decode withoutImmediate at h ⊢
  split at h
  all_goals (try split at h)
  all_goals (try split at h)
  all_goals simp_all
  all_goals subst h
  all_goals simp [Instr.usesOpa, Instr.usesOpb, Instr.enabled]

/-- A well-formed operation whose operand words have been written is launched (R83 step 5). -/
theorem issue_wellFormed {s : State} {i : Instr} {n : Nat} (h : decode (portRequest s) = .ok i)
    (hw : i.wellFormed s.cfg = true) (ha : i.usesOpa = true → s.port.opa.held = true)
    (hb : i.usesOpb = true → s.port.opb.held = true) : issue n s = launch i n s := by
  obtain ⟨j, h1, h2, h3, h4⟩ := decode_opreq h
  simp only [Instr.wellFormed, Bool.and_eq_true] at hw
  have h1' : decode ⟨s.port.opreq.val, 0, 0⟩ = .ok j := h1
  have hh : operandsHeld j s = .ok () := by
    unfold operandsHeld
    rw [h2, h3]
    cases hA : i.usesOpa <;> cases hB : i.usesOpb <;> simp_all
  simp only [issue, h1', h4, hw.1, if_true]
  simp [hh, decodeRequest, h, decodeAdmission, hw.1, hw.2]

end Sys2Proof.Machine
end

