-- ==== Sys2Proof/Laws/Rsm.lean ====
section
/-! SUPPORT. What the procedures of the RSM can do: their frame, the agreement of code, status byte and `fsm`, the
transitions of `fsm`, and that a recovery starts no recovery. -/

namespace Sys2Proof.Machine

/-! ## The frame -/

/-- What no procedure of the RSM touches. -/
def rsmKept (s : State) :=
  (s.cfg, s.port, s.busy, s.inRecovery, s.err, s.dte, s.ecv, s.bbd, s.bufmem, s.hostq, s.env.rereads, s.env.oobs,
   s.rsm.statusByte)

/-- The frame of the RSM: what it touches is `fsm`, its counters, the NFC registers, the history, ENV's answers to
reads and the ghosts. -/
structure RsmFrame (s t : State) : Prop where
  kept : rsmKept t = rsmKept s
  trace : ∃ es, t.trace = es ++ s.trace ∧ t.elapsedUs = s.elapsedUs + delaySum es
  path : ∃ fs, t.fsmPath = fs ++ s.fsmPath

theorem delaySum_append (es fs : List Event) : delaySum (es ++ fs) = delaySum es + delaySum fs := by
  induction es with
  | nil => simp [delaySum]
  | cons e es ih => cases e <;> simp [delaySum, ih, Nat.add_assoc]

theorem delaySum_seqEvents (seq : List (NfcReg × Word)) : delaySum (seqEvents seq) = 0 := by
  induction seq with
  | nil => rfl
  | cons p rest ih => obtain ⟨r, v⟩ := p; simp [seqEvents, delaySum_append, ih, delaySum]

theorem RsmFrame.refl (s : State) : RsmFrame s s := ⟨rfl, ⟨[], rfl, rfl⟩, ⟨[], rfl⟩⟩

theorem RsmFrame.trans {s t u : State} (h : RsmFrame s t) (k : RsmFrame t u) : RsmFrame s u := by
  obtain ⟨h1, ⟨es, h2, h2'⟩, ⟨fs, h3⟩⟩ := h
  obtain ⟨k1, ⟨es', k2, k2'⟩, ⟨fs', k3⟩⟩ := k
  exact ⟨k1.trans h1, ⟨es' ++ es, by simp [k2, h2], by rw [k2', h2', delaySum_append]; omega⟩,
    ⟨fs' ++ fs, by simp [k3, h3]⟩⟩

theorem RsmFrame.cfg {s t : State} (h : RsmFrame s t) : t.cfg = s.cfg := congrArg (·.1) h.kept

theorem RsmFrame.inRecovery {s t : State} (h : RsmFrame s t) : t.inRecovery = s.inRecovery :=
  congrArg (·.2.2.2.1) h.kept

/-- The frame as one equation. -/
theorem RsmFrame.eq {s t : State} (h : RsmFrame s t) :
    t = { s with fsm := t.fsm, rsm := { t.rsm with statusByte := s.rsm.statusByte }, elapsedUs := t.elapsedUs,
                 nfc := t.nfc, trace := t.trace, fsmPath := t.fsmPath,
                 env := { s.env with reads := t.env.reads, drawn := t.env.drawn } } := by
  obtain ⟨hk, -, -⟩ := h
  simp only [rsmKept, Prod.mk.injEq] at hk
  obtain ⟨h1, h2, h3, h4, h5, h6, h7, h8, h9, h10, h11, h12, h13⟩ := hk
  obtain ⟨⟩ := s
  obtain ⟨_, _, _, _, _, _, ⟨⟩, _, _, _, _, _, _, _, _, ⟨⟩, _⟩ := t
  simp_all

theorem RsmFrame.ofSetFsm (f : Fsm) (s : State) : RsmFrame s (setFsm f s) := ⟨rfl, ⟨[], rfl, rfl⟩, ⟨[f], rfl⟩⟩

theorem RsmFrame.ofSetRsmRetry (v : Word) (s : State) : RsmFrame s (setRsmRetry v s) :=
  ⟨rfl, ⟨[], rfl, rfl⟩, ⟨[], rfl⟩⟩

theorem RsmFrame.ofSetRsmBudget (v : Word) (s : State) : RsmFrame s (setRsmBudget v s) :=
  ⟨rfl, ⟨[], rfl, rfl⟩, ⟨[], rfl⟩⟩

theorem RsmFrame.ofSetAuxRetry (v : Word) (s : State) : RsmFrame s (setAuxRetry v s) :=
  ⟨rfl, ⟨[], rfl, rfl⟩, ⟨[], rfl⟩⟩

theorem RsmFrame.ofDelayUs (n : Nat) (s : State) : RsmFrame s (delayUs n s) := ⟨rfl, ⟨[.delay n], rfl, rfl⟩, ⟨[], rfl⟩⟩

theorem RsmFrame.ofRegRead (r : NfcReg) (s : State) : RsmFrame s (regRead r s).2 :=
  ⟨by simp [rsmKept], ⟨[.regRead r (regRead r s).1], by simp, by simp [delaySum]⟩,
    ⟨[], by simp⟩⟩

theorem RsmFrame.ofRegWrite (r : NfcReg) (v : Word) (s : State) : RsmFrame s (regWrite r v s) :=
  ⟨rfl, ⟨[.regWrite r v], rfl, rfl⟩, ⟨[], rfl⟩⟩

theorem RsmFrame.ofRegWrites (seq : List (NfcReg × Word)) (s : State) : RsmFrame s (regWrites seq s) :=
  ⟨by simp [rsmKept], ⟨seqEvents seq, by simp, by simp [delaySum_seqEvents]⟩, ⟨[], by simp⟩⟩

theorem RsmFrame.ofSampleReg (r : NfcReg) (test : Word → Bool) (s : State) : RsmFrame s (sampleReg r test s).2 :=
  .ofRegRead r s

theorem RsmFrame.ofPollReg (r : NfcReg) (test : Word → Bool) (setCtr : Word → State → State)
    (hset : ∀ v s, RsmFrame s (setCtr v s)) (n : Nat) (s : State) :
    RsmFrame s (pollUntil (sampleReg r test) setCtr n s).2 :=
  pollUntil_rel (R := RsmFrame) .trans (.ofSampleReg r test) (fun v s => (RsmFrame.ofDelayUs 1 s).trans (hset v _)) hset n s

theorem RsmFrame.ofReturnTimeout (s : State) : RsmFrame s (returnTimeout s).st := .ofSetFsm _ _

theorem RsmFrame.ofClassify (b : Bool) (sb : Byte) (s : State) : RsmFrame s (classify b sb s).st := by
  unfold classify
  split
  · exact .ofReturnTimeout s
  · split <;> exact .ofSetFsm _ _

section
variable {recover : State → State} (hrec : ∀ s, RsmFrame s (recover s))
include hrec

theorem RsmFrame.ofRecoverOnce (s : State) : RsmFrame s (recoverOnce recover s) := by
  unfold recoverOnce
  split
  · exact .refl s
  · exact hrec s

theorem RsmFrame.ofReadStatusRaw (s : State) : RsmFrame s (readStatusRaw recover s).st := by
  have h : ∀ v w, RsmFrame s (setFsm .statusRead (regWrites v (regWrite .interruptStatus w s))) := fun v w =>
    ((RsmFrame.ofRegWrite _ _ _).trans (.ofRegWrites _ _)).trans (.ofSetFsm _ _)
  have h2 := fun t => RsmFrame.ofPollReg .interruptStatus (istRxReady s.cfg) setAuxRetry RsmFrame.ofSetAuxRetry
    s.cfg.statusRetries t
  unfold readStatusRaw
  simp only
  split
  · next t ht => exact (h _ _).trans ((ht ▸ h2 _).trans (.ofRegRead _ _))
  · next t ht => exact (h _ _).trans ((ht ▸ h2 _).trans (.ofRecoverOnce hrec _))

theorem RsmFrame.ofReadStatus (s : State) : RsmFrame s (readStatus recover s).st :=
  (RsmFrame.ofReadStatusRaw hrec s).trans (.ofClassify _ _ _)

theorem RsmFrame.ofSampleChipReady (s : State) : RsmFrame s (sampleChipReady recover s).2 := by
  have h := RsmFrame.ofReadStatusRaw hrec s
  unfold sampleChipReady
  simp only
  split
  · exact h.trans (.ofClassify _ _ _)
  · split
    · exact h.trans ((RsmFrame.ofSetFsm _ _).trans (.ofClassify _ _ _))
    · exact h.trans (.ofSetFsm _ _)

theorem RsmFrame.ofWaitDevReady (s : State) : RsmFrame s (waitDevReady recover s).st := by
  have hs : ∀ t, RsmFrame t (sampleDevReady t).2 := by
    intro t
    unfold sampleDevReady
    simp only
    split <;> exact (RsmFrame.ofRegRead _ _).trans (.ofSetFsm _ _)
  have h : RsmFrame s (poll sampleDevReady setRsmRetry s.rsm.retry.toNat s).2 :=
    poll_rel (R := RsmFrame) .trans hs (fun v t => (RsmFrame.ofDelayUs 1 t).trans (.ofSetRsmRetry v _)) _ _
  unfold waitDevReady
  split
  · next t ht => rw [ht] at h; exact h.trans (.ofReturnTimeout _)
  · next t ht => rw [ht] at h; exact h.trans (.ofReadStatus hrec _)

theorem RsmFrame.ofWaitChipReady (s : State) : RsmFrame s (waitChipReady recover s).st := by
  have h : RsmFrame s (poll (sampleChipReady recover) setRsmRetry s.rsm.retry.toNat s).2 :=
    poll_rel (R := RsmFrame) .trans (.ofSampleChipReady hrec) (fun v t => (RsmFrame.ofDelayUs 1 t).trans (.ofSetRsmRetry v _))
      _ _
  unfold waitChipReady
  split
  · next t ht => rw [ht] at h; exact h.trans (.ofReturnTimeout _)
  · next t ht => rw [ht] at h; exact h

theorem RsmFrame.ofWaitDevice (s : State) : RsmFrame s (waitDevice recover s).st := by
  have h : RsmFrame s (reloadRetry (setFsm .transDone s)) := by
    unfold reloadRetry
    split
    · exact .ofSetFsm _ _
    · exact (RsmFrame.ofSetFsm _ _).trans (.ofSetRsmRetry _ _)
  unfold waitDevice
  simp only
  split
  · exact h.trans (.ofWaitDevReady hrec _)
  · exact h.trans ((RsmFrame.ofSetFsm _ _).trans (.ofWaitChipReady hrec _))

theorem RsmFrame.ofWaitReady (ms : Millis) (s : State) : RsmFrame s (waitReady recover ms s).st := by
  have h0 : ∀ t, RsmFrame t (snooze ms t) := by
    intro t; unfold snooze; split
    · exact .refl t
    · exact .ofDelayUs _ _
  have h : ∀ v, RsmFrame s (setRsmBudget v (snooze ms (setFsm .transPending s))) := fun v =>
    ((RsmFrame.ofSetFsm _ _).trans (h0 _)).trans (.ofSetRsmBudget _ _)
  have h2 := fun t => RsmFrame.ofPollReg .interruptStatus (istDone s.cfg) setRsmRetry RsmFrame.ofSetRsmRetry
    (retryBudget s.cfg ms) t
  unfold waitReady
  simp only
  split
  · next t ht => exact (h _).trans ((ht ▸ h2 _).trans (.ofReturnTimeout _))
  · next t ht => exact (h _).trans ((ht ▸ h2 _).trans (.ofWaitDevice hrec _))

theorem RsmFrame.ofChipReset (s : State) : RsmFrame s (chipReset recover s).st :=
  (RsmFrame.ofRegWrites _ _).trans (.ofWaitReady hrec _ _)

end

theorem RsmFrame.ofToggleBufClear (s : State) : RsmFrame s (toggleBufClear s) :=
  ((RsmFrame.ofRegRead _ _).trans (.ofRegWrite _ _ _)).trans (.ofRegWrite _ _ _)

/-- A procedure run between the entry of the recovery path and the return from it has the frame of the RSM. -/
theorem RsmFrame.withinRecovery {s t : State} (h : RsmFrame (enterRecovery s).2 t) :
    RsmFrame s (leaveRecovery (enterRecovery s).1 t) := by
  obtain ⟨h1, h2, h3⟩ := h
  refine ⟨?_, h2, h3⟩
  simp only [rsmKept, enterRecovery, Prod.mk.injEq, leaveRecovery_cfg, leaveRecovery_port, leaveRecovery_busy,
    leaveRecovery_inRecovery, leaveRecovery_err, leaveRecovery_dte, leaveRecovery_ecv, leaveRecovery_bbd,
    leaveRecovery_bufmem, leaveRecovery_hostq, leaveRecovery_env, leaveRecovery_rsm] at h1 ⊢
  tauto

theorem RsmFrame.ofAllReset (s : State) : RsmFrame s (allReset s).st := by
  have h1 : RsmFrame (enterRecovery s).2 (waitBufClear (toggleBufClear (enterRecovery s).2)).2 :=
    (RsmFrame.ofToggleBufClear _).trans (.ofPollReg _ _ _ .ofSetAuxRetry _ _)
  have h2 : ∀ t, RsmFrame t (waitCtrlIdle t).2 := fun t => .ofPollReg _ _ _ .ofSetAuxRetry _ _
  unfold allReset
  simp only
  split
  · next t ht => rw [ht] at h1; exact (RsmFrame.withinRecovery h1).trans (.ofReturnTimeout _)
  · next t ht =>
    rw [ht] at h1
    have h2 := h2 t
    split
    · next u hu => rw [hu] at h2; exact (RsmFrame.withinRecovery (h1.trans h2)).trans (.ofReturnTimeout _)
    · next u hu =>
      rw [hu] at h2
      exact RsmFrame.withinRecovery ((h1.trans h2).trans (.ofChipReset (recover := id) (fun s => .refl s) u))

theorem RsmFrame.ofRecovery (s : State) : RsmFrame s (recovery s) := .ofAllReset s

/-! ## Code, status byte and `fsm` agree -/

/-- What R111 and R112 say of a return: the code decides `fsm`, and the status byte agrees with the code. -/
def RsmReturn.Agrees (c : Config) (r : RsmReturn) : Prop :=
  (r.code = .ok ∧ r.st.fsm = .ok ∧ sbFails c r.sb = false) ∨
  (r.code = .deviceFail ∧ r.st.fsm = .fail ∧ sbFails c r.sb = true) ∨
  (r.code = .hardwareTimeout ∧ r.st.fsm = .fail ∧ r.sb = c.failByte)

theorem returnTimeout_agrees (s : State) : (returnTimeout s).Agrees s.cfg := .inr (.inr ⟨rfl, rfl, rfl⟩)

theorem classify_agrees (b : Bool) (sb : Byte) (s : State) : (classify b sb s).Agrees s.cfg := by
  unfold classify
  split
  · exact returnTimeout_agrees s
  · split
    · next h => exact .inr (.inl ⟨rfl, rfl, h⟩)
    · next h => exact .inl ⟨rfl, rfl, by simpa using h⟩

section
variable {recover : State → State} (hrec : ∀ s, RsmFrame s (recover s))
include hrec

theorem readStatus_agrees (s : State) : (readStatus recover s).Agrees s.cfg := by
  rw [← (RsmFrame.ofReadStatusRaw hrec s).cfg]
  exact classify_agrees _ _ _

theorem waitDevReady_agrees (s : State) : (waitDevReady recover s).Agrees s.cfg := by
  have hs : ∀ t, RsmFrame t (sampleDevReady t).2 := by
    intro t
    unfold sampleDevReady
    simp only
    split <;> exact (RsmFrame.ofRegRead _ _).trans (.ofSetFsm _ _)
  have h : RsmFrame s (poll sampleDevReady setRsmRetry s.rsm.retry.toNat s).2 :=
    poll_rel (R := RsmFrame) .trans hs (fun v t => (RsmFrame.ofDelayUs 1 t).trans (.ofSetRsmRetry v _)) _ _
  unfold waitDevReady
  split
  · next t ht => rw [ht] at h; rw [← h.cfg]; exact returnTimeout_agrees t
  · next t ht => rw [ht] at h; rw [← h.cfg]; exact readStatus_agrees hrec t

theorem waitChipReady_agrees (s : State) : (waitChipReady recover s).Agrees s.cfg := by
  have h : RsmFrame s (poll (sampleChipReady recover) setRsmRetry s.rsm.retry.toNat s).2 :=
    poll_rel (R := RsmFrame) .trans (.ofSampleChipReady hrec) (fun v t => (RsmFrame.ofDelayUs 1 t).trans (.ofSetRsmRetry v _))
      _ _
  unfold waitChipReady
  split
  · next t ht => rw [ht] at h; rw [← h.cfg]; exact returnTimeout_agrees t
  · next code sb t ht =>
    obtain ⟨u, hu⟩ := poll_some ht
    rw [ht] at h
    rw [← h.cfg]
    unfold sampleChipReady at hu
    simp only at hu
    split at hu
    · simp only [Prod.mk.injEq, Option.some.injEq] at hu
      obtain ⟨⟨rfl, rfl⟩, rfl⟩ := hu
      rw [(RsmFrame.ofClassify _ _ _).cfg]
      exact classify_agrees true (readStatusRaw recover u).sb (readStatusRaw recover u).st
    · split at hu
      · simp only [Prod.mk.injEq, Option.some.injEq] at hu
        obtain ⟨⟨rfl, rfl⟩, rfl⟩ := hu
        rw [(RsmFrame.ofClassify _ (readStatusRaw recover u).sb _).cfg]
        exact classify_agrees false (readStatusRaw recover u).sb (setFsm .deviceReady (readStatusRaw recover u).st)
      · simp at hu

theorem waitDevice_agrees (s : State) : (waitDevice recover s).Agrees s.cfg := by
  have h : (reloadRetry (setFsm .transDone s)).cfg = s.cfg := by unfold reloadRetry; split <;> rfl
  unfold waitDevice
  simp only
  split
  · rw [← h]; exact waitDevReady_agrees hrec _
  · rw [← h]; exact waitChipReady_agrees hrec _

theorem waitReady_agrees (ms : Millis) (s : State) : (waitReady recover ms s).Agrees s.cfg := by
  have h2 := fun t => (RsmFrame.ofPollReg .interruptStatus (istDone s.cfg) setRsmRetry RsmFrame.ofSetRsmRetry
    (retryBudget s.cfg ms) t).cfg
  have h3 : ∀ v, (setRsmBudget v (snooze ms (setFsm .transPending s))).cfg = s.cfg := by
    intro v; unfold snooze; split <;> rfl
  unfold waitReady
  simp only
  split
  · next t ht => rw [← h3, ← h2, ht]; exact returnTimeout_agrees t
  · next t ht => rw [← h3, ← h2, ht]; exact waitDevice_agrees hrec t

theorem chipReset_agrees (s : State) : (chipReset recover s).Agrees s.cfg := by
  rw [← regWrites_cfg s.cfg.chipResetSeq s]
  exact waitReady_agrees hrec _ _

end

theorem allReset_agrees (s : State) : (allReset s).Agrees s.cfg := by
  have h1 : (waitBufClear (toggleBufClear (enterRecovery s).2)).2.cfg = s.cfg :=
    ((RsmFrame.ofToggleBufClear (enterRecovery s).2).trans (.ofPollReg _ _ _ .ofSetAuxRetry _ _)).cfg
  have h2 : ∀ t, (waitCtrlIdle t).2.cfg = t.cfg := fun t => (RsmFrame.ofPollReg _ _ _ .ofSetAuxRetry _ _).cfg
  unfold allReset
  simp only
  split
  · next t ht => rw [← h1, ht]; exact returnTimeout_agrees (leaveRecovery _ t)
  · next t ht =>
    have h2 := h2 t
    rw [ht] at h1
    split
    · next u hu => rw [← h1, ← h2, hu]; exact returnTimeout_agrees (leaveRecovery _ u)
    · next u hu =>
      rw [← h1, ← h2, hu]
      exact chipReset_agrees (recover := id) (fun s => .refl s) u

/-! ## A recovery starts no recovery (R121) -/

theorem readStatusRaw_recovering (f g : State → State) {s : State} (h : s.inRecovery = true) :
    readStatusRaw f s = readStatusRaw g s := by
  have hk := fun t => (RsmFrame.ofPollReg .interruptStatus (istRxReady s.cfg) setAuxRetry RsmFrame.ofSetAuxRetry
    s.cfg.statusRetries t).inRecovery
  unfold readStatusRaw
  simp only
  split
  · rfl
  · next t ht =>
    have : t.inRecovery = true := by
      have := hk (setFsm .statusRead (regWrites s.cfg.statusReadSeq (regWrite .interruptStatus s.cfg.intClearAll s)))
      rw [ht] at this
      simpa [h] using this
    simp [recoverOnce, this]

theorem readStatus_recovering (f g : State → State) {s : State} (h : s.inRecovery = true) :
    readStatus f s = readStatus g s := by
  unfold readStatus
  rw [readStatusRaw_recovering f g h]

theorem sampleChipReady_recovering (f g : State → State) {s : State} (h : s.inRecovery = true) :
    sampleChipReady f s = sampleChipReady g s := by
  unfold sampleChipReady
  rw [readStatusRaw_recovering f g h]

/-- Two samples that agree where `in_recovery` is set make the same poll there. -/
theorem poll_congr {α : Type} {f g : State → Option α × State} {setCtr : Word → State → State} (P : State → Prop)
    (hfg : ∀ s, P s → f s = g s) (hP : ∀ s, P s → P (g s).2) (hc : ∀ v s, P s → P (setCtr v (delayUs 1 s))) (n : Nat)
    {s : State} (h : P s) : poll f setCtr n s = poll g setCtr n s := by
  induction n generalizing s with
  | zero => exact hfg s h
  | succ n ih =>
    have hp := hP s h
    rw [poll, poll, hfg s h]
    split
    · rfl
    · next t ht => rw [ht] at hp; exact ih (hc _ _ hp)

theorem waitReady_recovering (f g : State → State) (hg : ∀ s, RsmFrame s (g s)) (ms : Millis) {s : State}
    (h : s.inRecovery = true) : waitReady f ms s = waitReady g ms s := by
  have h2 := fun t => (RsmFrame.ofPollReg .interruptStatus (istDone s.cfg) setRsmRetry RsmFrame.ofSetRsmRetry
    (retryBudget s.cfg ms) t).inRecovery
  have h3 : ∀ v, (setRsmBudget v (snooze ms (setFsm .transPending s))).inRecovery = true := by
    intro v; unfold snooze; split <;> simpa using h
  unfold waitReady
  simp only
  split
  · rfl
  · next t ht =>
    have ht' : t.inRecovery = true := by
      have := h2 (setRsmBudget (BitVec.ofNat 32 (retryBudget s.cfg ms)) (snooze ms (setFsm .transPending s)))
      rw [ht, h3] at this
      exact this
    have hr : (reloadRetry (setFsm .transDone t)).inRecovery = true := by unfold reloadRetry; split <;> simpa using ht'
    unfold waitDevice
    simp only
    split
    · unfold waitDevReady
      split
      · rfl
      · next u hu =>
        have hs : ∀ v, RsmFrame v (sampleDevReady v).2 := by
          intro v
          unfold sampleDevReady
          simp only
          split <;> exact (RsmFrame.ofRegRead _ _).trans (.ofSetFsm _ _)
        have hp := poll_rel (R := RsmFrame) .trans hs (fun v t => (RsmFrame.ofDelayUs 1 t).trans (.ofSetRsmRetry v _))
          (reloadRetry (setFsm .transDone t)).rsm.retry.toNat (reloadRetry (setFsm .transDone t))
        rw [hu] at hp
        exact readStatus_recovering f g (hp.inRecovery.trans hr)
    · unfold waitChipReady
      rw [poll_congr (f := sampleChipReady f) (g := sampleChipReady g) (fun s => s.inRecovery = true)
        (fun s hs => sampleChipReady_recovering f g hs)
        (fun s hs => (RsmFrame.ofSampleChipReady hg s).inRecovery.trans hs) (fun _ _ hs => hs) _ (by simpa using hr)]

end Sys2Proof.Machine
end

