-- ==== Sys2Proof/Laws/RsmCost.lean ====
section
/-! SUPPORT. How many register reads each procedure of the RSM makes at most (R124). -/

namespace Sys2Proof.Machine

/-- The register reads in the history of a state. -/
def readCost (s : State) : Nat := regReadCount s.trace

/-- The reads of one status read (R116). -/
def rawReads (c : Config) : Nat := c.statusRetries + 2

/-- The reads of WaitReady with a budget of `b` and without a recovery (R124). -/
def waitReads (c : Config) (b : Nat) : Nat :=
  if c.hasRb then (b + 1) + (b + 1) + rawReads c else (b + 1) + (b + 1) * rawReads c

/-- The reads of one recovery (R124). -/
def recoveryReads (c : Config) : Nat := 1 + 2 * (c.resetRetries + 1) + waitReads c (retryBudget c 0)

theorem toNat_ofNat_le (n : Nat) : (BitVec.ofNat 32 n).toNat ≤ n := by
  rw [BitVec.toNat_ofNat]; exact Nat.mod_le _ _

@[simp] theorem readCost_regRead (r : NfcReg) (s : State) : readCost (regRead r s).2 = readCost s + 1 := by
  simp [readCost, regReadCount, List.countP_cons, isRegRead]

@[simp] theorem readCost_regWrite (r : NfcReg) (v : Word) (s : State) : readCost (regWrite r v s) = readCost s := by
  simp [readCost, regReadCount, isRegRead]

theorem regReadCount_seqEvents (seq : List (NfcReg × Word)) : regReadCount (seqEvents seq) = 0 := by
  induction seq with
  | nil => rfl
  | cons p rest ih =>
    obtain ⟨r, v⟩ := p
    simp only [regReadCount, seqEvents, List.countP_append] at ih ⊢
    simp [ih, isRegRead]

@[simp] theorem readCost_regWrites (seq : List (NfcReg × Word)) (s : State) :
    readCost (regWrites seq s) = readCost s := by
  have := regReadCount_seqEvents seq
  simp only [readCost, regReadCount, regWrites_trace, List.countP_append] at this ⊢
  omega

@[simp] theorem readCost_setFsm (f : Fsm) (s : State) : readCost (setFsm f s) = readCost s := rfl
@[simp] theorem readCost_setRsmRetry (v : Word) (s : State) : readCost (setRsmRetry v s) = readCost s := rfl
@[simp] theorem readCost_setRsmBudget (v : Word) (s : State) : readCost (setRsmBudget v s) = readCost s := rfl
@[simp] theorem readCost_setAuxRetry (v : Word) (s : State) : readCost (setAuxRetry v s) = readCost s := rfl
@[simp] theorem readCost_delayUs (n : Nat) (s : State) : readCost (delayUs n s) = readCost s := rfl
@[simp] theorem readCost_leaveRecovery (b : Bool) (s : State) : readCost (leaveRecovery b s) = readCost s := rfl
@[simp] theorem readCost_enterRecovery (s : State) : readCost (enterRecovery s).2 = readCost s := rfl

@[simp] theorem readCost_returnTimeout (s : State) : readCost (returnTimeout s).st = readCost s := rfl

@[simp] theorem readCost_classify (b : Bool) (sb : Byte) (s : State) : readCost (classify b sb s).st = readCost s := by
  unfold classify
  split
  · rfl
  · split <;> rfl

theorem readCost_snooze (ms : Millis) (s : State) : readCost (snooze ms s) = readCost s := by
  unfold snooze; split <;> rfl

/-- A poll of one register with a budget reads it at most once more than the budget (R17). -/
theorem readCost_pollReg (r : NfcReg) (test : Word → Bool) {setCtr : Word → State → State}
    (hset : ∀ v s, readCost (setCtr v s) = readCost s) (n : Nat) (s : State) :
    readCost (pollUntil (sampleReg r test) setCtr n s).2 ≤ readCost s + (n + 1) := by
  have hB := toNat_ofNat_le n
  unfold pollUntil
  generalize hb : BitVec.ofNat 32 n = b
  rw [hb] at hB
  have hv : ∀ {u t a}, sampleReg r test u = (a, t) → readCost t = readCost u + 1 := by
    intro u t a hs
    have : t = (regRead r u).2 := by simpa [sampleReg] using (congrArg Prod.snd hs).symm
    rw [this, readCost_regRead]
  have key := poll_spec (sample := sampleReg r test) (setCtr := setCtr)
    (P := fun m u => readCost u + (m + 1) ≤ readCost s + (b.toNat + 1))
    (Q := fun _ u => readCost u ≤ readCost s + (b.toNat + 1)) (n := b.toNat) (s := setCtr b s)
    (by rintro m u a t hp hs; have := hv hs; omega)
    (by rintro u t hp hs; have := hv hs; omega)
    (by rintro m u t hp hs; have := hv hs; rw [hset, readCost_delayUs]; omega)
    (by rw [hset])
  omega

section
variable {recover : State → State} {R : Nat} {c : Config} (hf : ∀ s, RsmFrame s (recover s))
  (hrec : ∀ s, s.cfg = c → readCost (recover s) ≤ readCost s + R)
include hf hrec

omit hf in
theorem readStatusRaw_cost {s : State} (hc : s.cfg = c) :
    readCost (readStatusRaw recover s).st ≤ readCost s + rawReads c +
      (if (readStatusRaw recover s).timedOut then R else 0) := by
  let issued := setFsm .statusRead (regWrites s.cfg.statusReadSeq (regWrite .interruptStatus s.cfg.intClearAll s))
  have h0 : readCost issued = readCost s := by simp [issued]
  have h1 := readCost_pollReg .interruptStatus (istRxReady s.cfg) readCost_setAuxRetry s.cfg.statusRetries issued
  have h2 := (RsmFrame.ofPollReg .interruptStatus (istRxReady s.cfg) setAuxRetry RsmFrame.ofSetAuxRetry
    s.cfg.statusRetries issued).cfg
  subst hc
  have hraw : readStatusRaw recover s =
      match pollUntil (sampleReg .interruptStatus (istRxReady s.cfg)) setAuxRetry s.cfg.statusRetries issued with
      | (some (), t) => ⟨false, wordByte (regRead .data t).1 0, (regRead .data t).2⟩
      | (none, t) => ⟨true, t.cfg.failByte, recoverOnce recover t⟩ := rfl
  rw [hraw]
  rcases hp : pollUntil (sampleReg .interruptStatus (istRxReady s.cfg)) setAuxRetry s.cfg.statusRetries issued
    with ⟨_ | ⟨⟩, t⟩
  · rw [hp] at h1 h2
    simp only [rawReads, if_true] at h1 ⊢
    unfold recoverOnce
    split
    · omega
    · have := hrec t (by rw [h2]; simp [issued]); omega
  · rw [hp] at h1
    simp only [rawReads, readCost_regRead, Bool.false_eq_true, if_false] at h1 ⊢
    omega

omit hf in
theorem readStatus_cost {s : State} (hc : s.cfg = c) :
    readCost (readStatus recover s).st ≤ readCost s + rawReads c + R := by
  have := readStatusRaw_cost hrec hc
  unfold readStatus
  simp only [readCost_classify]
  split at this <;> omega

omit hf in
theorem waitDevReady_cost {s : State} (hc : s.cfg = c) :
    readCost (waitDevReady recover s).st ≤ readCost s + (s.rsm.retry.toNat + 1) + rawReads c + R := by
  have hs : ∀ u, readCost (sampleDevReady u).2 = readCost u + 1 ∧ (sampleDevReady u).2.cfg = u.cfg := by
    intro u; unfold sampleDevReady; simp only; split <;> simp
  have key := poll_spec (sample := sampleDevReady) (setCtr := setRsmRetry)
    (P := fun m u => u.cfg = c ∧ readCost u + (m + 1) ≤ readCost s + (s.rsm.retry.toNat + 1))
    (Q := fun _ u => u.cfg = c ∧ readCost u ≤ readCost s + (s.rsm.retry.toNat + 1)) (n := s.rsm.retry.toNat) (s := s)
    (by rintro m u a t ⟨hp, hq⟩ ht; have := hs u; rw [ht] at this; simp only at this; exact ⟨by rw [this.2, hp], by omega⟩)
    (by rintro u t ⟨hp, hq⟩ ht; have := hs u; rw [ht] at this; simp only at this; exact ⟨by rw [this.2, hp], by omega⟩)
    (by
      rintro m u t ⟨hp, hq⟩ ht
      have := hs u
      rw [ht] at this
      simp only at this
      exact ⟨by simp [this.2, hp], by simp; omega⟩)
    ⟨hc, by omega⟩
  unfold waitDevReady
  split
  · next t ht => rw [ht] at key; simp only [readCost_returnTimeout] at key ⊢; omega
  · next t ht =>
    rw [ht] at key
    simp only at key
    have := readStatus_cost hrec key.1
    omega

theorem waitChipReady_cost {s : State} (hc : s.cfg = c) :
    readCost (waitChipReady recover s).st ≤ readCost s + (s.rsm.retry.toNat + 1) * rawReads c + R := by
  have hs : ∀ u, u.cfg = c → readCost (sampleChipReady recover u).2 ≤ readCost u + rawReads c +
      (if (sampleChipReady recover u).1.isSome then R else 0) := by
    intro u hu
    have := readStatusRaw_cost hrec hu
    unfold sampleChipReady
    simp only
    split
    · next h => simp only [h, if_true] at this; simpa using this
    · next h =>
      simp only [h, Bool.false_eq_true, if_false] at this
      split
      · simp; omega
      · simpa using this
  have hcf : ∀ u, (sampleChipReady recover u).2.cfg = u.cfg := fun u => (RsmFrame.ofSampleChipReady hf u).cfg
  have key := poll_spec (sample := sampleChipReady recover) (setCtr := setRsmRetry)
    (P := fun m u => u.cfg = c ∧ readCost u + (m + 1) * rawReads c ≤ readCost s + (s.rsm.retry.toNat + 1) * rawReads c)
    (Q := fun _ u => readCost u ≤ readCost s + (s.rsm.retry.toNat + 1) * rawReads c + R)
    (n := s.rsm.retry.toNat) (s := s)
    (by
      rintro m u a t ⟨hp, hq⟩ ht
      have := hs u hp
      rw [ht] at this
      simp only [Option.isSome_some, if_true] at this
      have : rawReads c ≤ (m + 1) * rawReads c := Nat.le_mul_of_pos_left _ (by omega)
      omega)
    (by
      rintro u t ⟨hp, hq⟩ ht
      have := hs u hp
      rw [ht] at this
      simp only [Option.isSome_none, Bool.false_eq_true, if_false] at this
      omega)
    (by
      rintro m u t ⟨hp, hq⟩ ht
      have := hs u hp
      have h2 := hcf u
      rw [ht] at this h2
      simp only [Option.isSome_none, Bool.false_eq_true, if_false] at this
      refine ⟨by simpa using h2.trans hp, ?_⟩
      rw [show (m + 1 + 1) * rawReads c = (m + 1) * rawReads c + rawReads c by ring] at hq
      simp only [readCost_setRsmRetry, readCost_delayUs]
      omega)
    ⟨hc, by omega⟩
  unfold waitChipReady
  split
  · next t ht => rw [ht] at key; simpa using key
  · next t ht => rw [ht] at key; exact key

theorem waitReady_cost (ms : Millis) {s : State} (hc : s.cfg = c) :
    readCost (waitReady recover ms s).st ≤ readCost s + waitReads c (retryBudget c ms) + R := by
  subst hc
  let b := BitVec.ofNat 32 (retryBudget s.cfg ms)
  let started := setRsmBudget b (snooze ms (setFsm .transPending s))
  have hb : b.toNat ≤ retryBudget s.cfg ms := toNat_ofNat_le _
  have h0 : readCost started = readCost s := by simp [started, readCost_snooze]
  have h0c : started.cfg = s.cfg := by simp only [started]; unfold snooze; split <;> rfl
  have h1 := readCost_pollReg .interruptStatus (istDone s.cfg) readCost_setRsmRetry (retryBudget s.cfg ms) started
  have h2 := (RsmFrame.ofPollReg .interruptStatus (istDone s.cfg) setRsmRetry RsmFrame.ofSetRsmRetry
    (retryBudget s.cfg ms) started).cfg
  have h3 : (pollUntil (sampleReg .interruptStatus (istDone s.cfg)) setRsmRetry (retryBudget s.cfg ms) started).2.rsm.budget
        = b ∧
      (pollUntil (sampleReg .interruptStatus (istDone s.cfg)) setRsmRetry (retryBudget s.cfg ms) started).2.rsm.retry.toNat
        ≤ b.toNat := by
    unfold pollUntil
    refine poll_spec (sample := sampleReg .interruptStatus (istDone s.cfg)) (setCtr := setRsmRetry)
      (P := fun m u => m ≤ b.toNat ∧ u.rsm.budget = b ∧ u.rsm.retry.toNat ≤ b.toNat)
      (Q := fun _ u => u.rsm.budget = b ∧ u.rsm.retry.toNat ≤ b.toNat) ?_ ?_ ?_ ⟨le_rfl, ?_, ?_⟩
    · rintro m u a t ⟨-, hp⟩ hs
      have : t = (regRead .interruptStatus u).2 := by simpa [sampleReg] using (congrArg Prod.snd hs).symm
      subst this; simpa using hp
    · rintro u t ⟨-, hp⟩ hs
      have : t = (regRead .interruptStatus u).2 := by simpa [sampleReg] using (congrArg Prod.snd hs).symm
      subst this; simpa using hp
    · rintro m u t ⟨hm, hp⟩ hs
      have : t = (regRead .interruptStatus u).2 := by simpa [sampleReg] using (congrArg Prod.snd hs).symm
      subst this
      refine ⟨by omega, by simpa using hp.1, ?_⟩
      have := toNat_ofNat_le m
      simp only [setRsmRetry_rsm]
      omega
    · rfl
    · exact le_rfl
  unfold waitReady
  simp only
  split
  · next t ht =>
    rw [show setRsmBudget (BitVec.ofNat 32 (retryBudget s.cfg ms)) (snooze ms (setFsm .transPending s)) = started from rfl]
      at ht
    rw [ht] at h1
    simp only [readCost_returnTimeout]
    simp only at h1
    unfold waitReads
    split <;> omega
  · next t ht =>
    rw [show setRsmBudget (BitVec.ofNat 32 (retryBudget s.cfg ms)) (snooze ms (setFsm .transPending s)) = started from rfl]
      at ht
    rw [ht] at h1 h2 h3
    simp only at h1 h2 h3
    have hr : readCost (reloadRetry (setFsm .transDone t)) = readCost t ∧
        (reloadRetry (setFsm .transDone t)).cfg = s.cfg ∧
        (reloadRetry (setFsm .transDone t)).rsm.retry.toNat ≤ retryBudget s.cfg ms := by
      unfold reloadRetry
      split
      · exact ⟨rfl, by simp [h2, h0c], by simp; omega⟩
      · exact ⟨rfl, by simp [h2, h0c], by simp [h3.1]; omega⟩
    obtain ⟨r1, r2, r3⟩ := hr
    unfold waitDevice
    simp only [r2]
    unfold waitReads
    split
    · have := waitDevReady_cost hrec r2
      omega
    · have := waitChipReady_cost hf hrec (s := setFsm .deviceBusy (reloadRetry (setFsm .transDone t))) (by simpa using r2)
      have hm := Nat.mul_le_mul_right (rawReads s.cfg) (Nat.succ_le_succ r3)
      simp only [readCost_setFsm, setFsm_rsm, Nat.succ_eq_add_one] at this hm
      omega

theorem chipReset_cost {s : State} (hc : s.cfg = c) :
    readCost (chipReset recover s).st ≤ readCost s + waitReads c (retryBudget c 0) + R := by
  have := waitReady_cost hf hrec 0 (s := regWrites s.cfg.chipResetSeq s) (by simpa using hc)
  simpa [chipReset] using this

end

theorem allReset_cost (s : State) : readCost (allReset s).st ≤ readCost s + recoveryReads s.cfg := by
  have h0 : readCost (toggleBufClear (enterRecovery s).2) = readCost s + 1 ∧
      (toggleBufClear (enterRecovery s).2).cfg = s.cfg := by
    simp only [toggleBufClear, readCost_regWrite, readCost_regRead, readCost_enterRecovery]
    exact ⟨trivial, by simp [enterRecovery]⟩
  have h1 : readCost (waitBufClear (toggleBufClear (enterRecovery s).2)).2 ≤ readCost s + 1 + (s.cfg.resetRetries + 1) := by
    have := readCost_pollReg (toggleBufClear (enterRecovery s).2).cfg.bufClearDone.reg
      (bufClearTookEffect (toggleBufClear (enterRecovery s).2).cfg) readCost_setAuxRetry
      (toggleBufClear (enterRecovery s).2).cfg.resetRetries (toggleBufClear (enterRecovery s).2)
    rw [h0.1] at this
    simp only [h0.2] at this
    unfold waitBufClear
    simpa only [h0.2] using this
  have c1 : (waitBufClear (toggleBufClear (enterRecovery s).2)).2.cfg = s.cfg :=
    ((RsmFrame.ofToggleBufClear (enterRecovery s).2).trans (.ofPollReg _ _ _ .ofSetAuxRetry _ _)).cfg
  have h2 : ∀ t, readCost (waitCtrlIdle t).2 ≤ readCost t + (t.cfg.resetRetries + 1) := fun t =>
    readCost_pollReg _ _ readCost_setAuxRetry _ _
  have c2 : ∀ t, (waitCtrlIdle t).2.cfg = t.cfg := fun t => (RsmFrame.ofPollReg _ _ _ .ofSetAuxRetry _ _).cfg
  unfold allReset recoveryReads
  simp only
  split
  · next t ht => rw [ht] at h1; simp at h1 ⊢; omega
  · next t ht =>
    rw [ht] at h1 c1
    have h2 := h2 t
    have c2 := c2 t
    simp only at c1
    split
    · next u hu => rw [hu] at h2; rw [c1] at h2; simp at h1 h2 ⊢; omega
    · next u hu =>
      rw [hu] at h2 c2
      rw [c1] at h2 c2
      have := chipReset_cost (recover := id) (R := 0) (fun s => .refl s) (fun s _ => by simp) (s := u) c2
      simp only [readCost_leaveRecovery] at h1 h2 ⊢
      omega

theorem recovery_cost {c : Config} (s : State) (h : s.cfg = c) :
    readCost (recovery s) ≤ readCost s + recoveryReads c := by
  subst h; exact allReset_cost s

end Sys2Proof.Machine
end

