-- ==== Sys2Proof/Laws/RsmFsm.lean ====
section
/-! SUPPORT. No procedure of the RSM reads `fsm` (R23, R126): each gives the same from any starting value. -/

namespace Sys2Proof.Machine

/-- The state with another value in `fsm`. -/
def withFsm (f : Fsm) (s : State) : State := { s with fsm := f }

variable (f : Fsm)

theorem regRead_withFsm (r : NfcReg) (s : State) :
    regRead r (withFsm f s) = ((regRead r s).1, withFsm f (regRead r s).2) := by
  unfold regRead envAnswer withFsm
  simp only
  split <;> rfl

theorem regWrites_withFsm (seq : List (NfcReg × Word)) (s : State) :
    regWrites seq (withFsm f s) = withFsm f (regWrites seq s) := by
  induction seq generalizing s with
  | nil => rfl
  | cons p rest ih =>
    obtain ⟨r, v⟩ := p
    rw [regWrites, regWrites, show regWrite r v (withFsm f s) = withFsm f (regWrite r v s) by cases r <;> rfl, ih]

theorem poll_withFsm {α : Type} {sample : State → Option α × State} {setCtr : Word → State → State}
    (hs : ∀ s, sample (withFsm f s) = ((sample s).1, withFsm f (sample s).2))
    (hc : ∀ v s, setCtr v (withFsm f s) = withFsm f (setCtr v s)) (n : Nat) (s : State) :
    poll sample setCtr n (withFsm f s) = ((poll sample setCtr n s).1, withFsm f (poll sample setCtr n s).2) := by
  induction n generalizing s with
  | zero => exact hs s
  | succ n ih =>
    rw [poll, poll, hs s]
    rcases sample s with ⟨_ | a, t⟩
    · simp only
      rw [show delayUs 1 (withFsm f t) = withFsm f (delayUs 1 t) from rfl, hc, ih]
    · rfl

theorem pollReg_withFsm (r : NfcReg) (test : Word → Bool) {setCtr : Word → State → State}
    (hc : ∀ v s, setCtr v (withFsm f s) = withFsm f (setCtr v s)) (n : Nat) (s : State) :
    pollUntil (sampleReg r test) setCtr n (withFsm f s) =
      ((pollUntil (sampleReg r test) setCtr n s).1, withFsm f (pollUntil (sampleReg r test) setCtr n s).2) := by
  unfold pollUntil
  rw [hc, poll_withFsm f (fun s => by simp [sampleReg, regRead_withFsm]) hc]

theorem readStatusRaw_withFsm (recover : State → State) (s : State) :
    readStatusRaw recover (withFsm f s) = readStatusRaw recover s := by
  have h : setFsm .statusRead (regWrites s.cfg.statusReadSeq (regWrite .interruptStatus s.cfg.intClearAll (withFsm f s)))
      = setFsm .statusRead (regWrites s.cfg.statusReadSeq (regWrite .interruptStatus s.cfg.intClearAll s)) := by
    rw [show regWrite .interruptStatus s.cfg.intClearAll (withFsm f s) =
      withFsm f (regWrite .interruptStatus s.cfg.intClearAll s) from rfl, regWrites_withFsm]
    rfl
  unfold readStatusRaw
  simp only
  rw [show (withFsm f s).cfg = s.cfg from rfl, h]

theorem readStatus_withFsm (recover : State → State) (s : State) :
    readStatus recover (withFsm f s) = readStatus recover s := by
  unfold readStatus
  rw [readStatusRaw_withFsm]

theorem waitReady_withFsm (recover : State → State) (ms : Millis) (s : State) :
    waitReady recover ms (withFsm f s) = waitReady recover ms s := rfl

theorem chipReset_withFsm (recover : State → State) (s : State) :
    chipReset recover (withFsm f s) = chipReset recover s := by
  unfold chipReset
  rw [show (withFsm f s).cfg = s.cfg from rfl, regWrites_withFsm, waitReady_withFsm]

theorem allReset_withFsm (s : State) : allReset (withFsm f s) = allReset s := by
  have h0 : toggleBufClear (enterRecovery (withFsm f s)).2 = withFsm f (toggleBufClear (enterRecovery s).2) := by
    unfold toggleBufClear
    rw [show (enterRecovery (withFsm f s)).2 = withFsm f (enterRecovery s).2 from rfl]
    simp only [regRead_withFsm]
    rfl
  have h1 : ∀ t, waitBufClear (withFsm f t) = ((waitBufClear t).1, withFsm f (waitBufClear t).2) := fun t =>
    pollReg_withFsm f t.cfg.bufClearDone.reg (bufClearTookEffect t.cfg) (setCtr := setAuxRetry) (fun _ _ => rfl)
      t.cfg.resetRetries t
  have h2 : ∀ t, waitCtrlIdle (withFsm f t) = ((waitCtrlIdle t).1, withFsm f (waitCtrlIdle t).2) := fun t =>
    pollReg_withFsm f .status (fun v => !statusCtrlBusy t.cfg v) (setCtr := setAuxRetry) (fun _ _ => rfl)
      t.cfg.resetRetries t
  unfold allReset
  simp only
  rw [h0, h1, show (enterRecovery (withFsm f s)).1 = (enterRecovery s).1 from rfl]
  rcases waitBufClear (toggleBufClear (enterRecovery s).2) with ⟨_ | ⟨⟩, t⟩
  · rfl
  · simp only
    rw [h2]
    rcases waitCtrlIdle t with ⟨_ | ⟨⟩, u⟩
    · rfl
    · simp only
      rw [chipReset_withFsm]

end Sys2Proof.Machine
end

