-- ==== Sys2Proof/Laws/RsmNfc.lean ====
section
/-! SUPPORT. Which NFC registers the procedures of the RSM touch: those of `rsmAccessed` and no other. -/

namespace Sys2Proof.Machine

theorem NfcFile.get_set_self {α : Type} (f : NfcFile α) (r : NfcReg) (v : α) : (f.set r v).get r = v := by
  cases r <;> rfl

theorem NfcFile.get_set_other {α : Type} (f : NfcFile α) {r r' : NfcReg} (v : α) (h : r ≠ r') :
    (f.set r v).get r' = f.get r' := by
  cases r <;> cases r' <;> first | rfl | exact absurd rfl h

/-- In configuration `c`, the registers outside `rsmAccessed c` stay as they are. -/
def NfcKept (c : Config) (s t : State) : Prop :=
  s.cfg = c → t.cfg = c ∧ ∀ r, r ∉ rsmAccessed c → t.nfc.get r = s.nfc.get r

variable {c : Config}

theorem NfcKept.refl (s : State) : NfcKept c s s := fun h => ⟨h, fun _ _ => rfl⟩

theorem NfcKept.trans {s t u : State} (h : NfcKept c s t) (k : NfcKept c t u) : NfcKept c s u := fun hc =>
  ⟨(k (h hc).1).1, fun r hr => ((k (h hc).1).2 r hr).trans ((h hc).2 r hr)⟩

theorem NfcKept.ofSame {s t : State} (h : t.cfg = s.cfg) (k : t.nfc = s.nfc) : NfcKept c s t :=
  fun hc => ⟨h.trans hc, fun r _ => by rw [k]⟩

theorem NfcKept.ofRegRead {r : NfcReg} (s : State) (hr : s.cfg = c → r ∈ rsmAccessed c) :
    NfcKept c s (regRead r s).2 := by
  intro hc
  obtain ⟨e, -, -, h⟩ := regRead_state r s
  refine ⟨by simpa using hc, fun r' hr' => ?_⟩
  rw [h]
  exact NfcFile.get_set_other _ _ (by rintro rfl; exact hr' (hr hc))

theorem NfcKept.ofRegWrite {r : NfcReg} (v : Word) (s : State) (hr : s.cfg = c → r ∈ rsmAccessed c) :
    NfcKept c s (regWrite r v s) :=
  fun hc => ⟨hc, fun _ hr' => NfcFile.get_set_other _ _ (by rintro rfl; exact hr' (hr hc))⟩

theorem NfcKept.ofRegWrites {seq : List (NfcReg × Word)} (s : State)
    (h : s.cfg = c → ∀ p ∈ seq, p.1 ∈ rsmAccessed c) : NfcKept c s (regWrites seq s) := by
  induction seq generalizing s with
  | nil => exact .refl s
  | cons p rest ih =>
    obtain ⟨r, v⟩ := p
    rw [regWrites]
    exact (NfcKept.ofRegWrite v s fun hc => h hc (r, v) (by simp)).trans
      (ih _ fun hc q hq => h hc q (List.mem_cons_of_mem _ hq))

theorem NfcKept.ofPollReg {r : NfcReg} (hr : r ∈ rsmAccessed c) (test : Word → Bool)
    {setCtr : Word → State → State} (hset : ∀ v s, (setCtr v s).cfg = s.cfg ∧ (setCtr v s).nfc = s.nfc) (n : Nat)
    (s : State) : NfcKept c s (pollUntil (sampleReg r test) setCtr n s).2 :=
  pollUntil_rel (R := NfcKept c) .trans (fun s => .ofRegRead s fun _ => hr)
    (fun v s => .ofSame (hset v (delayUs 1 s)).1 (hset v (delayUs 1 s)).2) (fun v s => .ofSame (hset v s).1 (hset v s).2)
    n s

theorem NfcKept.ofClassify (b : Bool) (sb : Byte) (s : State) : NfcKept c s (classify b sb s).st := by
  unfold classify
  split
  · exact .ofSame rfl rfl
  · split <;> exact .ofSame rfl rfl

theorem mem_accessed_status {p : NfcReg × Word} (h : p ∈ c.statusReadSeq) : p.1 ∈ rsmAccessed c :=
  List.mem_append_right _ (List.mem_map.mpr ⟨p, List.mem_append_left _ h, rfl⟩)

theorem mem_accessed_reset {p : NfcReg × Word} (h : p ∈ c.chipResetSeq) : p.1 ∈ rsmAccessed c :=
  List.mem_append_right _ (List.mem_map.mpr ⟨p, List.mem_append_right _ h, rfl⟩)

section
variable {recover : State → State} (hrec : ∀ s, NfcKept c s (recover s))
include hrec

theorem NfcKept.ofReadStatusRaw (s : State) : NfcKept c s (readStatusRaw recover s).st := by
  have h1 : ∀ w, NfcKept c s (setFsm .statusRead (regWrites s.cfg.statusReadSeq (regWrite .interruptStatus w s))) :=
    fun w => ((NfcKept.ofRegWrite w s fun _ => by simp [rsmAccessed]).trans
      (NfcKept.ofRegWrites _ fun hc p hp => by rw [regWrite_cfg] at hc; rw [hc] at hp; exact mem_accessed_status hp)).trans
      (.ofSame rfl rfl)
  have h2 := fun t => NfcKept.ofPollReg (c := c) (r := .interruptStatus) (by simp [rsmAccessed]) (istRxReady s.cfg)
    (setCtr := setAuxRetry) (fun _ _ => ⟨rfl, rfl⟩) s.cfg.statusRetries t
  unfold readStatusRaw
  simp only
  split
  · next t ht => exact (h1 _).trans ((ht ▸ h2 _).trans (.ofRegRead _ fun _ => by simp [rsmAccessed]))
  · next t ht =>
    refine (h1 _).trans ((ht ▸ h2 _).trans ?_)
    unfold recoverOnce
    split
    · exact .refl t
    · exact hrec t

theorem NfcKept.ofReadStatus (s : State) : NfcKept c s (readStatus recover s).st :=
  (NfcKept.ofReadStatusRaw hrec s).trans (.ofClassify _ _ _)

theorem NfcKept.ofSampleChipReady (s : State) : NfcKept c s (sampleChipReady recover s).2 := by
  have h := NfcKept.ofReadStatusRaw hrec s
  unfold sampleChipReady
  simp only
  split
  · exact h.trans (.ofClassify _ _ _)
  · split
    · exact h.trans ((NfcKept.ofSame (t := setFsm .deviceReady _) rfl rfl).trans (.ofClassify _ _ _))
    · exact h.trans (.ofSame rfl rfl)

theorem NfcKept.ofWaitDevice (s : State) : NfcKept c s (waitDevice recover s).st := by
  have h : NfcKept c s (reloadRetry (setFsm .transDone s)) := by unfold reloadRetry; split <;> exact .ofSame rfl rfl
  have hs : ∀ t, NfcKept c t (sampleDevReady t).2 := by
    intro t
    unfold sampleDevReady
    simp only
    split <;> exact (NfcKept.ofRegRead t fun _ => by simp [rsmAccessed]).trans (.ofSame rfl rfl)
  unfold waitDevice
  simp only
  split
  · unfold waitDevReady
    have hp := fun t : State => poll_rel (R := NfcKept c) (setCtr := setRsmRetry) .trans hs
      (fun v t => .ofSame rfl rfl) t.rsm.retry.toNat t
    split
    · next u hu => exact h.trans ((hu ▸ hp _).trans (.ofSame rfl rfl))
    · next u hu => exact h.trans ((hu ▸ hp _).trans (.ofReadStatus hrec _))
  · unfold waitChipReady
    have hp := fun t : State => poll_rel (R := NfcKept c) (setCtr := setRsmRetry) .trans
      (NfcKept.ofSampleChipReady hrec) (fun v t => .ofSame rfl rfl) t.rsm.retry.toNat t
    refine h.trans ((NfcKept.ofSame (t := setFsm .deviceBusy _) rfl rfl).trans ?_)
    generalize setFsm .deviceBusy (reloadRetry (setFsm .transDone s)) = v
    have hv := hp v
    split
    · next u hu => rw [hu] at hv; exact hv.trans (.ofSame rfl rfl)
    · next u hu => rw [hu] at hv; exact hv

theorem NfcKept.ofWaitReady (ms : Millis) (s : State) : NfcKept c s (waitReady recover ms s).st := by
  have h : ∀ v, NfcKept c s (setRsmBudget v (snooze ms (setFsm .transPending s))) := by
    intro v; unfold snooze; split <;> exact .ofSame rfl rfl
  have h2 := fun t => NfcKept.ofPollReg (c := c) (r := .interruptStatus) (by simp [rsmAccessed]) (istDone s.cfg)
    (setCtr := setRsmRetry) (fun _ _ => ⟨rfl, rfl⟩) (retryBudget s.cfg ms) t
  unfold waitReady
  simp only
  split
  · next t ht => exact (h _).trans ((ht ▸ h2 _).trans (.ofSame rfl rfl))
  · next t ht => exact (h _).trans ((ht ▸ h2 _).trans (.ofWaitDevice hrec t))

theorem NfcKept.ofChipReset (s : State) : NfcKept c s (chipReset recover s).st :=
  (NfcKept.ofRegWrites s fun hc p hp => by rw [hc] at hp; exact mem_accessed_reset hp).trans (.ofWaitReady hrec 0 _)

end

theorem NfcKept.ofAllReset (s : State) : NfcKept c s (allReset s).st := by
  by_cases hc : s.cfg = c
  swap
  · exact fun h => absurd h hc
  subst hc
  have h0 : NfcKept s.cfg s (toggleBufClear (enterRecovery s).2) :=
    (NfcKept.ofSame (t := (enterRecovery s).2) rfl rfl).trans <|
      ((NfcKept.ofRegRead _ fun _ => by simp [rsmAccessed]).trans
        (NfcKept.ofRegWrite _ _ fun _ => by simp [rsmAccessed])).trans
        (NfcKept.ofRegWrite _ _ fun _ => by simp [rsmAccessed])
  have hcfg := (h0 rfl).1
  have h1 : NfcKept s.cfg s (waitBufClear (toggleBufClear (enterRecovery s).2)).2 :=
    h0.trans (NfcKept.ofPollReg (by rw [hcfg]; simp [rsmAccessed]) _ (setCtr := setAuxRetry) (fun _ _ => ⟨rfl, rfl⟩) _ _)
  have h2 : ∀ t, NfcKept s.cfg t (waitCtrlIdle t).2 := fun t =>
    NfcKept.ofPollReg (by simp [rsmAccessed]) _ (setCtr := setAuxRetry) (fun _ _ => ⟨rfl, rfl⟩) _ _
  unfold allReset
  simp only
  split
  · next t ht => rw [ht] at h1; exact h1.trans (.ofSame rfl rfl)
  · next t ht =>
    rw [ht] at h1
    have h2 := h2 t
    split
    · next u hu => rw [hu] at h2; exact (h1.trans h2).trans (.ofSame rfl rfl)
    · next u hu =>
      rw [hu] at h2
      exact ((h1.trans h2).trans (.ofChipReset (recover := id) (fun s => .refl s) u)).trans (.ofSame rfl rfl)

theorem NfcKept.ofRecovery (s : State) : NfcKept c s (recovery s) := .ofAllReset s

end Sys2Proof.Machine
end

