-- ==== Sys2Proof/Laws/RsmOnce.lean ====
section
/-! SUPPORT. The recovery is attempted once (R121), seen in the reads of CONTROL: AllReset reads it once, and nothing
else of the block does unless `BUF_CLEAR_DONE` names it. -/

namespace Sys2Proof.Machine

/-- The block's reads of CONTROL in the history of a state. -/
def controlReads (s : State) : Nat := regReadCountOf .control s.trace

/-- In configuration `c`, at most `k` reads of CONTROL lie between two states. -/
def ReadsControl (c : Config) (k : Nat) (s t : State) : Prop :=
  s.cfg = c → t.cfg = c ∧ controlReads t ≤ controlReads s + k

variable {c : Config}

theorem ReadsControl.ofSame {s t : State} (h : t.cfg = s.cfg) (k : t.trace = s.trace) : ReadsControl c 0 s t :=
  fun hc => ⟨h.trans hc, by simp [controlReads, k]⟩

theorem ReadsControl.trans {i j : Nat} {s t u : State} (h : ReadsControl c i s t) (k : ReadsControl c j t u) :
    ReadsControl c (i + j) s u := fun hc => by
  obtain ⟨h1, h2⟩ := h hc
  obtain ⟨k1, k2⟩ := k h1
  exact ⟨k1, by omega⟩

theorem ReadsControl.mono {i j : Nat} {s t : State} (h : ReadsControl c i s t) (hij : i ≤ j) : ReadsControl c j s t :=
  fun hc => ⟨(h hc).1, Nat.le_trans (h hc).2 (by omega)⟩

theorem ReadsControl.ofRegRead {r : NfcReg} (hr : r ≠ .control) (s : State) : ReadsControl c 0 s (regRead r s).2 :=
  fun hc => ⟨by simpa using hc, by simp [controlReads, regReadCountOf, isRegReadOf, hr]⟩

theorem ReadsControl.ofControl (s : State) : ReadsControl c 1 s (regRead .control s).2 :=
  fun hc => ⟨by simpa using hc, by simp [controlReads, regReadCountOf, isRegReadOf]⟩

theorem ReadsControl.ofRegWrite (r : NfcReg) (v : Word) (s : State) : ReadsControl c 0 s (regWrite r v s) :=
  fun hc => ⟨hc, by simp [controlReads, regReadCountOf, isRegReadOf]⟩

theorem ReadsControl.ofRegWrites (seq : List (NfcReg × Word)) (s : State) : ReadsControl c 0 s (regWrites seq s) := by
  induction seq generalizing s with
  | nil => exact .ofSame rfl rfl
  | cons p rest ih => exact (ReadsControl.ofRegWrite p.1 p.2 s).trans (ih _)

theorem ReadsControl.ofDelayUs (n : Nat) (s : State) : ReadsControl c 0 s (delayUs n s) :=
  fun hc => ⟨hc, by simp [controlReads, regReadCountOf, isRegReadOf]⟩

theorem ReadsControl.ofPollReg {r : NfcReg} (hr : r ≠ .control) (test : Word → Bool) {setCtr : Word → State → State}
    (hset : ∀ v s, (setCtr v s).cfg = s.cfg ∧ (setCtr v s).trace = s.trace) (n : Nat) (s : State) :
    ReadsControl c 0 s (pollUntil (sampleReg r test) setCtr n s).2 :=
  pollUntil_rel (R := ReadsControl c 0) .trans (fun s => .ofRegRead hr s)
    (fun v s => (ReadsControl.ofDelayUs 1 s).trans (.ofSame (hset v _).1 (hset v _).2))
    (fun v s => .ofSame (hset v s).1 (hset v s).2) n s

theorem ReadsControl.ofClassify (b : Bool) (sb : Byte) (s : State) : ReadsControl c 0 s (classify b sb s).st := by
  unfold classify
  split
  · exact .ofSame rfl rfl
  · split <;> exact .ofSame rfl rfl

section
variable {recover : State → State} {R : Nat} (hrec : ∀ s, ReadsControl c R s (recover s))
include hrec

theorem ReadsControl.ofReadStatusRaw (s : State) :
    ReadsControl c (if (readStatusRaw recover s).timedOut then R else 0) s (readStatusRaw recover s).st := by
  let issued := setFsm .statusRead (regWrites s.cfg.statusReadSeq (regWrite .interruptStatus s.cfg.intClearAll s))
  have h1 : ReadsControl c 0 s issued :=
    ((ReadsControl.ofRegWrite _ _ s).trans (.ofRegWrites _ _)).trans (.ofSame rfl rfl)
  have h2 := ReadsControl.ofPollReg (c := c) (r := .interruptStatus) (by simp) (istRxReady s.cfg)
    (setCtr := setAuxRetry) (fun _ _ => ⟨rfl, rfl⟩) s.cfg.statusRetries issued
  rw [show readStatusRaw recover s =
    match pollUntil (sampleReg .interruptStatus (istRxReady s.cfg)) setAuxRetry s.cfg.statusRetries issued with
    | (some (), t) => ⟨false, wordByte (regRead .data t).1 0, (regRead .data t).2⟩
    | (none, t) => ⟨true, t.cfg.failByte, recoverOnce recover t⟩ from rfl]
  split
  · next t ht => rw [ht] at h2; exact (h1.trans h2).trans (.ofRegRead (by simp) _)
  · next t ht =>
    rw [ht] at h2
    refine ((h1.trans h2).trans (j := R) ?_).mono (by simp)
    unfold recoverOnce
    split
    · exact (ReadsControl.ofSame rfl rfl).mono (by omega)
    · exact hrec t

theorem ReadsControl.ofReadStatus (s : State) : ReadsControl c R s (readStatus recover s).st :=
  ((ReadsControl.ofReadStatusRaw hrec s).trans (.ofClassify _ _ _)).mono (by split <;> omega)

theorem ReadsControl.ofSampleChipReady (s : State) :
    ReadsControl c (if (sampleChipReady recover s).1.isSome then R else 0) s (sampleChipReady recover s).2 := by
  have h := ReadsControl.ofReadStatusRaw hrec s
  unfold sampleChipReady
  simp only
  split
  · next hto => rw [hto] at h; exact (h.trans (.ofClassify _ _ _)).mono (by simp)
  · next hto =>
    split
    · exact ((h.trans (ReadsControl.ofSame (t := setFsm .deviceReady _) rfl rfl)).trans (.ofClassify _ _ _)).mono
        (by simp [hto])
    · exact (h.trans (ReadsControl.ofSame (t := setFsm .deviceBusy _) rfl rfl)).mono (by simp [hto])

theorem ReadsControl.ofWaitDevice (s : State) : ReadsControl c R s (waitDevice recover s).st := by
  have h : ReadsControl c 0 s (reloadRetry (setFsm .transDone s)) := by
    unfold reloadRetry; split <;> exact .ofSame rfl rfl
  have hs : ∀ t, ReadsControl c 0 t (sampleDevReady t).2 := by
    intro t
    unfold sampleDevReady
    simp only
    split <;> exact (ReadsControl.ofRegRead (by simp) t).trans (.ofSame rfl rfl)
  unfold waitDevice
  simp only
  split
  · unfold waitDevReady
    have hp := fun t : State => poll_rel (R := ReadsControl c 0) (setCtr := setRsmRetry) .trans hs
      (fun v t => (ReadsControl.ofDelayUs 1 t).trans (.ofSame rfl rfl)) t.rsm.retry.toNat t
    split
    · next u hu => exact (h.trans ((hu ▸ hp _).trans (.ofSame rfl rfl))).mono (by omega)
    · next u hu => exact (h.trans ((hu ▸ hp _).trans (.ofReadStatus hrec _))).mono (by omega)
  · refine ((h.trans (ReadsControl.ofSame (t := setFsm .deviceBusy _) rfl rfl)).trans (j := R) ?_).mono (by omega)
    generalize setFsm .deviceBusy (reloadRetry (setFsm .transDone s)) = v
    intro hc
    have key := poll_spec (sample := sampleChipReady recover) (setCtr := setRsmRetry)
      (P := fun _ u => ReadsControl c 0 v u) (Q := fun _ u => ReadsControl c R v u) (n := v.rsm.retry.toNat) (s := v)
      (by
        intro m u a t hp ht
        have := ReadsControl.ofSampleChipReady hrec u
        rw [ht] at this
        exact (hp.trans this).mono (by simp))
      (by
        intro u t hp ht
        have := ReadsControl.ofSampleChipReady hrec u
        rw [ht] at this
        exact (hp.trans this).mono (by simp))
      (by
        intro m u t hp ht
        have := ReadsControl.ofSampleChipReady hrec u
        rw [ht] at this
        exact (((hp.trans this).trans (.ofDelayUs 1 _)).trans (.ofSame rfl rfl)).mono (by simp))
      (.ofSame rfl rfl)
    unfold waitChipReady
    split
    · next u hu =>
      rw [hu] at key
      exact ((key.trans (ReadsControl.ofSame (t := (returnTimeout u).st) rfl rfl)).mono (by omega)) hc
    · next u hu => rw [hu] at key; exact key hc

theorem ReadsControl.ofWaitReady (ms : Millis) (s : State) : ReadsControl c R s (waitReady recover ms s).st := by
  have h : ∀ v, ReadsControl c 0 s (setRsmBudget v (snooze ms (setFsm .transPending s))) := by
    intro v
    unfold snooze
    split
    · exact .ofSame rfl rfl
    · exact (ReadsControl.ofSame (t := setFsm .transPending s) rfl rfl).trans
        ((ReadsControl.ofDelayUs _ _).trans (.ofSame rfl rfl))
  have h2 := fun t => ReadsControl.ofPollReg (c := c) (r := .interruptStatus) (by simp) (istDone s.cfg)
    (setCtr := setRsmRetry) (fun _ _ => ⟨rfl, rfl⟩) (retryBudget s.cfg ms) t
  unfold waitReady
  simp only
  split
  · next t ht => exact ((h _).trans ((ht ▸ h2 _).trans (.ofSame rfl rfl))).mono (by omega)
  · next t ht => exact ((h _).trans ((ht ▸ h2 _).trans (.ofWaitDevice hrec t))).mono (by omega)

theorem ReadsControl.ofChipReset (s : State) : ReadsControl c R s (chipReset recover s).st :=
  ((ReadsControl.ofRegWrites _ s).trans (.ofWaitReady hrec 0 _)).mono (by omega)

end

/-- AllReset reads CONTROL once. -/
theorem ReadsControl.ofAllReset (hb : c.bufClearDone.reg ≠ .control) (s : State) :
    ReadsControl c 1 s (allReset s).st := by
  by_cases hc : s.cfg = c
  swap
  · exact fun h => absurd h hc
  subst hc
  have h0 : ReadsControl s.cfg 1 s (toggleBufClear (enterRecovery s).2) :=
    (ReadsControl.ofSame (t := (enterRecovery s).2) rfl rfl).trans <|
      ((ReadsControl.ofControl _).trans (.ofRegWrite _ _ _)).trans (.ofRegWrite _ _ _)
  have hcfg := (h0 rfl).1
  have h1 : ReadsControl s.cfg 1 s (waitBufClear (toggleBufClear (enterRecovery s).2)).2 :=
    h0.trans (ReadsControl.ofPollReg (by rw [hcfg]; exact hb) _ (setCtr := setAuxRetry) (fun _ _ => ⟨rfl, rfl⟩) _ _)
  have h2 : ∀ t, ReadsControl s.cfg 0 t (waitCtrlIdle t).2 := fun t =>
    ReadsControl.ofPollReg (by simp) _ (setCtr := setAuxRetry) (fun _ _ => ⟨rfl, rfl⟩) _ _
  unfold allReset
  simp only
  split
  · next t ht => rw [ht] at h1; exact h1.trans (.ofSame rfl rfl)
  · next t ht =>
    rw [ht] at h1
    have h2 := h2 t
    split
    · next u hu => rw [hu] at h2; exact (h1.trans h2).trans (.ofSame rfl rfl)
    · next u hu =>
      rw [hu] at h2
      exact ((h1.trans h2).trans (.ofChipReset (recover := id) (R := 0) (fun s => .ofSame rfl rfl) u)).trans (.ofSame rfl rfl)

end Sys2Proof.Machine
end

