-- ==== Sys2Proof/Laws/RsmPath.lean ====
section
/-! SUPPORT. The transitions of `fsm` that each procedure of the RSM makes (R126). -/

namespace Sys2Proof.Machine

/-- Between two states the block made allowed transitions only, and it is in the state it last assigned. -/
def PathFrom (hr top : Bool) (s t : State) : Prop :=
  ∃ fs, t.fsmPath = fs ++ s.fsmPath ∧ pathAllowed hr top (fs ++ [s.fsm]) = true ∧
    (fs ++ [s.fsm]).head? = some t.fsm

variable {hr top : Bool}

theorem pathAllowed_append {fs gs : List Fsm} {f g : Fsm} (h : pathAllowed hr top (fs ++ [f]) = true)
    (k : pathAllowed hr top (gs ++ [g]) = true) (hd : (gs ++ [g]).head? = some f) :
    pathAllowed hr top (fs ++ (gs ++ [g])) = true := by
  induction fs with
  | nil => exact k
  | cons b fs ih =>
    cases fs with
    | nil =>
      generalize gs ++ [g] = l at k hd ⊢
      cases l with
      | nil => simp at hd
      | cons a l =>
        simp only [List.head?_cons, Option.some.injEq] at hd
        subst hd
        simp only [List.nil_append, List.cons_append, pathAllowed, Bool.and_true] at h
        simp [pathAllowed, h, k]
    | cons c fs =>
      simp only [List.cons_append, pathAllowed, Bool.and_eq_true] at h ih ⊢
      exact ⟨h.1, ih h.2⟩

theorem PathFrom.refl (s : State) : PathFrom hr top s s := ⟨[], rfl, rfl, rfl⟩

theorem PathFrom.trans {s t u : State} (h : PathFrom hr top s t) (k : PathFrom hr top t u) : PathFrom hr top s u := by
  obtain ⟨gs, h1, h2, h3⟩ := h
  obtain ⟨fs, k1, k2, k3⟩ := k
  refine ⟨fs ++ gs, by simp [k1, h1], ?_, ?_⟩
  · rw [List.append_assoc]; exact pathAllowed_append k2 h2 h3
  · cases fs with
    | nil =>
      have : t.fsm = u.fsm := by simpa using k3
      rw [← this]
      simpa using h3
    | cons f fs => simpa using k3

theorem PathFrom.ofSame {s t : State} (h : t.fsm = s.fsm) (k : t.fsmPath = s.fsmPath) : PathFrom hr top s t :=
  ⟨[], by simp [k], rfl, by simp [h]⟩

theorem PathFrom.ofSet {s : State} {f : Fsm} (h : fsmStep hr top s.fsm f = true) : PathFrom hr top s (setFsm f s) :=
  ⟨[f], rfl, by simp [pathAllowed, h], rfl⟩

theorem fsmStep_fail (f : Fsm) : fsmStep hr top f .fail = true := by cases f <;> rfl

theorem fsmStep_pending (f : Fsm) : fsmStep hr top f .transPending = true := by cases f <;> rfl

theorem PathFrom.ofTimeout (s : State) : PathFrom hr top s (returnTimeout s).st := .ofSet (fsmStep_fail _)

/-- A poll of one register leaves `fsm` alone. -/
theorem pollReg_fsm {r : NfcReg} {test : Word → Bool} {setCtr : Word → State → State}
    (hset : ∀ v s, (setCtr v s).fsm = s.fsm ∧ (setCtr v s).fsmPath = s.fsmPath) (n : Nat) (s : State) :
    (pollUntil (sampleReg r test) setCtr n s).2.fsm = s.fsm ∧
    (pollUntil (sampleReg r test) setCtr n s).2.fsmPath = s.fsmPath := by
  refine pollUntil_rel (R := fun s t => t.fsm = s.fsm ∧ t.fsmPath = s.fsmPath)
    (fun h k => ⟨k.1.trans h.1, k.2.trans h.2⟩) ?_ ?_ hset n s
  · intro s; simp [sampleReg]
  · intro v s; simpa using hset v (delayUs 1 s)

theorem PathFrom.ofClassifyTimeout (sb : Byte) (s : State) : PathFrom hr top s (classify true sb s).st := .ofTimeout s

theorem PathFrom.ofClassify {sb : Byte} {s : State} (h : fsmStep hr top s.fsm .ok = true) :
    PathFrom hr top s (classify false sb s).st := by
  unfold classify
  simp only [Bool.false_eq_true, if_false]
  split
  · exact .ofSet (fsmStep_fail _)
  · exact .ofSet h

section
variable {recover : State → State} (hrec : ∀ s, s.cfg.hasRb = hr → PathFrom hr top s (recover s))
include hrec

/-- The state in which a status read awaits its byte. -/
def statusIssued (s : State) : State :=
  setFsm .statusRead (regWrites s.cfg.statusReadSeq (regWrite .interruptStatus s.cfg.intClearAll s))

omit hrec in
theorem statusIssued_path {s : State} (h : fsmStep hr top s.fsm .statusRead = true) :
    PathFrom hr top s (statusIssued s) :=
  ⟨[.statusRead], by simp [statusIssued], by simp [pathAllowed, h], rfl⟩

/-- A status read from the point where its command has been issued. -/
theorem readStatusRaw_pathIssued {s : State} (hc : s.cfg.hasRb = hr) :
    PathFrom hr top (statusIssued s) (readStatusRaw recover s).st ∧
    ((readStatusRaw recover s).timedOut = false → (readStatusRaw recover s).st.fsm = .statusRead) := by
  obtain ⟨hf, hp⟩ := pollReg_fsm (r := .interruptStatus) (test := istRxReady s.cfg) (setCtr := setAuxRetry)
    (fun v s => ⟨rfl, rfl⟩) s.cfg.statusRetries (statusIssued s)
  have hcfg := (RsmFrame.ofPollReg .interruptStatus (istRxReady s.cfg) setAuxRetry RsmFrame.ofSetAuxRetry
    s.cfg.statusRetries (statusIssued s)).cfg
  rw [show readStatusRaw recover s =
    match pollUntil (sampleReg .interruptStatus (istRxReady s.cfg)) setAuxRetry s.cfg.statusRetries (statusIssued s) with
    | (some (), t) => ⟨false, wordByte (regRead .data t).1 0, (regRead .data t).2⟩
    | (none, t) => ⟨true, t.cfg.failByte, recoverOnce recover t⟩ from rfl]
  split
  · next t ht =>
    rw [ht] at hf hp
    exact ⟨.ofSame (by simpa using hf) (by simpa using hp), fun _ => by simpa [statusIssued] using hf⟩
  · next t ht =>
    rw [ht] at hf hp hcfg
    refine ⟨PathFrom.trans (.ofSame hf hp) ?_, by simp⟩
    unfold recoverOnce
    split
    · exact .refl t
    · exact hrec t (by rw [hcfg]; simpa [statusIssued] using hc)

theorem readStatusRaw_path {s : State} (hc : s.cfg.hasRb = hr) (h : fsmStep hr top s.fsm .statusRead = true) :
    PathFrom hr top s (readStatusRaw recover s).st ∧
    ((readStatusRaw recover s).timedOut = false → (readStatusRaw recover s).st.fsm = .statusRead) :=
  ⟨(statusIssued_path h).trans (readStatusRaw_pathIssued hrec hc).1, (readStatusRaw_pathIssued hrec hc).2⟩

/-- A whole status read from the point where its command has been issued (T14). -/
theorem readStatus_pathIssued {s : State} (hc : s.cfg.hasRb = hr) (hok : (hr || top) = true) :
    PathFrom hr top (statusIssued s) (readStatus recover s).st := by
  obtain ⟨h1, h2⟩ := readStatusRaw_pathIssued hrec hc
  refine h1.trans ?_
  unfold readStatus
  simp only
  rcases hto : (readStatusRaw recover s).timedOut
  · exact .ofClassify (by rw [h2 hto]; exact hok)
  · exact .ofClassifyTimeout _ _

theorem readStatus_path {s : State} (hc : s.cfg.hasRb = hr) (h : fsmStep hr top s.fsm .statusRead = true)
    (hok : (hr || top) = true) : PathFrom hr top s (readStatus recover s).st :=
  (statusIssued_path h).trans (readStatus_pathIssued hrec hc hok)

theorem waitDevReady_path {s : State} (hc : s.cfg.hasRb = true) (hr1 : hr = true)
    (h : s.fsm = .transDone) : PathFrom hr top s (waitDevReady recover s).st := by
  subst hr1
  have key := poll_spec (sample := sampleDevReady) (setCtr := setRsmRetry)
    (P := fun _ u => PathFrom true top s u ∧ u.cfg.hasRb = true ∧ (u.fsm = .transDone ∨ u.fsm = .deviceBusy))
    (Q := fun a u => PathFrom true top s u ∧ u.cfg.hasRb = true ∧ (a.isSome → u.fsm = .deviceReady))
    (n := s.rsm.retry.toNat) (s := s)
    (by
      rintro n u a t ⟨hp, hcf, hfs⟩ hs
      unfold sampleDevReady at hs
      simp only at hs
      split at hs
      · simp only [Prod.mk.injEq] at hs
        obtain ⟨-, rfl⟩ := hs
        refine ⟨(hp.trans (.ofSame (by simp) (by simp))).trans (.ofSet ?_), by simpa using hcf, fun _ => rfl⟩
        rcases hfs with h | h <;> simp [h, fsmStep]
      · simp at hs)
    (by
      rintro u t ⟨hp, hcf, hfs⟩ hs
      unfold sampleDevReady at hs
      simp only at hs
      split at hs
      · simp at hs
      · simp only [Prod.mk.injEq] at hs
        obtain ⟨-, rfl⟩ := hs
        refine ⟨(hp.trans (.ofSame (by simp) (by simp))).trans (.ofSet ?_), by simpa using hcf, by simp⟩
        rcases hfs with h | h <;> simp [h, fsmStep])
    (by
      rintro n u t ⟨hp, hcf, hfs⟩ hs
      unfold sampleDevReady at hs
      simp only at hs
      split at hs
      · simp at hs
      · simp only [Prod.mk.injEq] at hs
        obtain ⟨-, rfl⟩ := hs
        refine ⟨((hp.trans (.ofSame (t := (regRead .status u).2) (by simp) (by simp))).trans
          (.ofSet (f := .deviceBusy) ?_)).trans (.ofSame rfl rfl), by simpa using hcf, .inr rfl⟩
        rcases hfs with h | h <;> simp [h, fsmStep])
    ⟨.refl s, hc, .inl h⟩
  unfold waitDevReady
  split
  · next t ht => rw [ht] at key; exact key.1.trans (.ofTimeout t)
  · next t ht =>
    rw [ht] at key
    exact key.1.trans (readStatus_path hrec key.2.1 (by rw [key.2.2 rfl]; rfl) rfl)

theorem waitChipReady_path (hf : ∀ s, RsmFrame s (recover s)) {s : State} (hc : s.cfg.hasRb = false)
    (hr0 : hr = false) (h : s.fsm = .deviceBusy) : PathFrom hr top s (waitChipReady recover s).st := by
  subst hr0
  have hsample : ∀ u, PathFrom false top s u → u.cfg.hasRb = false → u.fsm = .deviceBusy →
      PathFrom false top s (sampleChipReady recover u).2 ∧
      ((sampleChipReady recover u).1 = none → (sampleChipReady recover u).2.fsm = .deviceBusy) := by
    intro u hp hcf hfs
    obtain ⟨h1, h2⟩ := readStatusRaw_path hrec hcf (by rw [hfs]; rfl)
    unfold sampleChipReady
    simp only
    split
    · exact ⟨(hp.trans h1).trans (.ofClassifyTimeout (readStatusRaw recover u).sb _), by simp⟩
    · next hto =>
      have h2 := h2 (by simpa using hto)
      split
      · exact ⟨((hp.trans h1).trans (.ofSet (by rw [h2]; rfl))).trans (.ofClassify (by simp [fsmStep])), by simp⟩
      · exact ⟨(hp.trans h1).trans (.ofSet (by rw [h2]; rfl)), fun _ => rfl⟩
  have hcfg : ∀ u, (sampleChipReady recover u).2.cfg = u.cfg := fun u => (RsmFrame.ofSampleChipReady hf u).cfg
  have key := poll_spec (sample := sampleChipReady recover) (setCtr := setRsmRetry)
    (P := fun _ u => PathFrom false top s u ∧ u.cfg.hasRb = false ∧ u.fsm = .deviceBusy)
    (Q := fun _ u => PathFrom false top s u) (n := s.rsm.retry.toNat) (s := s)
    (by
      rintro n u a t ⟨hp, hcf, hfs⟩ hs
      have := (hsample u hp hcf hfs).1
      rwa [hs] at this)
    (by
      rintro u t ⟨hp, hcf, hfs⟩ hs
      have := (hsample u hp hcf hfs).1
      rwa [hs] at this)
    (by
      rintro n u t ⟨hp, hcf, hfs⟩ hs
      obtain ⟨h1, h2⟩ := hsample u hp hcf hfs
      have h3 := hcfg u
      rw [hs] at h1 h2 h3
      exact ⟨h1.trans (.ofSame rfl rfl), (congrArg Config.hasRb h3).trans hcf, h2 rfl⟩)
    ⟨.refl s, hc, h⟩
  unfold waitChipReady
  split
  · next t ht => rw [ht] at key; exact key.trans (.ofTimeout t)
  · next t ht => rw [ht] at key; exact key

theorem waitReady_path (hf : ∀ s, RsmFrame s (recover s)) (ms : Millis) {s : State} (hc : s.cfg.hasRb = hr) :
    PathFrom hr top s (waitReady recover ms s).st := by
  have hst : ∀ v, PathFrom hr top s (setRsmBudget v (snooze ms (setFsm .transPending s))) ∧
      (setRsmBudget v (snooze ms (setFsm .transPending s))).fsm = .transPending ∧
      (setRsmBudget v (snooze ms (setFsm .transPending s))).cfg = s.cfg := by
    intro v
    unfold snooze
    split <;> exact ⟨(PathFrom.ofSet (fsmStep_pending _)).trans (.ofSame rfl rfl), rfl, rfl⟩
  obtain ⟨h1, h2, h3⟩ := hst (BitVec.ofNat 32 (retryBudget s.cfg ms))
  obtain ⟨k1, k2⟩ := pollReg_fsm (r := .interruptStatus) (test := istDone s.cfg) (setCtr := setRsmRetry)
    (fun v s => ⟨rfl, rfl⟩) (retryBudget s.cfg ms)
    (setRsmBudget (BitVec.ofNat 32 (retryBudget s.cfg ms)) (snooze ms (setFsm .transPending s)))
  have k3 := (RsmFrame.ofPollReg .interruptStatus (istDone s.cfg) setRsmRetry RsmFrame.ofSetRsmRetry
    (retryBudget s.cfg ms)
    (setRsmBudget (BitVec.ofNat 32 (retryBudget s.cfg ms)) (snooze ms (setFsm .transPending s)))).cfg
  unfold waitReady
  simp only
  split
  · next t ht => rw [ht] at k1 k2; exact (h1.trans (.ofSame k1 k2)).trans (.ofTimeout t)
  · next t ht =>
    rw [ht] at k1 k2 k3
    have hct : t.cfg.hasRb = hr := by rw [k3, h3, hc]
    have hd : PathFrom hr top t (reloadRetry (setFsm .transDone t)) ∧
        (reloadRetry (setFsm .transDone t)).fsm = .transDone ∧
        (reloadRetry (setFsm .transDone t)).cfg = t.cfg := by
      have : PathFrom hr top t (setFsm .transDone t) := .ofSet (by rw [k1, h2]; rfl)
      unfold reloadRetry
      split
      · exact ⟨this, rfl, rfl⟩
      · exact ⟨this.trans (.ofSame rfl rfl), rfl, rfl⟩
    obtain ⟨d1, d2, d3⟩ := hd
    refine (h1.trans (.ofSame k1 k2)).trans (d1.trans ?_)
    unfold waitDevice
    simp only [d3, hct]
    split
    · next h => exact waitDevReady_path hrec (by rw [d3, hct, h]) h d2
    · next h =>
      have h : hr = false := by simpa using h
      refine PathFrom.trans (.ofSet (f := .deviceBusy) (by rw [d2]; rfl))
        (waitChipReady_path hrec hf ?_ h rfl)
      simpa [d3, hct] using h

theorem chipReset_path (hf : ∀ s, RsmFrame s (recover s)) {s : State} (hc : s.cfg.hasRb = hr) :
    PathFrom hr top s (chipReset recover s).st :=
  PathFrom.trans (.ofSame (regWrites_fsm _ _) (regWrites_fsmPath _ _))
    (waitReady_path hrec hf 0 (by simpa using hc))

end

theorem allReset_path {s : State} (hc : s.cfg.hasRb = hr) : PathFrom hr top s (allReset s).st := by
  have p1 := pollReg_fsm (r := (toggleBufClear (enterRecovery s).2).cfg.bufClearDone.reg)
    (test := bufClearTookEffect (toggleBufClear (enterRecovery s).2).cfg) (setCtr := setAuxRetry)
    (fun v s => ⟨rfl, rfl⟩) (toggleBufClear (enterRecovery s).2).cfg.resetRetries (toggleBufClear (enterRecovery s).2)
  have c1 : (waitBufClear (toggleBufClear (enterRecovery s).2)).2.cfg = s.cfg :=
    ((RsmFrame.ofToggleBufClear (enterRecovery s).2).trans (.ofPollReg _ _ _ .ofSetAuxRetry _ _)).cfg
  have p2 := fun t : State => pollReg_fsm (r := .status) (test := fun v => !statusCtrlBusy t.cfg v)
    (setCtr := setAuxRetry) (fun v s => ⟨rfl, rfl⟩) t.cfg.resetRetries t
  have c2 : ∀ t, (waitCtrlIdle t).2.cfg = t.cfg := fun t => (RsmFrame.ofPollReg _ _ _ .ofSetAuxRetry _ _).cfg
  have e1 : (toggleBufClear (enterRecovery s).2).fsm = s.fsm ∧
      (toggleBufClear (enterRecovery s).2).fsmPath = s.fsmPath := by
    simp [toggleBufClear, enterRecovery]
  have p1 : (waitBufClear (toggleBufClear (enterRecovery s).2)).2.fsm = s.fsm ∧
      (waitBufClear (toggleBufClear (enterRecovery s).2)).2.fsmPath = s.fsmPath :=
    ⟨p1.1.trans e1.1, p1.2.trans e1.2⟩
  have p2 : ∀ t, (waitCtrlIdle t).2.fsm = t.fsm ∧ (waitCtrlIdle t).2.fsmPath = t.fsmPath := p2
  unfold allReset
  simp only
  split
  · next t ht =>
    rw [ht] at p1
    exact PathFrom.trans (.ofSame (t := leaveRecovery _ t) p1.1 p1.2) (.ofTimeout _)
  · next t ht =>
    rw [ht] at p1 c1
    have p2 := p2 t
    have c2 := c2 t
    split
    · next u hu =>
      rw [hu] at p2
      exact PathFrom.trans (.ofSame (t := leaveRecovery _ u) (p2.1.trans p1.1) (p2.2.trans p1.2)) (.ofTimeout _)
    · next u hu =>
      rw [hu] at p2 c2
      refine PathFrom.trans (.ofSame (t := u) (p2.1.trans p1.1) (p2.2.trans p1.2)) (PathFrom.trans
        (chipReset_path (recover := id) (fun s _ => .refl s) (fun s => .refl s) (by rw [c2, c1, hc]))
        (.ofSame rfl rfl))

end Sys2Proof.Machine
end

