-- ==== Sys2Proof/Laws/RsmScript.lean ====
section
/-! SUPPORT. The procedures of the RSM on scripted answers of ENV: the exact history, counters and result of each path
(R114, R116, R119, R120). -/

namespace Sys2Proof.Machine

theorem NfcFile.set_set {α : Type} (f : NfcFile α) (r : NfcReg) (u v : α) : (f.set r u).set r v = f.set r v := by
  cases r <;> rfl

/-! ## Views of the history -/

@[simp] theorem history_setFsm (f : Fsm) (s : State) : history (setFsm f s) = history s := rfl
@[simp] theorem history_regWrite (r : NfcReg) (v : Word) (s : State) :
    history (regWrite r v s) = history s ++ [.regWrite r v] := by simp [history]
@[simp] theorem history_regWrites (seq : List (NfcReg × Word)) (s : State) :
    history (regWrites seq s) = history s ++ sequenceEvents seq := by
  induction seq generalizing s with
  | nil => simp [regWrites, sequenceEvents]
  | cons p rest ih => rw [regWrites, ih]; simp [sequenceEvents]

/-! ## Polls -/

/-- A counter of the RSM: setting it touches the RSM's state only, and the last value set stays. -/
structure Counter (setCtr : Word → State → State) (g : Word → Rsm → Rsm) : Prop where
  eq : ∀ v s, setCtr v s = { s with rsm := g v s.rsm }
  last : ∀ u v r, g v (g u r) = g v r

theorem counter_rsmRetry : Counter setRsmRetry fun v r => { r with retry := v } := ⟨fun _ _ => rfl, fun _ _ _ => rfl⟩
theorem counter_auxRetry : Counter setAuxRetry fun v r => { r with aux := v } := ⟨fun _ _ => rfl, fun _ _ _ => rfl⟩

/-- The state after a poll of register `r` that saw the idle samples `vs` and then ended on `v`. -/
def polled (r : NfcReg) (g : Word → Rsm → Rsm) (n : Nat) (vs : List Word) (v : Word) (rest : List Word) (s : State) :
    State :=
  { s with
    rsm := g (BitVec.ofNat 32 (n - vs.length)) s.rsm
    elapsedUs := s.elapsedUs + vs.length
    nfc := s.nfc.set r v
    trace := .regRead r v :: ((idleSamples r vs).reverse ++ s.trace)
    env := { s.env with reads := rest } }

theorem history_polled (r : NfcReg) (g : Word → Rsm → Rsm) (n : Nat) (vs : List Word) (v : Word) (rest : List Word)
    (s : State) : history (polled r g n vs v rest s) = history s ++ idleSamples r vs ++ [.regRead r v] := by
  simp [history, polled]

variable {r : NfcReg} {test : Word → Bool} {setCtr : Word → State → State} {g : Word → Rsm → Rsm}

theorem poll_found (hc : Counter setCtr g) {n : Nat} {vs : List Word} {v : Word} {rest : List Word} {s : State}
    (hs : s.env.reads = vs ++ v :: rest) (hg : s.rsm = g (BitVec.ofNat 32 n) s.rsm) (hidle : ∀ x ∈ vs, test x = false)
    (hv : test v = true) (hn : vs.length ≤ n) :
    poll (sampleReg r test) setCtr n s = (some (), polled r g n vs v rest s) := by
  induction vs generalizing n s with
  | nil =>
    have hr := regRead_cons (r := r) hs
    have h1 : sampleReg r test s = (some (), polled r g n [] v rest s) := by
      simp only [sampleReg, hr, hv, if_true, polled]
      simp [idleSamples, ← hg]
    cases n with
    | zero => exact h1
    | succ n => rw [poll, h1]
  | cons x xs ih =>
    cases n with
    | zero => simp at hn
    | succ n =>
      have hr := regRead_cons (r := r) (vs := xs ++ v :: rest) hs
      rw [poll]
      simp only [sampleReg, hr, hidle x (by simp), Bool.false_eq_true, if_false]
      rw [hc.eq, ih (by simp) (by simp only [hc.last]) (fun y hy => hidle y (List.mem_cons_of_mem _ hy))
        (by simp at hn; omega)]
      simp only [polled, hc.last, emit, delayUs]
      simp only [idleSamples, NfcFile.set_set, List.flatMap_cons, List.length_cons, List.reverse_append,
        show n + 1 - (xs.length + 1) = n - xs.length by omega, show s.elapsedUs + 1 + xs.length = s.elapsedUs + (xs.length + 1) by omega]
      simp

theorem poll_exhausted (hc : Counter setCtr g) {n : Nat} {vs : List Word} {v : Word} {rest : List Word} {s : State}
    (hs : s.env.reads = vs ++ v :: rest) (hg : s.rsm = g (BitVec.ofNat 32 n) s.rsm) (hidle : ∀ x ∈ vs, test x = false)
    (hv : test v = false) (hn : vs.length = n) :
    poll (sampleReg r test) setCtr n s = (none, polled r g n vs v rest s) := by
  induction vs generalizing n s with
  | nil =>
    have hr := regRead_cons (r := r) hs
    obtain rfl : n = 0 := by simpa using hn.symm
    simp only [poll, sampleReg, hr, hv, Bool.false_eq_true, if_false, polled]
    simp [idleSamples, ← hg]
  | cons x xs ih =>
    cases n with
    | zero => simp at hn
    | succ n =>
      have hr := regRead_cons (r := r) (vs := xs ++ v :: rest) hs
      rw [poll]
      simp only [sampleReg, hr, hidle x (by simp), Bool.false_eq_true, if_false]
      rw [hc.eq, ih (by simp) (by simp only [hc.last]) (fun y hy => hidle y (List.mem_cons_of_mem _ hy))
        (by simpa using hn)]
      simp only [polled, hc.last, emit, delayUs]
      simp only [idleSamples, NfcFile.set_set, List.flatMap_cons, List.length_cons, List.reverse_append,
        show n + 1 - (xs.length + 1) = n - xs.length by omega, show s.elapsedUs + 1 + xs.length = s.elapsedUs + (xs.length + 1) by omega]
      simp

theorem pollUntil_found (hc : Counter setCtr g) {n : Nat} (hb : n < 2 ^ 32) {vs : List Word} {v : Word}
    {rest : List Word} {s : State} (hs : s.env.reads = vs ++ v :: rest) (hidle : ∀ x ∈ vs, test x = false)
    (hv : test v = true) (hn : vs.length ≤ n) :
    pollUntil (sampleReg r test) setCtr n s = (some (), polled r g n vs v rest s) := by
  rw [pollUntil, BitVec.toNat_ofNat, Nat.mod_eq_of_lt hb, hc.eq,
    poll_found hc (by exact hs) (by simp only [hc.last]) hidle hv hn]
  simp only [polled, hc.last]

theorem pollUntil_exhausted (hc : Counter setCtr g) {n : Nat} (hb : n < 2 ^ 32) {vs : List Word} {v : Word}
    {rest : List Word} {s : State} (hs : s.env.reads = vs ++ v :: rest) (hidle : ∀ x ∈ vs, test x = false)
    (hv : test v = false) (hn : vs.length = n) :
    pollUntil (sampleReg r test) setCtr n s = (none, polled r g n vs v rest s) := by
  rw [pollUntil, BitVec.toNat_ofNat, Nat.mod_eq_of_lt hb, hc.eq,
    poll_exhausted hc (by exact hs) (by simp only [hc.last]) hidle hv hn]
  simp only [polled, hc.last]

/-! ## The paths of the procedures -/

/-- The history added, and ENV's answers used, between two states, with what the RSM keeps. -/
structure Ran (s t : State) (es : List Event) (rest : List Word) : Prop where
  kept : rsmKept t = rsmKept s
  hist : history t = history s ++ es
  env : t.env = { s.env with reads := rest }
  elapsed : t.elapsedUs = s.elapsedUs + delaySum es

theorem Ran.cfg {s t : State} {es : List Event} {rest : List Word} (h : Ran s t es rest) : t.cfg = s.cfg :=
  congrArg (·.1) h.kept

theorem Ran.recovering {s t : State} {es : List Event} {rest : List Word} (h : Ran s t es rest) :
    t.inRecovery = s.inRecovery := congrArg (·.2.2.2.1) h.kept

/-- What lies between the two states, as one equation. -/
theorem Ran.eq {s t : State} {es : List Event} {rest : List Word} (h : Ran s t es rest) :
    t = { s with fsm := t.fsm, rsm := { t.rsm with statusByte := s.rsm.statusByte }, elapsedUs := t.elapsedUs,
                 nfc := t.nfc, trace := t.trace, fsmPath := t.fsmPath, env := { s.env with reads := rest } } := by
  obtain ⟨hk, -, he, -⟩ := h
  simp only [rsmKept, Prod.mk.injEq] at hk
  obtain ⟨h1, h2, h3, h4, h5, h6, h7, h8, h9, h10, -, -, h13⟩ := hk
  obtain ⟨⟩ := s
  obtain ⟨_, _, _, _, _, _, ⟨⟩, _, _, _, _, _, _, _, _, ⟨⟩, _⟩ := t
  simp_all

theorem Ran.trans {s t u : State} {es fs : List Event} {r₁ r₂ : List Word} (h : Ran s t es r₁) (k : Ran t u fs r₂) :
    Ran s u (es ++ fs) r₂ where
  kept := k.kept.trans h.kept
  hist := by rw [k.hist, h.hist, List.append_assoc]
  env := by rw [k.env, h.env]
  elapsed := by rw [k.elapsed, h.elapsed, delaySum_append]; omega

theorem Ran.setFsm {s t : State} {es : List Event} {rest : List Word} (h : Ran s t es rest) (f : Fsm) :
    Ran s (setFsm f t) es rest := ⟨h.kept, h.hist, h.env, h.elapsed⟩

theorem Ran.ofFrame {s t : State} {es : List Event} {rest : List Word} (h : RsmFrame s t)
    (hh : history t = history s ++ es) (he : t.env = { s.env with reads := rest }) : Ran s t es rest where
  kept := h.kept
  hist := hh
  env := he
  elapsed := by
    obtain ⟨fs, h1, h2⟩ := h.trace
    simp only [history, h1, List.reverse_append, List.append_cancel_left_eq] at hh
    rw [h2, ← hh]
    clear h1 h2 hh
    congr 1
    induction fs with
    | nil => rfl
    | cons e fs ih => rw [List.reverse_cons, delaySum_append, ← ih]; cases e <;> simp [delaySum, Nat.add_comm]

theorem history_commitRsm (c : Code) (sb : Byte) (s : State) : history (commitRsm c sb s) = history s := rfl

theorem delaySum_sequenceEvents (seq : List (NfcReg × Word)) : delaySum (sequenceEvents seq) = 0 := by
  induction seq with
  | nil => rfl
  | cons p rest ih => simpa [sequenceEvents, delaySum] using ih

theorem delaySum_statusReadEvents (c : Config) : delaySum (statusReadEvents c) = 0 := by
  simp [statusReadEvents, delaySum, delaySum_sequenceEvents]

theorem delaySum_idleSamples (r : NfcReg) (vs : List Word) : delaySum (idleSamples r vs) = vs.length := by
  induction vs with
  | nil => rfl
  | cons v vs ih =>
    rw [idleSamples, List.flatMap_cons, delaySum_append, ← idleSamples, ih]
    simp [delaySum, Nat.add_comm]

theorem ran_polled (r : NfcReg) (g : Word → Rsm → Rsm) (n : Nat) (vs : List Word) (v : Word) (rest : List Word)
    (s : State) (hg : ∀ v x, (g v x).statusByte = x.statusByte := by exact fun _ _ => rfl) :
    Ran s (polled r g n vs v rest s) (idleSamples r vs ++ [.regRead r v]) rest where
  kept := by simp [rsmKept, polled, hg]
  hist := by rw [history_polled, List.append_assoc]
  env := rfl
  elapsed := by rw [delaySum_append, delaySum_idleSamples]; simp [polled, delaySum]

theorem ran_regRead {r : NfcReg} {v : Word} {rest : List Word} {s : State} (h : s.env.reads = v :: rest) :
    (regRead r s).1 = v ∧ Ran s (regRead r s).2 [.regRead r v] rest := by
  rw [regRead_cons h]
  exact ⟨rfl, rfl, by simp [history], rfl, rfl⟩

theorem ran_statusIssued (s : State) : Ran s (statusIssued s) (statusReadEvents s.cfg) s.env.reads :=
  .ofFrame (((RsmFrame.ofRegWrite _ _ _).trans (.ofRegWrites _ _)).trans (.ofSetFsm _ _))
    (by simp [statusIssued, statusReadEvents]) (by simp [statusIssued])

theorem readStatusRaw_eq (recover : State → State) (s : State) : readStatusRaw recover s =
    match pollUntil (sampleReg .interruptStatus (istRxReady s.cfg)) setAuxRetry s.cfg.statusRetries (statusIssued s) with
    | (some (), t) => ⟨false, wordByte (regRead .data t).1 0, (regRead .data t).2⟩
    | (none, t) => ⟨true, t.cfg.failByte, recoverOnce recover t⟩ := rfl

/-- A status read whose byte arrives (R116). -/
theorem readStatusRaw_found (recover : State → State) {s : State} {vs : List Word} {v w : Word} {rest : List Word}
    (hb : s.cfg.statusRetries < 2 ^ 32) (hs : s.env.reads = vs ++ v :: w :: rest)
    (hidle : ∀ x ∈ vs, istRxReady s.cfg x = false) (hv : istRxReady s.cfg v = true) (hn : vs.length ≤ s.cfg.statusRetries) :
    ∃ u, readStatusRaw recover s = ⟨false, wordByte w 0, u⟩ ∧
      Ran s u (statusReadEvents s.cfg ++ idleSamples .interruptStatus vs ++
        [.regRead .interruptStatus v, .regRead .data w]) rest ∧
      u.rsm = { s.rsm with aux := BitVec.ofNat 32 (s.cfg.statusRetries - vs.length) } ∧ u.fsm = .statusRead ∧
      u.fsmPath = .statusRead :: s.fsmPath := by
  have hi := ran_statusIssued s
  have hp := pollUntil_found (r := .interruptStatus) (test := istRxReady s.cfg) counter_auxRetry hb
    (s := statusIssued s) (vs := vs) (v := v) (rest := w :: rest) (by rw [hi.env]; exact hs) hidle hv hn
  have h1 := ran_polled .interruptStatus (fun v r => { r with aux := v }) s.cfg.statusRetries vs v (w :: rest) (statusIssued s)
  obtain ⟨hw, h2⟩ := ran_regRead (r := .data) (v := w) (rest := rest) (by rw [h1.env])
  refine ⟨_, by rw [readStatusRaw_eq, hp]; simp only [hw]; rfl, ?_, ?_, ?_, ?_⟩
  · have := (hi.trans h1).trans h2
    simpa using this
  · simp [polled, statusIssued]
  · simp [polled, statusIssued]
  · simp [polled, statusIssued]

/-- A status read whose byte does not arrive, up to the recovery (R116). -/
theorem readStatusRaw_late (recover : State → State) {s : State} {vs : List Word} {v : Word} {rest : List Word}
    (hb : s.cfg.statusRetries < 2 ^ 32) (hs : s.env.reads = vs ++ v :: rest)
    (hidle : ∀ x ∈ vs, istRxReady s.cfg x = false) (hv : istRxReady s.cfg v = false) (hn : vs.length = s.cfg.statusRetries) :
    ∃ u, readStatusRaw recover s = ⟨true, s.cfg.failByte, recoverOnce recover u⟩ ∧
      Ran s u (statusReadEvents s.cfg ++ idleSamples .interruptStatus vs ++ [.regRead .interruptStatus v]) rest ∧
      u.rsm = { s.rsm with aux := 0 } ∧ u.fsm = .statusRead ∧ u.fsmPath = .statusRead :: s.fsmPath := by
  have hi := ran_statusIssued s
  have hp := pollUntil_exhausted (r := .interruptStatus) (test := istRxReady s.cfg) counter_auxRetry hb
    (s := statusIssued s) (vs := vs) (v := v) (rest := rest) (by rw [hi.env]; exact hs) hidle hv hn
  have h1 := ran_polled .interruptStatus (fun v r => { r with aux := v }) s.cfg.statusRetries vs v rest (statusIssued s)
  refine ⟨_, by rw [readStatusRaw_eq, hp]; simp only [h1.cfg, hi.cfg]; rfl, ?_, ?_, ?_, ?_⟩
  · have := hi.trans h1
    simpa using this
  · simp [polled, statusIssued, hn]
  · simp [polled, statusIssued]
  · simp [polled, statusIssued]

/-! ## WaitReady -/

theorem retryBudget_lt {c : Config} (h : c.budgetsWf = true) (ms : Millis) : retryBudget c ms < 2 ^ 32 := by
  simp only [Config.budgetsWf, Bool.and_eq_true, decide_eq_true_eq] at h
  have h1 : max 1 ms.toNat ≤ 65535 := by have := ms.isLt; omega
  have := Nat.mul_le_mul_right c.retriesPerMs h1
  unfold retryBudget
  omega

/-- The state in which WaitReady starts to poll. -/
def waitStarted (ms : Millis) (s : State) : State :=
  setRsmBudget (BitVec.ofNat 32 (retryBudget s.cfg ms)) (snooze ms (Machine.setFsm .transPending s))

theorem ran_waitStarted (ms : Millis) (s : State) :
    Ran s (waitStarted ms s) (sleepEvents ms) s.env.reads ∧
    (waitStarted ms s).rsm = { s.rsm with budget := BitVec.ofNat 32 (retryBudget s.cfg ms) } ∧
    (waitStarted ms s).fsm = .transPending := by
  unfold waitStarted snooze sleepEvents
  split
  · exact ⟨⟨rfl, by simp [history], rfl, by simp [delaySum]⟩, rfl, rfl⟩
  · exact ⟨⟨rfl, by simp [history], rfl, by simp [delaySum]⟩, rfl, rfl⟩

theorem waitReady_eq (recover : State → State) (ms : Millis) (s : State) : waitReady recover ms s =
    match pollUntil (sampleReg .interruptStatus (istDone s.cfg)) setRsmRetry (retryBudget s.cfg ms) (waitStarted ms s) with
    | (none, t) => returnTimeout t
    | (some (), t) => waitDevice recover t := rfl

/-- Phase 1 of WaitReady ends: transaction-done is seen (R114). -/
theorem waitReady_found (recover : State → State) (ms : Millis) {s : State} {vs : List Word} {v : Word}
    {rest : List Word} (hb : s.cfg.budgetsWf = true) (hs : s.env.reads = vs ++ v :: rest)
    (hidle : ∀ x ∈ vs, istDone s.cfg x = false) (hv : istDone s.cfg v = true)
    (hn : vs.length ≤ retryBudget s.cfg ms) :
    ∃ u, waitReady recover ms s = waitDevice recover u ∧
      Ran s u (sleepEvents ms ++ idleSamples .interruptStatus vs ++ [.regRead .interruptStatus v]) rest ∧
      u.rsm = { s.rsm with budget := BitVec.ofNat 32 (retryBudget s.cfg ms),
                           retry := BitVec.ofNat 32 (retryBudget s.cfg ms - vs.length) } := by
  obtain ⟨h0, h0r, -⟩ := ran_waitStarted ms s
  have hp := pollUntil_found (r := .interruptStatus) (test := istDone s.cfg) counter_rsmRetry (retryBudget_lt hb ms)
    (s := waitStarted ms s) (vs := vs) (v := v) (rest := rest) (by rw [h0.env]; exact hs) hidle hv hn
  have h1 := ran_polled .interruptStatus (fun v r => { r with retry := v }) (retryBudget s.cfg ms) vs v rest
    (waitStarted ms s)
  refine ⟨_, by rw [waitReady_eq, hp], ?_, ?_⟩
  · have := h0.trans h1
    simpa using this
  · simp [polled, h0r]

/-- Phase 1 of WaitReady exhausts its budget (R114). -/
theorem waitReady_late (recover : State → State) (ms : Millis) {s : State} {vs : List Word} {v : Word}
    {rest : List Word} (hb : s.cfg.budgetsWf = true) (hs : s.env.reads = vs ++ v :: rest)
    (hidle : ∀ x ∈ vs, istDone s.cfg x = false) (hv : istDone s.cfg v = false)
    (hn : vs.length = retryBudget s.cfg ms) :
    ∃ u, waitReady recover ms s = ⟨.hardwareTimeout, s.cfg.failByte, u⟩ ∧
      Ran s u (sleepEvents ms ++ idleSamples .interruptStatus vs ++ [.regRead .interruptStatus v]) rest ∧
      u.rsm = { s.rsm with budget := BitVec.ofNat 32 (retryBudget s.cfg ms), retry := 0 } ∧ u.fsm = .fail := by
  obtain ⟨h0, h0r, -⟩ := ran_waitStarted ms s
  have hp := pollUntil_exhausted (r := .interruptStatus) (test := istDone s.cfg) counter_rsmRetry (retryBudget_lt hb ms)
    (s := waitStarted ms s) (vs := vs) (v := v) (rest := rest) (by rw [h0.env]; exact hs) hidle hv hn
  have h1 := ran_polled .interruptStatus (fun v r => { r with retry := v }) (retryBudget s.cfg ms) vs v rest
    (waitStarted ms s)
  refine ⟨_, by rw [waitReady_eq, hp]; simp only [returnTimeout, h1.cfg, h0.cfg]; rfl, ?_, ?_, rfl⟩
  · have := (h0.trans h1).setFsm .fail
    simpa using this
  · simp [polled, h0r, hn]

theorem ran_reloadRetry (s : State) : Ran s (reloadRetry (Machine.setFsm .transDone s)) [] s.env.reads ∧
    (reloadRetry (Machine.setFsm .transDone s)).rsm =
      if s.cfg.rbBudgetShared then s.rsm else { s.rsm with retry := s.rsm.budget } := by
  by_cases h : s.cfg.rbBudgetShared = true
  · rw [show reloadRetry (Machine.setFsm .transDone s) = Machine.setFsm .transDone s by simp [reloadRetry, h], if_pos h]
    exact ⟨⟨rfl, by simp [history], rfl, by simp [delaySum]⟩, rfl⟩
  · rw [show reloadRetry (Machine.setFsm .transDone s) = setRsmRetry s.rsm.budget (Machine.setFsm .transDone s) by
      simp [reloadRetry, h], if_neg h]
    exact ⟨⟨rfl, by simp [history], rfl, by simp [delaySum]⟩, rfl⟩

theorem sampleDevReady_cons {s : State} {v : Word} {vs : List Word} (h : s.env.reads = v :: vs) :
    ∃ u, sampleDevReady s = (if statusDevReady s.cfg v then some () else none, u) ∧
      Ran s u [.regRead .status v] vs ∧ u.rsm = s.rsm := by
  obtain ⟨hv, hr⟩ := ran_regRead (r := .status) h
  unfold sampleDevReady
  simp only [hv]
  split
  · exact ⟨_, rfl, hr.setFsm _, by simp⟩
  · exact ⟨_, rfl, hr.setFsm _, by simp⟩

theorem poll_devReady {n : Nat} (hn32 : n < 2 ^ 32) {vs : List Word} {v : Word} {rest : List Word} {s : State}
    (hs : s.env.reads = vs ++ v :: rest) (hr : s.rsm.retry = BitVec.ofNat 32 n)
    (hidle : ∀ x ∈ vs, statusDevReady s.cfg x = false)
    (hn : vs.length ≤ n) (hv : statusDevReady s.cfg v = true ∨ vs.length = n) :
    ∃ u, poll sampleDevReady setRsmRetry n s = (if statusDevReady s.cfg v then some () else none, u) ∧
      Ran s u (idleSamples .status vs ++ [.regRead .status v]) rest ∧
      u.rsm = { s.rsm with retry := BitVec.ofNat 32 (n - vs.length) } := by
  induction vs generalizing n s with
  | nil =>
    obtain ⟨u, hu, hran, hrsm⟩ := sampleDevReady_cons (s := s) (v := v) (vs := rest) hs
    refine ⟨u, ?_, by simpa [idleSamples] using hran, by rw [hrsm]; simp [← hr]⟩
    cases n with
    | zero => exact hu
    | succ n =>
      have hv' : statusDevReady s.cfg v = true := by rcases hv with h | h; exact h; simp at h
      rw [poll, hu, hv']
      rfl
  | cons x xs ih =>
    cases n with
    | zero => simp at hn
    | succ n =>
      obtain ⟨u, hu, hran, hrsm⟩ := sampleDevReady_cons (s := s) (v := x) (vs := xs ++ v :: rest) hs
      rw [hidle x (by simp)] at hu
      rw [poll, hu]
      simp only [Bool.false_eq_true, if_false]
      have hd : Ran u (setRsmRetry (BitVec.ofNat 32 n) (delayUs 1 u)) [.delay 1] (xs ++ v :: rest) :=
        ⟨rfl, by simp [history], by simp [hran.env], by simp [delaySum]⟩
      obtain ⟨t, ht, hran', hrsm'⟩ := ih (n := n) (s := setRsmRetry (BitVec.ofNat 32 n) (delayUs 1 u)) (by omega)
        (by rw [hd.env]) rfl (fun y hy => by rw [hd.cfg, hran.cfg]; exact hidle y (List.mem_cons_of_mem _ hy))
        (by simp at hn; omega)
        (by rw [hd.cfg, hran.cfg]; rcases hv with h | h; exact .inl h; exact .inr (by simpa using h))
      rw [hd.cfg, hran.cfg] at ht
      refine ⟨t, ht, ?_, ?_⟩
      · have := (hran.trans hd).trans hran'
        simpa [idleSamples] using this
      · rw [hrsm']
        simp [hrsm]

/-! ## Whole waits -/

/-- Classify of a byte (R111). -/
theorem classify_byte (sb : Byte) (s : State) :
    ∃ u, classify false sb s = ⟨if sbFails s.cfg sb then .deviceFail else .ok, sb, u⟩ ∧
      u = Machine.setFsm (if sbFails s.cfg sb then .fail else .ok) s := by
  unfold classify
  cases h : sbFails s.cfg sb <;> simp

/-- ReadStatus whose byte arrives (R117). -/
theorem readStatus_found (recover : State → State) {s : State} {vs : List Word} {v w : Word} {rest : List Word}
    (hb : s.cfg.statusRetries < 2 ^ 32) (hs : s.env.reads = vs ++ v :: w :: rest)
    (hidle : ∀ x ∈ vs, istRxReady s.cfg x = false) (hv : istRxReady s.cfg v = true) (hn : vs.length ≤ s.cfg.statusRetries) :
    ∃ u, readStatus recover s = ⟨if sbFails s.cfg (wordByte w 0) then .deviceFail else .ok, wordByte w 0, u⟩ ∧
      Ran s u (statusReadEvents s.cfg ++ idleSamples .interruptStatus vs ++
        [.regRead .interruptStatus v, .regRead .data w]) rest ∧
      u.rsm = { s.rsm with aux := BitVec.ofNat 32 (s.cfg.statusRetries - vs.length) } ∧
      u.fsm = (if sbFails s.cfg (wordByte w 0) then .fail else .ok) := by
  obtain ⟨u, hu, hran, hrsm, -, -⟩ := readStatusRaw_found recover hb hs hidle hv hn
  obtain ⟨t, ht, rfl⟩ := classify_byte (wordByte w 0) u
  rw [hran.cfg] at ht
  exact ⟨_, by unfold readStatus; rw [hu]; simp only; rw [ht], hran.setFsm _, by simpa using hrsm, by simp⟩

theorem waitDevice_eq (recover : State → State) (s : State) : waitDevice recover s =
    if s.cfg.hasRb then waitDevReady recover (reloadRetry (Machine.setFsm .transDone s))
    else waitChipReady recover (Machine.setFsm .deviceBusy (reloadRetry (Machine.setFsm .transDone s))) := by
  unfold waitDevice
  simp only
  rw [(ran_reloadRetry s).1.cfg]

/-- Phase 2a of WaitReady: the line never shows ready (R114). -/
theorem waitDevice_lineLate (recover : State → State) {s : State} {n : Nat} {bs : List Word} {b : Word}
    {rest : List Word} (hrb : s.cfg.hasRb = true) (hn32 : n < 2 ^ 32)
    (hretry : (if s.cfg.rbBudgetShared then s.rsm.retry else s.rsm.budget) = BitVec.ofNat 32 n)
    (hs : s.env.reads = bs ++ b :: rest) (hbs : ∀ x ∈ bs, statusDevReady s.cfg x = false)
    (hbv : statusDevReady s.cfg b = false) (hbn : bs.length = n) :
    ∃ u, waitDevice recover s = ⟨.hardwareTimeout, s.cfg.failByte, u⟩ ∧
      Ran s u (idleSamples .status bs ++ [.regRead .status b]) rest ∧ u.rsm = { s.rsm with retry := 0 } ∧
      u.fsm = .fail := by
  obtain ⟨h0, h0r⟩ := ran_reloadRetry s
  rw [waitDevice_eq, if_pos hrb]
  generalize reloadRetry (Machine.setFsm .transDone s) = v at h0 h0r
  have hv : v.rsm.retry = BitVec.ofNat 32 n := by rw [h0r]; rw [← hretry]; split <;> rfl
  have hv' : v.rsm = { s.rsm with retry := BitVec.ofNat 32 n } := by
    rw [← hv, h0r]; split <;> rfl
  have hto : v.rsm.retry.toNat = n := by rw [hv, BitVec.toNat_ofNat, Nat.mod_eq_of_lt hn32]
  obtain ⟨t, ht, hran, hrsm⟩ := poll_devReady hn32 (s := v) (vs := bs) (v := b) (rest := rest)
    (by rw [h0.env]; exact hs) hv (by rw [h0.cfg]; exact hbs) (by omega) (.inr hbn)
  rw [h0.cfg, hbv] at ht
  refine ⟨Machine.setFsm .fail t, ?_, ?_, ?_, rfl⟩
  · unfold waitDevReady
    rw [hto, ht]
    simp only [Bool.false_eq_true, if_false, returnTimeout, hran.cfg, h0.cfg]
  · have := (h0.trans hran).setFsm .fail
    simpa using this
  · simp [hrsm, hv', hbn]

/-- One iteration of phase 2b: a status read whose byte arrives (R114). -/
theorem sampleChipReady_found (recover : State → State) {s : State} {vs : List Word} {v w : Word} {rest : List Word}
    (hb : s.cfg.statusRetries < 2 ^ 32) (hs : s.env.reads = vs ++ v :: w :: rest)
    (hidle : ∀ x ∈ vs, istRxReady s.cfg x = false) (hv : istRxReady s.cfg v = true) (hn : vs.length ≤ s.cfg.statusRetries) :
    ∃ u, sampleChipReady recover s = (if sbIsReady s.cfg (wordByte w 0) then
        some (if sbFails s.cfg (wordByte w 0) then .deviceFail else .ok, wordByte w 0) else none, u) ∧
      Ran s u (statusReadEvents s.cfg ++ idleSamples .interruptStatus vs ++
        [.regRead .interruptStatus v, .regRead .data w]) rest ∧
      u.rsm = { s.rsm with aux := BitVec.ofNat 32 (s.cfg.statusRetries - vs.length) } ∧
      (sbIsReady s.cfg (wordByte w 0) = true → u.fsm = (if sbFails s.cfg (wordByte w 0) then .fail else .ok)) := by
  obtain ⟨u, hu, hran, hrsm, -, -⟩ := readStatusRaw_found recover hb hs hidle hv hn
  unfold sampleChipReady
  simp only [hu, Bool.false_eq_true, if_false, hran.cfg]
  cases hr : sbIsReady s.cfg (wordByte w 0)
  · exact ⟨_, rfl, hran.setFsm _, by simpa using hrsm, by simp⟩
  · obtain ⟨t, ht, rfl⟩ := classify_byte (wordByte w 0) (Machine.setFsm .deviceReady u)
    rw [setFsm_cfg, hran.cfg] at ht
    refine ⟨_, ?_, (hran.setFsm .deviceReady).setFsm (if sbFails s.cfg (wordByte w 0) then .fail else .ok),
      by simpa using hrsm, by simp⟩
    simp only [if_true, ht]

/-- The not-ready rounds of phase 2b, each followed by a delay (R114): the poll goes on with what they leave. -/
theorem poll_chipNotReady (recover : State → State) {n : Nat} {qs : List StatusRound} {rest : List Word} {s : State}
    (hb : s.cfg.statusRetries < 2 ^ 32) (hs : s.env.reads = qs.flatMap StatusRound.answers ++ rest)
    (hr : s.rsm.retry = BitVec.ofNat 32 n) (hqs : ∀ x ∈ qs, x.arrives s.cfg ∧ sbIsReady s.cfg (wordByte x.data 0) = false)
    (hn : qs.length ≤ n) :
    ∃ u, poll (sampleChipReady recover) setRsmRetry n s =
        poll (sampleChipReady recover) setRsmRetry (n - qs.length) u ∧
      Ran s u (qs.flatMap fun x => x.events s.cfg ++ [.delay 1]) rest ∧
      u.rsm = { s.rsm with retry := BitVec.ofNat 32 (n - qs.length), aux := u.rsm.aux } := by
  induction qs generalizing n s with
  | nil => exact ⟨s, rfl, ⟨rfl, by simp, by rw [← show s.env.reads = rest from hs], rfl⟩, by simp [← hr]⟩
  | cons x xs ih =>
    cases n with
    | zero => simp at hn
    | succ n =>
      have hx := hqs x (by simp)
      obtain ⟨u, hu, hran, hrsm, -⟩ := sampleChipReady_found recover hb (vs := x.idle) (v := x.ready) (w := x.data)
        (rest := xs.flatMap StatusRound.answers ++ rest) (by rw [hs]; simp [StatusRound.answers])
        hx.1.1 hx.1.2.1 hx.1.2.2
      rw [hx.2] at hu
      rw [poll, hu]
      simp only [Bool.false_eq_true, if_false]
      have hd : Ran u (setRsmRetry (BitVec.ofNat 32 n) (delayUs 1 u)) [.delay 1] (xs.flatMap StatusRound.answers ++ rest) :=
        ⟨rfl, by simp [history], by simp [hran.env], by simp [delaySum]⟩
      have hc : (setRsmRetry (BitVec.ofNat 32 n) (delayUs 1 u)).cfg = s.cfg := hd.cfg.trans hran.cfg
      obtain ⟨t, ht, hran', hrsm'⟩ := ih (n := n) (s := setRsmRetry (BitVec.ofNat 32 n) (delayUs 1 u))
        (by rw [hc]; exact hb) (by rw [hd.env]) rfl
        (fun y hy => by rw [hc]; exact hqs y (List.mem_cons_of_mem _ hy)) (by simp at hn; omega)
      rw [hc] at hran'
      refine ⟨t, by rw [ht, List.length_cons, Nat.add_sub_add_right], ?_, ?_⟩
      · have := (hran.trans hd).trans hran'
        simpa [StatusRound.events] using this
      · rw [hrsm']
        simp [hrsm]

/-- The rounds of phase 2b: not-ready bytes, each followed by a delay, and one last byte that is ready or exhausts the
budget (R114). -/
theorem poll_chipReady (recover : State → State) {n : Nat} {qs : List StatusRound}
    {q : StatusRound} {rest : List Word} {s : State} (hb : s.cfg.statusRetries < 2 ^ 32)
    (hs : s.env.reads = qs.flatMap StatusRound.answers ++ (q.answers ++ rest))
    (hr : s.rsm.retry = BitVec.ofNat 32 n) (hqs : ∀ x ∈ qs, x.arrives s.cfg ∧ sbIsReady s.cfg (wordByte x.data 0) = false)
    (hq : q.arrives s.cfg) (hn : qs.length ≤ n)
    (hlast : sbIsReady s.cfg (wordByte q.data 0) = true ∨ qs.length = n) :
    ∃ u, poll (sampleChipReady recover) setRsmRetry n s = (if sbIsReady s.cfg (wordByte q.data 0) then
        some (if sbFails s.cfg (wordByte q.data 0) then .deviceFail else .ok, wordByte q.data 0) else none, u) ∧
      Ran s u (qs.flatMap (fun x => x.events s.cfg ++ [.delay 1]) ++ q.events s.cfg) rest ∧
      u.rsm = { s.rsm with retry := BitVec.ofNat 32 (n - qs.length),
                           aux := BitVec.ofNat 32 (s.cfg.statusRetries - q.idle.length) } ∧
      (sbIsReady s.cfg (wordByte q.data 0) = true →
        u.fsm = (if sbFails s.cfg (wordByte q.data 0) then .fail else .ok)) := by
  obtain ⟨t, ht, h0, h0r⟩ := poll_chipNotReady recover hb hs hr hqs hn
  obtain ⟨u, hu, hran, hrsm, hf⟩ := sampleChipReady_found recover (s := t) (by rw [h0.cfg]; exact hb) (vs := q.idle)
    (v := q.ready) (w := q.data) (rest := rest) (by rw [h0.env]; simp [StatusRound.answers])
    (by rw [h0.cfg]; exact hq.1) (by rw [h0.cfg]; exact hq.2.1) (by rw [h0.cfg]; exact hq.2.2)
  rw [h0.cfg] at hu hran hrsm hf
  refine ⟨u, ?_, by simpa [StatusRound.events] using h0.trans hran, by rw [hrsm, h0r], hf⟩
  rw [ht]
  rcases hlast with h | h
  · rw [h] at hu
    cases n - qs.length <;> simp only [poll, hu, h, if_true]
  · rw [show n - qs.length = 0 by omega]
    exact hu

/-- A status read of phase 2b whose byte does not arrive ends the poll as ReadStatus ends (R114). -/
theorem poll_chipLate (recover : State → State) {s : State} (h : (readStatusRaw recover s).timedOut = true) (n : Nat) :
    poll (sampleChipReady recover) setRsmRetry n s =
      (some ((readStatus recover s).code, (readStatus recover s).sb), (readStatus recover s).st) := by
  have h1 : sampleChipReady recover s =
      (some ((readStatus recover s).code, (readStatus recover s).sb), (readStatus recover s).st) := by
    unfold sampleChipReady readStatus
    simp [h]
  cases n <;> rw [poll, h1]

/-- Phase 2b of WaitReady (R114). -/
theorem waitDevice_chip (recover : State → State) {s : State} {n : Nat} {qs : List StatusRound} {q : StatusRound}
    {rest : List Word} (hrb : s.cfg.hasRb = false) (hb : s.cfg.statusRetries < 2 ^ 32) (hn32 : n < 2 ^ 32)
    (hretry : (if s.cfg.rbBudgetShared then s.rsm.retry else s.rsm.budget) = BitVec.ofNat 32 n)
    (hs : s.env.reads = qs.flatMap StatusRound.answers ++ (q.answers ++ rest))
    (hqs : ∀ x ∈ qs, x.arrives s.cfg ∧ sbIsReady s.cfg (wordByte x.data 0) = false)
    (hq : q.arrives s.cfg) (hn : qs.length ≤ n)
    (hlast : sbIsReady s.cfg (wordByte q.data 0) = true ∨ qs.length = n) :
    ∃ u, waitDevice recover s = (if sbIsReady s.cfg (wordByte q.data 0) then
        ⟨if sbFails s.cfg (wordByte q.data 0) then .deviceFail else .ok, wordByte q.data 0, u⟩
        else ⟨.hardwareTimeout, s.cfg.failByte, u⟩) ∧
      Ran s u (qs.flatMap (fun x => x.events s.cfg ++ [.delay 1]) ++ q.events s.cfg) rest ∧
      u.rsm = { s.rsm with retry := BitVec.ofNat 32 (n - qs.length),
                           aux := BitVec.ofNat 32 (s.cfg.statusRetries - q.idle.length) } ∧
      u.fsm = (if sbIsReady s.cfg (wordByte q.data 0) && !sbFails s.cfg (wordByte q.data 0) then .ok else .fail) := by
  obtain ⟨h0, h0r⟩ := ran_reloadRetry s
  rw [waitDevice_eq, hrb]
  simp only [Bool.false_eq_true, if_false]
  generalize reloadRetry (Machine.setFsm .transDone s) = v at h0 h0r
  have h1 : Ran s (Machine.setFsm .deviceBusy v) [] s.env.reads := h0.setFsm _
  have hv : (Machine.setFsm .deviceBusy v).rsm.retry = BitVec.ofNat 32 n := by
    rw [setFsm_rsm, h0r]; rw [← hretry]; split <;> rfl
  have hv' : (Machine.setFsm .deviceBusy v).rsm = { s.rsm with retry := BitVec.ofNat 32 n } := by
    rw [← hv, setFsm_rsm, h0r]; split <;> rfl
  have hto : (Machine.setFsm .deviceBusy v).rsm.retry.toNat = n := by
    rw [hv, BitVec.toNat_ofNat, Nat.mod_eq_of_lt hn32]
  generalize Machine.setFsm .deviceBusy v = x at h1 hv hv' hto
  obtain ⟨t, ht, hran, hrsm, hf⟩ := poll_chipReady recover (s := x) (qs := qs) (q := q) (rest := rest)
    (by rw [h1.cfg]; exact hb) (by rw [h1.env]; exact hs) hv (by rw [h1.cfg]; exact hqs) (by rw [h1.cfg]; exact hq) hn
    (by rw [h1.cfg]; exact hlast)
  rw [h1.cfg] at ht hran hrsm hf
  rw [hv'] at hrsm
  unfold waitChipReady
  rw [hto, ht]
  cases hr : sbIsReady s.cfg (wordByte q.data 0)
  · refine ⟨Machine.setFsm .fail t, ?_, ?_, ?_, by simp⟩
    · simp [returnTimeout, hran.cfg, h1.cfg]
    · have := (h1.trans hran).setFsm .fail
      simpa using this
    · simpa using hrsm
  · refine ⟨t, by simp, ?_, hrsm, ?_⟩
    · have := h1.trans hran
      simpa using this
    · rw [hf hr]; cases sbFails s.cfg (wordByte q.data 0) <;> rfl

/-- Phase 2 of WaitReady up to the last status read (R114): from `t`, where the line has shown ready, or after the
not-ready rounds of a controller without the line, it ends as ReadStatus from `t` ends, if there is the line or if that
status read times out. -/
theorem waitDevice_reachesStatus (recover : State → State) {s : State} {n polls : Nat} {mid rest : List Word}
    {evs : List Event} (hb : s.cfg.statusRetries < 2 ^ 32) (hn32 : n < 2 ^ 32)
    (hretry : (if s.cfg.rbBudgetShared then s.rsm.retry else s.rsm.budget) = BitVec.ofNat 32 n)
    (hs : s.env.reads = mid ++ rest) (hn : polls ≤ n)
    (h : (s.cfg.hasRb = true ∧ ∃ bs b, mid = bs ++ [b] ∧ (∀ x ∈ bs, statusDevReady s.cfg x = false) ∧
        statusDevReady s.cfg b = true ∧ polls = bs.length ∧ evs = idleSamples .status bs ++ [.regRead .status b]) ∨
      (s.cfg.hasRb = false ∧ ∃ qs : List StatusRound, mid = qs.flatMap StatusRound.answers ∧
        (∀ x ∈ qs, x.arrives s.cfg ∧ sbIsReady s.cfg (wordByte x.data 0) = false) ∧ polls = qs.length ∧
        evs = qs.flatMap fun x => x.events s.cfg ++ [.delay 1])) :
    ∃ t, ((readStatusRaw recover t).timedOut = true → waitDevice recover s = readStatus recover t) ∧
      (s.cfg.hasRb = true → waitDevice recover s = readStatus recover t) ∧ Ran s t evs rest ∧
      t.rsm = { s.rsm with retry := BitVec.ofNat 32 (n - polls), aux := t.rsm.aux } := by
  obtain ⟨h0, h0r⟩ := ran_reloadRetry s
  rw [waitDevice_eq]
  generalize reloadRetry (Machine.setFsm .transDone s) = v at h0 h0r
  have hv : v.rsm = { s.rsm with retry := BitVec.ofNat 32 n } := by rw [h0r, ← hretry]; split <;> rfl
  rcases h with ⟨hrb, bs, b, rfl, hbs, hbv, rfl, rfl⟩ | ⟨hrb, qs, rfl, hqs, rfl, rfl⟩
  · obtain ⟨t, ht, hran, hrsm⟩ := poll_devReady hn32 (s := v) (vs := bs) (v := b) (rest := rest)
      (by rw [h0.env, hs]; simp) (by rw [hv]) (by rw [h0.cfg]; exact hbs) hn (.inl (by rw [h0.cfg]; exact hbv))
    rw [h0.cfg, hbv] at ht
    have hw : waitDevReady recover v = readStatus recover t := by
      unfold waitDevReady
      rw [hv, BitVec.toNat_ofNat, Nat.mod_eq_of_lt hn32, ht]
      rfl
    refine ⟨t, fun _ => ?_, fun _ => ?_, by simpa using h0.trans hran, by rw [hrsm, hv]⟩ <;> rw [if_pos hrb, hw]
  · have h1 : Ran s (Machine.setFsm .deviceBusy v) [] s.env.reads := h0.setFsm _
    obtain ⟨t, ht, hran, hrsm⟩ := poll_chipNotReady recover (n := n) (s := Machine.setFsm .deviceBusy v) (qs := qs)
      (rest := rest) (by rw [h1.cfg]; exact hb) (by rw [h1.env]; exact hs) (by rw [setFsm_rsm, hv])
      (by rw [h1.cfg]; exact hqs) hn
    rw [h1.cfg] at hran
    refine ⟨t, fun hlate => ?_, fun h => by simp [hrb] at h, by simpa using h1.trans hran, by rw [hrsm, setFsm_rsm, hv]⟩
    rw [hrb]
    simp only [Bool.false_eq_true, if_false]
    unfold waitChipReady
    rw [setFsm_rsm, hv, BitVec.toNat_ofNat, Nat.mod_eq_of_lt hn32, ht, poll_chipLate recover hlate]

/-- Phase 2a of WaitReady: the line shows ready and the byte arrives (R114). -/
theorem waitDevice_line (recover : State → State) {s : State} {n : Nat} {bs : List Word} {b : Word} {rs : List Word}
    {r w : Word} {rest : List Word} (hrb : s.cfg.hasRb = true) (hb : s.cfg.statusRetries < 2 ^ 32) (hn32 : n < 2 ^ 32)
    (hretry : (if s.cfg.rbBudgetShared then s.rsm.retry else s.rsm.budget) = BitVec.ofNat 32 n)
    (hs : s.env.reads = bs ++ b :: (rs ++ r :: w :: rest))
    (hbs : ∀ x ∈ bs, statusDevReady s.cfg x = false) (hbv : statusDevReady s.cfg b = true) (hbn : bs.length ≤ n)
    (hrs : ∀ x ∈ rs, istRxReady s.cfg x = false) (hrv : istRxReady s.cfg r = true) (hrn : rs.length ≤ s.cfg.statusRetries) :
    ∃ u, waitDevice recover s =
        ⟨if sbFails s.cfg (wordByte w 0) then .deviceFail else .ok, wordByte w 0, u⟩ ∧
      Ran s u (idleSamples .status bs ++ [.regRead .status b] ++ (statusReadEvents s.cfg ++
        idleSamples .interruptStatus rs ++ [.regRead .interruptStatus r, .regRead .data w])) rest ∧
      u.rsm = { s.rsm with retry := BitVec.ofNat 32 (n - bs.length),
                           aux := BitVec.ofNat 32 (s.cfg.statusRetries - rs.length) } ∧
      u.fsm = (if sbFails s.cfg (wordByte w 0) then .fail else .ok) := by
  obtain ⟨t, -, ht, hran, hrsm⟩ := waitDevice_reachesStatus recover (s := s) (rest := rs ++ r :: w :: rest) hb hn32 hretry
    (by rw [hs, List.append_assoc]; rfl) hbn (.inl ⟨hrb, bs, b, rfl, hbs, hbv, rfl, rfl⟩)
  have hc : t.cfg = s.cfg := hran.cfg
  obtain ⟨u, hu, hran', hrsm', hf⟩ := readStatus_found recover (s := t) (by rw [hc]; exact hb)
    (vs := rs) (v := r) (w := w) (rest := rest) (by rw [hran.env]) (by rw [hc]; exact hrs) (by rw [hc]; exact hrv)
    (by rw [hc]; exact hrn)
  rw [hc] at hu hran' hrsm' hf
  exact ⟨u, (ht hrb).trans hu, by simpa using hran.trans hran', by rw [hrsm', hrsm], hf⟩

/-! ## AllReset -/

theorem ran_toggle {s : State} {v : Word} {rest : List Word} (h : s.env.reads = v :: rest) :
    Ran (enterRecovery s).2 (toggleBufClear (enterRecovery s).2) (toggleEvents s.cfg v) rest ∧
    (toggleBufClear (enterRecovery s).2).rsm = s.rsm := by
  obtain ⟨hv, hr⟩ := ran_regRead (r := .control) (s := (enterRecovery s).2) (v := v) (rest := rest) (by simpa [enterRecovery] using h)
  have hf := RsmFrame.ofToggleBufClear (enterRecovery s).2
  refine ⟨.ofFrame hf ?_ ?_, ?_⟩
  · unfold toggleBufClear
    simp only [hv, history_regWrite, hr.hist, toggleEvents, List.append_assoc, List.cons_append, List.nil_append]
    rfl
  · unfold toggleBufClear
    simp [hr.env]
  · unfold toggleBufClear
    simp [enterRecovery]

/-- Whatever ENV answers, AllReset begins with the toggle of `buf_clear` (R120). -/
theorem allReset_togglesFirst (s : State) :
    ∃ c gs, history (allReset s).st = history s ++ (toggleEvents s.cfg c ++ gs) := by
  have h0 : history (toggleBufClear (enterRecovery s).2) =
      history s ++ toggleEvents s.cfg (regRead .control (enterRecovery s).2).1 := by
    simp [toggleBufClear, history, toggleEvents, enterRecovery]
  have h1 : RsmFrame (toggleBufClear (enterRecovery s).2) (waitBufClear (toggleBufClear (enterRecovery s).2)).2 :=
    .ofPollReg _ _ _ .ofSetAuxRetry _ _
  have key : ∀ t u : State, RsmFrame (toggleBufClear (enterRecovery s).2) t → u.trace = t.trace →
      ∃ c gs, history u = history s ++ (toggleEvents s.cfg c ++ gs) := by
    rintro t u ⟨-, ⟨es, h, -⟩, -⟩ hu
    refine ⟨(regRead .control (enterRecovery s).2).1, es.reverse, ?_⟩
    rw [← List.append_assoc, ← h0]
    simp [history, hu, h]
  unfold allReset
  simp only
  split
  · next t ht => rw [ht] at h1; exact key t _ h1 rfl
  · next t ht =>
    rw [ht] at h1
    have h2 : RsmFrame t (waitCtrlIdle t).2 := .ofPollReg _ _ _ .ofSetAuxRetry _ _
    split
    · next u hu => rw [hu] at h2; exact key u _ (h1.trans h2) rfl
    · next u hu => rw [hu] at h2; exact key _ _ ((h1.trans h2).trans (.ofChipReset (fun s => .refl s) u)) rfl

theorem waitBufClear_eq (s : State) : waitBufClear s =
    pollUntil (sampleReg s.cfg.bufClearDone.reg (bufClearTookEffect s.cfg)) setAuxRetry s.cfg.resetRetries s := rfl

theorem waitCtrlIdle_eq (s : State) : waitCtrlIdle s =
    pollUntil (sampleReg .status fun v => !statusCtrlBusy s.cfg v) setAuxRetry s.cfg.resetRetries s := rfl

/-- Wait 1 of AllReset exhausts its budget (R120). -/
theorem allReset_late1 {s : State} {v : Word} {xs : List Word} {x : Word} {rest : List Word}
    (hb : s.cfg.resetRetries < 2 ^ 32) (hs : s.env.reads = v :: (xs ++ x :: rest))
    (hxs : ∀ y ∈ xs, bufClearTookEffect s.cfg y = false) (hx : bufClearTookEffect s.cfg x = false)
    (hn : xs.length = s.cfg.resetRetries) :
    ∃ u, allReset s = ⟨.hardwareTimeout, s.cfg.failByte, u⟩ ∧
      Ran s u (toggleEvents s.cfg v ++ idleSamples s.cfg.bufClearDone.reg xs ++ [.regRead s.cfg.bufClearDone.reg x]) rest ∧
      u.rsm = { s.rsm with aux := 0 } ∧ u.fsm = .fail := by
  obtain ⟨h0, h0r⟩ := ran_toggle hs
  have hc : (toggleBufClear (enterRecovery s).2).cfg = s.cfg := h0.cfg
  have hp := pollUntil_exhausted (r := s.cfg.bufClearDone.reg) (test := bufClearTookEffect s.cfg) counter_auxRetry hb
    (s := toggleBufClear (enterRecovery s).2) (vs := xs) (v := x) (rest := rest) (by rw [h0.env]) hxs hx hn
  have h1 := h0.trans (ran_polled s.cfg.bufClearDone.reg (fun v r => { r with aux := v }) s.cfg.resetRetries xs x rest
    (toggleBufClear (enterRecovery s).2))
  refine ⟨Machine.setFsm .fail (leaveRecovery s.inRecovery (polled s.cfg.bufClearDone.reg (fun v r => { r with aux := v })
    s.cfg.resetRetries xs x rest (toggleBufClear (enterRecovery s).2))), ?_, ?_, ?_, rfl⟩
  · unfold allReset
    simp only
    rw [waitBufClear_eq, hc, hp]
    simp only [returnTimeout, leaveRecovery_cfg, h1.cfg]
    rfl
  · have h2 := h1.setFsm .fail
    refine ⟨?_, ?_, h2.env, h2.elapsed⟩
    · have h3 := h2.kept
      simp only [rsmKept, enterRecovery, Prod.mk.injEq] at h3 ⊢
      simp_all
    · have h3 := h2.hist
      rw [← List.append_assoc (toggleEvents s.cfg v)] at h3
      exact h3
  · simp [polled, h0r, hn]

/-- Waits 1 and 2 of AllReset end (R120): what is left is ChipReset with `in_recovery` set. -/
theorem allReset_reaches {s : State} {v : Word} {xs : List Word} {x : Word} {rest₁ : List Word}
    (hb : s.cfg.resetRetries < 2 ^ 32) (hs : s.env.reads = v :: (xs ++ x :: rest₁))
    (hxs : ∀ y ∈ xs, bufClearTookEffect s.cfg y = false) (hx : bufClearTookEffect s.cfg x = true)
    (hn : xs.length ≤ s.cfg.resetRetries) :
    ∃ t, Ran (enterRecovery s).2 t
        (toggleEvents s.cfg v ++ idleSamples s.cfg.bufClearDone.reg xs ++ [.regRead s.cfg.bufClearDone.reg x]) rest₁ ∧
      t.rsm = { s.rsm with aux := BitVec.ofNat 32 (s.cfg.resetRetries - xs.length) } ∧
      allReset s = (match waitCtrlIdle t with
        | (none, u) => returnTimeout (leaveRecovery s.inRecovery u)
        | (some (), u) => { chipReset id u with st := leaveRecovery s.inRecovery (chipReset id u).st }) := by
  obtain ⟨h0, h0r⟩ := ran_toggle hs
  have hc : (toggleBufClear (enterRecovery s).2).cfg = s.cfg := h0.cfg
  have hp := pollUntil_found (r := s.cfg.bufClearDone.reg) (test := bufClearTookEffect s.cfg) counter_auxRetry hb
    (s := toggleBufClear (enterRecovery s).2) (vs := xs) (v := x) (rest := rest₁) (by rw [h0.env]) hxs hx hn
  have h1 := h0.trans (ran_polled s.cfg.bufClearDone.reg (fun v r => { r with aux := v }) s.cfg.resetRetries xs x rest₁
    (toggleBufClear (enterRecovery s).2))
  refine ⟨_, by simpa using h1, by simp [polled, h0r], ?_⟩
  unfold allReset
  simp only
  rw [waitBufClear_eq, hc, hp]
  rfl

theorem waitCtrlIdle_found {s : State} {ys : List Word} {y : Word} {rest : List Word}
    (hb : s.cfg.resetRetries < 2 ^ 32) (hs : s.env.reads = ys ++ y :: rest)
    (hys : ∀ v ∈ ys, statusCtrlBusy s.cfg v = true) (hy : statusCtrlBusy s.cfg y = false)
    (hn : ys.length ≤ s.cfg.resetRetries) :
    ∃ u, waitCtrlIdle s = (some (), u) ∧ Ran s u (idleSamples .status ys ++ [.regRead .status y]) rest ∧
      u.rsm = { s.rsm with aux := BitVec.ofNat 32 (s.cfg.resetRetries - ys.length) } := by
  refine ⟨_, ?_, ran_polled .status (fun v r => { r with aux := v }) s.cfg.resetRetries ys y rest s, rfl⟩
  rw [waitCtrlIdle_eq]
  exact pollUntil_found counter_auxRetry hb hs (fun v hv => by simp [hys v hv]) (by simp [hy]) hn

theorem waitCtrlIdle_late {s : State} {ys : List Word} {y : Word} {rest : List Word}
    (hb : s.cfg.resetRetries < 2 ^ 32) (hs : s.env.reads = ys ++ y :: rest)
    (hys : ∀ v ∈ ys, statusCtrlBusy s.cfg v = true) (hy : statusCtrlBusy s.cfg y = true)
    (hn : ys.length = s.cfg.resetRetries) :
    ∃ u, waitCtrlIdle s = (none, u) ∧ Ran s u (idleSamples .status ys ++ [.regRead .status y]) rest ∧
      u.rsm = { s.rsm with aux := 0 } := by
  refine ⟨_, ?_, ran_polled .status (fun v r => { r with aux := v }) s.cfg.resetRetries ys y rest s, by simp [polled, hn]⟩
  rw [waitCtrlIdle_eq]
  exact pollUntil_exhausted counter_auxRetry hb hs (fun v hv => by simp [hys v hv]) (by simp [hy]) hn

end Sys2Proof.Machine
end

