-- ==== Sys2Proof/Laws/Step.lean ====
section
/-! SUPPORT. What every operation keeps, whatever its operands and whatever ENV answers, and what a step can do. -/

namespace Sys2Proof.Machine

/-! ## What the units keep while they run -/

/-- What a running operation never changes, and the parts of the invariant it keeps. -/
structure OpKept (s t : State) : Prop where
  cfg : t.cfg = s.cfg
  port : t.port = s.port
  hostq : t.hostq = s.hostq
  inRecovery : t.inRecovery = s.inRecovery
  memWf : Memory.wf s.bufmem = true → Memory.wf t.bufmem = true
  memBelow : (∀ c ∈ s.bufmem, c.1 < s.cfg.bufmemSize) → ∀ c ∈ t.bufmem, c.1 < t.cfg.bufmemSize
  attempt : s.ecv.attempt.toNat ≤ 2 → t.ecv.attempt.toNat ≤ 2

theorem OpKept.refl (s : State) : OpKept s s := ⟨rfl, rfl, rfl, rfl, id, id, id⟩

theorem OpKept.trans {s t u : State} (h : OpKept s t) (k : OpKept t u) : OpKept s u where
  cfg := k.cfg.trans h.cfg
  port := k.port.trans h.port
  hostq := k.hostq.trans h.hostq
  inRecovery := k.inRecovery.trans h.inRecovery
  memWf := fun x => k.memWf (h.memWf x)
  memBelow := fun x => k.memBelow (h.memBelow x)
  attempt := fun x => k.attempt (h.attempt x)

/-- A change outside BUFMEM and the ECV. -/
theorem OpKept.ofSame {s t : State} (h1 : t.cfg = s.cfg) (h2 : t.port = s.port) (h3 : t.hostq = s.hostq)
    (h4 : t.inRecovery = s.inRecovery) (h5 : t.bufmem = s.bufmem) (h6 : t.ecv.attempt = s.ecv.attempt) : OpKept s t :=
  ⟨h1, h2, h3, h4, by rw [h5]; exact id, by rw [h5, h1]; exact id, by rw [h6]; exact id⟩

theorem OpKept.ofStoreAll {s t : State} {a : Nat} {bs : List Byte} (h1 : t.cfg = s.cfg) (h2 : t.port = s.port)
    (h3 : t.hostq = s.hostq) (h4 : t.inRecovery = s.inRecovery) (h5 : t.bufmem = Memory.storeAll s.bufmem a bs)
    (h6 : t.ecv.attempt = s.ecv.attempt) (h7 : bs ≠ [] → a + bs.length ≤ s.cfg.bufmemSize) : OpKept s t where
  cfg := h1
  port := h2
  hostq := h3
  inRecovery := h4
  memWf := by rw [h5]; exact fun h => Memory.wf_storeAll _ _ h
  memBelow := by
    rw [h5, h1]
    intro h
    cases bs with
    | nil => exact h
    | cons b bs => exact Memory.below_storeAll (h7 (by simp)) h
  attempt := by rw [h6]; exact id

theorem OpKept.ofDtePolled {s t : State} {es : List Event} {idle : Nat} (h : DtePolled s t es idle) : OpKept s t := by
  have hk := h.kept
  simp only [dteKept, Prod.mk.injEq] at hk
  obtain ⟨k1, k2, k3, k4, k5, k6, k7, k8, k9, k10, k11, -⟩ := hk
  exact .ofSame k1 k2 k11 k4 h.bufmem (by rw [k8])

theorem OpKept.ofPullWord {buf : Nat} {s t : State} (h : pullWord buf s = .ok t) : OpKept s t := by
  unfold pullWord at h
  simp only at h
  split at h
  · simp at h
  · next u hu =>
    obtain ⟨h1, h2⟩ := memWrites_ok hu
    simp only [Except.ok.injEq] at h
    subst h
    refine .ofStoreAll ?_ ?_ ?_ ?_ (a := buf + s.dte.cnt.toNat) (bs := wordBytes (regRead .data s).1 (dteChunk s.dte)) ?_ ?_
      (by simpa using h1) <;> simp [h2]

theorem OpKept.ofPushWord {buf : Nat} {s t : State} (h : pushWord buf s = .ok t) : OpKept s t := by
  unfold pushWord at h
  simp only at h
  split at h
  · simp at h
  · next bs u hu =>
    obtain ⟨-, -, rfl⟩ := memReads_ok hu
    simp only [Except.ok.injEq] at h
    subst h
    exact .ofSame (by simp) (by simp) (by simp) (by simp) (by simp) (by simp)

theorem OpKept.ofDteLoop {mask : Word} {move : State → Except Fault State}
    (hmove : ∀ {s t}, move s = .ok t → OpKept s t) {n : Nat} {s t : State} {code : Code}
    (h : dteLoop mask move n s = .ok (code, t)) : OpKept s t := by
  refine dteLoop_spec (P := fun _ u => OpKept s u) (Q := fun _ u => OpKept s u) (fun _ h => h) ?_ (.refl s) h
  rintro m u hu r rfl
  obtain ⟨es, idle, hp, -, -⟩ := dtePoll_spec mask u
  have hk := hu.trans (OpKept.ofDtePolled hp)
  exact ⟨fun _ => hk, fun _ => hk, fun _ v hv => hk.trans (hmove hv)⟩

theorem OpKept.ofRsmFrame {s t : State} (h : RsmFrame s t) : OpKept s t := by
  have h := h.eq
  rw [h]
  exact .ofSame rfl rfl rfl rfl rfl rfl

theorem OpKept.ofReread {p dst : Nat} {s t : State} {ok : Bool} (h : pageReread p dst s = .ok (ok, t)) :
    OpKept s t := by
  have hle : dst + s.cfg.pageImage ≤ s.cfg.bufmemSize := by
    unfold pageReread at h
    split at h
    · assumption
    · simp at h
  obtain ⟨ok', t', h1, h2⟩ := pageReread_spec (p := p) hle
  rw [h1] at h
  simp only [Except.ok.injEq, Prod.mk.injEq] at h
  obtain ⟨rfl, rfl⟩ := h
  obtain ⟨bs, hb1, hb2⟩ := h2.image
  have he := h2.eq
  exact .ofStoreAll (by rw [he]) (by rw [he]) (by rw [he]) (by rw [he]) hb2 (by rw [he]) (by rw [hb1]; exact fun _ => hle)

theorem OpKept.ofAttempt {n : BitVec 2} (hn : n.toNat ≤ 2) (s : State) : OpKept s (setEcvAttempt n s) :=
  ⟨rfl, rfl, rfl, rfl, id, id, fun _ => hn⟩

theorem OpKept.ofReadBack {p : Nat} {s t : State} {ok : Bool} (h : readBack p s = .ok (ok, t)) : OpKept s t := by
  have h1 : OpKept s (setEcvAttempt 1 s) := .ofAttempt (by decide) s
  unfold readBack at h
  split at h
  · simp at h
  · next u hu =>
    simp only [Except.ok.injEq, Prod.mk.injEq] at h
    obtain ⟨-, rfl⟩ := h
    exact h1.trans (.ofReread hu)
  · next u hu => exact ((h1.trans (.ofReread hu)).trans (.ofAttempt (by decide) u)).trans (.ofReread h)

theorem OpKept.ofCompareEcc {e : Word} {base i n : Nat} {s t : State} {code : Code}
    (h : compareEcc e base i n s = .ok (code, t)) : OpKept s t := by
  induction n generalizing i s with
  | zero =>
    simp only [compareEcc, Except.ok.injEq, Prod.mk.injEq] at h
    obtain ⟨-, rfl⟩ := h
    exact .refl s
  | succ n ih =>
    rw [compareEcc] at h
    split at h
    · simp at h
    · next b u hu =>
      obtain ⟨-, -, rfl⟩ := memRead_ok hu
      have hk : OpKept s (emit (.bufRead (eccAddr s.cfg base i) b) s) := .ofSame rfl rfl rfl rfl rfl rfl
      split at h
      · exact hk.trans (ih h)
      · simp only [Except.ok.injEq, Prod.mk.injEq] at h
        obtain ⟨-, rfl⟩ := h
        exact hk

theorem OpKept.ofEccCompare {base : Nat} {s t : State} {code : Code} (h : eccCompare base s = .ok (code, t)) :
    OpKept s t := by
  have hk : OpKept s (setEccLatch (regRead .ecc s).1 (regRead .ecc s).2) :=
    .ofSame (by simp) (by simp) (by simp) (by simp) (by simp) (by simp)
  unfold eccCompare at h
  simp only at h
  split at h
  · simp only [Except.ok.injEq, Prod.mk.injEq] at h
    obtain ⟨-, rfl⟩ := h
    exact hk
  · exact hk.trans (.ofCompareEcc h)

theorem OpKept.ofVerifyWrite {page : Word} {s t : State} {code : Code} (h : verifyWrite page s = .ok (code, t)) :
    OpKept s t := by
  unfold verifyWrite at h
  split at h
  · simp at h
  · next u hu =>
    simp only [Except.ok.injEq, Prod.mk.injEq] at h
    obtain ⟨-, rfl⟩ := h
    exact .ofReadBack hu
  · next u hu => exact (OpKept.ofReadBack hu).trans (.ofEccCompare h)

theorem OpKept.ofReadOob (p off len : Nat) (s : State) : OpKept s (readOob p off len s).2 := by
  obtain ⟨a, e, -, -, -, h⟩ := readOob_state p off len s
  rw [h]
  exact ⟨rfl, rfl, rfl, rfl, Memory.wf_overlay _ _, Memory.below_overlay (stagedBytes_le s.cfg a), id⟩

/-! ## What every operation leaves -/

/-- What the end of an operation leaves, whatever it did before (R28, R78, R99, R112, R149, R161, R202). -/
structure Ended (i : Instr) (s t : State) : Prop where
  code : ∃ c ∈ codesOf i, t.err = c.bits ∧ ∃ v, t.port.resp = .wrote (respWord v c.bits)
  busy : t.busy = false
  cfg : t.cfg = s.cfg
  hostq : t.hostq = s.hostq
  inRecovery : t.inRecovery = s.inRecovery
  port : t.port = { s.port with resp := t.port.resp }
  memWf : Memory.wf s.bufmem = true → Memory.wf t.bufmem = true
  memBelow : (∀ c ∈ s.bufmem, c.1 < s.cfg.bufmemSize) → ∀ c ∈ t.bufmem, c.1 < t.cfg.bufmemSize
  attempt : s.ecv.attempt.toNat ≤ 2 → t.ecv.attempt.toNat ≤ 2

theorem Ended.ofCommit {i : Instr} {s t : State} {c : Code} {v : Len} (h : OpKept s t) (hc : c ∈ codesOf i) :
    Ended i s (commit c v t) :=
  ⟨⟨c, hc, rfl, v, rfl⟩, rfl, h.cfg, h.hostq, h.inRecovery, by simp [commit, h.port], h.memWf, h.memBelow, h.attempt⟩

theorem Ended.ofFinishRsm {i : Instr} {s t : State} {r : RsmReturn} (h : RsmFrame s r.st) (ha : r.Agrees s.cfg)
    (hi : codesOf i = [.ok, .deviceFail, .hardwareTimeout]) (ht : finishRsm r = .next t) : Ended i s t := by
  simp only [finishRsm, Host.Outcome.next.injEq] at ht
  subst ht
  have hk : OpKept s (setStatusByte r.sb r.st) := (OpKept.ofRsmFrame h).trans (.ofSame rfl rfl rfl rfl rfl rfl)
  refine Ended.ofCommit hk ?_
  rw [hi]
  rcases ha with ⟨h, -⟩ | ⟨h, -⟩ | ⟨h, -⟩ <;> simp [h]

/-- The codes of the loop of PULL and PUSH. -/
theorem dteLoop_code {mask : Word} {move : State → Except Fault State} {n : Nat} {s t : State} {code : Code}
    (h : dteLoop mask move n s = .ok (code, t)) : code ∈ [Code.ok, .transferShort, .hardwareTimeout] :=
  dteLoop_spec (P := fun _ _ => True) (Q := fun c _ => c ∈ [Code.ok, .transferShort, .hardwareTimeout])
    (by simp) (by intros; simp) trivial h

theorem compareEcc_code {e : Word} {base i n : Nat} {s t : State} {code : Code}
    (h : compareEcc e base i n s = .ok (code, t)) : code ∈ [Code.ok, .eccMismatch] := by
  induction n generalizing i s with
  | zero => simp only [compareEcc, Except.ok.injEq, Prod.mk.injEq] at h; simp [← h.1]
  | succ n ih =>
    rw [compareEcc] at h
    split at h
    · simp at h
    · split at h
      · exact ih h
      · simp only [Except.ok.injEq, Prod.mk.injEq] at h; simp [← h.1]

theorem eccCompare_code {base : Nat} {s t : State} {code : Code} (h : eccCompare base s = .ok (code, t)) :
    code ∈ [Code.ok, .eccMismatch] := by
  unfold eccCompare at h
  simp only at h
  split at h
  · simp only [Except.ok.injEq, Prod.mk.injEq] at h; simp [← h.1]
  · exact compareEcc_code h

theorem Ended.ofFinishDte {i : Instr} {s t : State} {r : Except Fault (Code × State)}
    (hk : ∀ c u, r = .ok (c, u) → OpKept s u ∧ c ∈ codesOf i) (h : finishDte r = .next t) : Ended i s t := by
  unfold finishDte at h
  split at h
  · simp at h
  · next c u =>
    simp only [Host.Outcome.next.injEq] at h
    subst h
    exact .ofCommit (hk c u rfl).1 (hk c u rfl).2

theorem Ended.ofFinishEcv {i : Instr} {s t : State} {r : Except Fault (Code × State)}
    (hk : ∀ c u, r = .ok (c, u) → OpKept s u ∧ c ∈ codesOf i) (h : finishEcv r = .next t) : Ended i s t := by
  unfold finishEcv at h
  split at h
  · simp at h
  · next c u =>
    simp only [Host.Outcome.next.injEq] at h
    subst h
    exact .ofCommit (hk c u rfl).1 (hk c u rfl).2

theorem OpKept.ofStartDte (dir : Dir) (len : Len) (n : Nat) (s : State) : OpKept s (startDte dir len n s) :=
  .ofSame rfl rfl rfl rfl rfl rfl

/-- What every operation leaves. -/
theorem exec_ended {i : Instr} {s t : State} (h : exec i s = .next t) : Ended i s t := by
  cases i with
  | pull len buf =>
    exact .ofFinishDte (fun c u hu => ⟨(OpKept.ofStartDte _ _ _ s).trans (.ofDteLoop .ofPullWord hu), dteLoop_code hu⟩) h
  | push len buf =>
    exact .ofFinishDte (fun c u hu => ⟨(OpKept.ofStartDte _ _ _ s).trans (.ofDteLoop .ofPushWord hu), dteLoop_code hu⟩) h
  | waitReady ms => exact .ofFinishRsm (.ofWaitReady .ofRecovery ms s) (waitReady_agrees .ofRecovery ms s) rfl h
  | readStatus => exact .ofFinishRsm (.ofReadStatus .ofRecovery s) (readStatus_agrees .ofRecovery s) rfl h
  | chipReset => exact .ofFinishRsm (.ofChipReset .ofRecovery s) (chipReset_agrees .ofRecovery s) rfl h
  | allReset => exact .ofFinishRsm (.ofAllReset s) (allReset_agrees s) rfl h
  | eccVerifyRead buf page => exact .ofFinishEcv (fun c u hu => ⟨.ofEccCompare hu, eccCompare_code hu⟩) h
  | eccVerifyWrite buf page =>
    refine .ofFinishEcv (fun c u hu => ⟨.ofVerifyWrite hu, ?_⟩) h
    unfold verifyWrite at hu
    split at hu
    · simp at hu
    · simp only [Except.ok.injEq, Prod.mk.injEq] at hu; simp [codesOf, ← hu.1]
    · exact eccCompare_code hu
  | bbDetect tag =>
    simp only [exec, execBbDetect, finishBbd, Host.Outcome.next.injEq] at h
    subst h
    exact .ofCommit (.ofSame rfl rfl rfl rfl rfl rfl) (by simp [codesOf])
  | bbProbe off =>
    have hk := OpKept.ofReadOob (firstPageOfBlock s.cfg (reduceOffset s.cfg off)) s.cfg.bbOobOffset 1 s
    simp only [exec, execBbProbe, finishProbe, probeTag] at h
    split at h
    · next c hc =>
      simp only [finishBbd, Host.Outcome.next.injEq] at h
      subst h
      exact .ofCommit (hk.trans (.ofSame rfl rfl rfl rfl rfl rfl)) (by cases c <;> simp [codesOf, OobFail.code])
    · simp only [finishBbd, Host.Outcome.next.injEq] at h
      subst h
      exact .ofCommit (hk.trans (.ofSame rfl rfl rfl rfl rfl rfl)) (by simp [codesOf])

/-! ## The HOST's side -/

/-- The invariant but for `busy`. -/
def Settled (s : State) : Prop :=
  Memory.wf s.bufmem = true ∧ (∀ c ∈ s.bufmem, c.1 < s.cfg.bufmemSize) ∧ s.inRecovery = false ∧
  s.ecv.attempt.toNat ≤ 2 ∧ s.err.toNat ≤ 4 ∧
  (s.port.resp.held = true →
    respMiddle s.port.resp.val = 0 ∧ ((respCode s.port.resp.val).toNat ≤ 4 ∨ respCode s.port.resp.val = refusedBits))

theorem inv_iff (s : State) : s.Inv ↔ Settled s ∧ s.busy = false := by
  unfold State.Inv Settled; tauto

/-- A change that touches nothing the invariant is about. -/
theorem Settled.ofSame {s t : State} (h : Settled s) (h1 : t.cfg = s.cfg) (h2 : t.bufmem = s.bufmem)
    (h3 : t.inRecovery = s.inRecovery) (h4 : t.ecv = s.ecv) (h5 : t.err = s.err) (h6 : t.port.resp = s.port.resp) :
    Settled t := by
  unfold Settled at h ⊢
  rwa [h1, h2, h3, h4, h5, h6]

/-- What one HOST access can do. -/
theorem hostAccess_kept {a : HostAct} {s t : State} (h : hostAccess a s = .next t) :
    t.cfg = s.cfg ∧ t.busy = s.busy ∧ t.port.latchA = s.port.latchA ∧ t.port.latchB = s.port.latchB ∧
    t.port.opreq = s.port.opreq ∧ t.hostq = s.hostq ∧ (Settled s → Settled t) := by
  have hreg : ∀ {off w : Nat} {f : NfcReg → State}, hostRegAccess off w s f = .next t → ∃ r, t = f r := by
    intro off w f h
    unfold hostRegAccess at h
    split at h
    · simp at h
    · split at h
      · simp at h
      · split at h
        · simp at h
        · next r hr => exact ⟨r, by simpa using h.symm⟩
  cases a with
  | writeOpreq w n => simp [hostAccess] at h
  | writeOpa w =>
    simp only [hostAccess, Host.Outcome.next.injEq] at h
    subst h
    exact ⟨rfl, rfl, rfl, rfl, rfl, rfl, fun h => h.ofSame rfl rfl rfl rfl rfl rfl⟩
  | writeOpb w =>
    simp only [hostAccess, Host.Outcome.next.injEq] at h
    subst h
    exact ⟨rfl, rfl, rfl, rfl, rfl, rfl, fun h => h.ofSame rfl rfl rfl rfl rfl rfl⟩
  | readResp =>
    simp only [hostAccess] at h
    split at h
    · simp only [Host.Outcome.next.injEq] at h
      subst h
      exact ⟨rfl, rfl, rfl, rfl, rfl, rfl, fun h => h.ofSame rfl rfl rfl rfl rfl rfl⟩
    · simp at h
  | regRead off w =>
    obtain ⟨r, rfl⟩ := hreg h
    obtain ⟨e, -, -, he⟩ := envAnswer_state r s
    unfold hostRegRead
    simp only [he]
    exact ⟨rfl, rfl, rfl, rfl, rfl, rfl, fun h => h.ofSame rfl rfl rfl rfl rfl rfl⟩
  | regWrite off w v =>
    obtain ⟨r, rfl⟩ := hreg h
    exact ⟨rfl, rfl, rfl, rfl, rfl, rfl, fun h => h.ofSame rfl rfl rfl rfl rfl rfl⟩
  | memRead a =>
    simp only [hostAccess] at h
    split at h
    · simp at h
    · simp only [Host.Outcome.next.injEq] at h
      subst h
      exact ⟨rfl, rfl, rfl, rfl, rfl, rfl, fun h => h.ofSame rfl rfl rfl rfl rfl rfl⟩
  | memWrite a b =>
    simp only [hostAccess] at h
    split at h
    · simp at h
    · unfold putByte at h
      split at h
      · simp at h
      · next u hu =>
        split at hu
        · next ha =>
          simp only [Except.ok.injEq] at hu
          simp only [Host.Outcome.next.injEq] at h
          subst hu; subst h
          refine ⟨rfl, rfl, rfl, rfl, rfl, rfl, fun h => ?_⟩
          obtain ⟨h1, h2, h3⟩ := h
          exact ⟨Memory.wf_store _ _ h1, Memory.below_store ha h2, h3⟩
        · simp at hu

theorem overlapAccesses_kept {as : List HostAct} {s t : State} (h : overlapAccesses as s = .next t) :
    t.cfg = s.cfg ∧ t.busy = s.busy ∧ t.port.latchA = s.port.latchA ∧ t.port.latchB = s.port.latchB ∧
    t.port.opreq = s.port.opreq ∧ t.hostq = s.hostq ∧ (Settled s → Settled t) := by
  induction as generalizing s with
  | nil =>
    simp only [overlapAccesses, Host.Outcome.next.injEq] at h
    subst h
    exact ⟨rfl, rfl, rfl, rfl, rfl, rfl, id⟩
  | cons a as ih =>
    rw [overlapAccesses] at h
    split at h
    · next u hu =>
      obtain ⟨k1, k2, k3, k4, k5, k6, k7⟩ := hostAccess_kept hu
      obtain ⟨i1, i2, i3, i4, i5, i6, i7⟩ := ih h
      exact ⟨i1.trans k1, i2.trans k2, i3.trans k3, i4.trans k4, i5.trans k5, i6.trans k6, i7 ∘ k7⟩
    · simp at h
    · simp at h

theorem settled_refuse {s : State} (h : Settled s) : Settled (refuse s) := by
  obtain ⟨h1, h2, h3, h4, h5, -⟩ := h
  exact ⟨h1, h2, h3, h4, h5, fun _ => ⟨by simp [refuse, Reg.wrote], .inr (by simp [refuse, Reg.wrote])⟩⟩

/-- The issue of a request while the block is idle ends in a state that meets the invariant, or runs an operation from
one that does but for `busy`. -/
theorem issue_settled {n : Nat} {s : State} (h : Settled s) (hb : s.busy = false) :
    (∀ t, issue n s = .ended (.next t) → t.Inv ∧ t.cfg = s.cfg) ∧
    (∀ i t, issue n s = .running i t → Settled t ∧ t.cfg = s.cfg) := by
  have href : ∀ t, Presented.ended (.next (refuse s)) = .ended (.next t) → t.Inv ∧ t.cfg = s.cfg := by
    intro t ht
    simp only [Presented.ended.injEq, Host.Outcome.next.injEq] at ht
    subst ht
    exact ⟨(inv_iff _).mpr ⟨settled_refuse h, hb⟩, rfl⟩
  unfold issue
  split
  · exact ⟨href, by simp⟩
  · split
    · split
      · simp
      · split
        · exact ⟨href, by simp⟩
        · next i hi =>
          unfold launch
          split
          · next u hu =>
            obtain ⟨k1, -, -, -, -, -, k7⟩ := overlapAccesses_kept hu
            refine ⟨by simp, fun j t ht => ?_⟩
            simp only [Presented.running.injEq] at ht
            obtain ⟨-, rfl⟩ := ht
            exact ⟨k7 (h.ofSame rfl rfl rfl rfl rfl rfl), k1⟩
          · simp
          · simp
    · exact ⟨href, by simp⟩

theorem exec_inv {i : Instr} {s t : State} (h : Settled s) (ht : exec i s = .next t) : t.Inv ∧ t.cfg = s.cfg := by
  have he := exec_ended ht
  obtain ⟨h1, h2, h3, h4, -, -⟩ := h
  obtain ⟨c, -, h6, v, h7⟩ := he.code
  have hc : (Code.bits c).toNat ≤ 4 := by cases c <;> decide
  refine ⟨⟨he.memWf h1, he.memBelow h2, he.busy, he.inRecovery.trans h3, he.attempt h4, by rw [h6]; exact hc, fun _ => ?_⟩,
    he.cfg⟩
  rw [h7]
  exact ⟨by simp [Reg.wrote], .inl (by simpa [Reg.wrote] using hc)⟩

end Sys2Proof.Machine
end

