-- ==== Sys2Proof/Tests/Slice0.lean ====
section
/-! SUPPORT. Tests: the checks of WellFormed on ill-formed terms, request words written out bit by bit from R83, the
vectors of spec/95_test_vectors.md, and for every statement with hypotheses a state that meets them. -/

namespace Sys2Proof.Tests.Slice0

open Sys2Proof Sys2Proof.Machine

/-! ## Helpers -/

/-- The state after reset of a block built with REF. -/
def refReset : State := State.resetWith Config.ref

/-- The state after reset of a block built with `c`, with the answers ENV will give. -/
def start (c : Config) (reads : List Word) : State :=
  { State.resetWith c with env := { reads := reads, rereads := [], oobs := [], drawn := 0 } }

/-- The same with bytes in BUFMEM from `a` on. -/
def startMem (c : Config) (reads : List Word) (a : Nat) (bs : List Byte) : State :=
  { start c reads with bufmem := Memory.storeAll [] a bs }

/-- A block whose HOST has written OPA and OPB and has the actions `acts` before it. -/
def hosted (c : Config) (a b : Word) (acts : List HostAct) : State :=
  { State.resetWith c with
    port := { (State.resetWith c).port with opa := .wrote a, opb := .wrote b }
    hostq := acts }

/-- The step has a next state, and it is as `p` says. -/
def ends (o : Host.Outcome State Fault Refusal) (p : State → Bool) : Bool :=
  match o with
  | .next t => p t
  | .fault _ => false
  | .refused _ => false

/-- The step ends in the fault `f`. -/
def faults (o : Host.Outcome State Fault Refusal) (f : Fault) : Bool :=
  match o with
  | .next _ => false
  | .fault g => decide (g = f)
  | .refused _ => false

/-- A collaborator's leavings: nothing of note. -/
def calm : Havoc where
  nfc := (State.resetWith Config.tiny).nfc
  fsm := .idle
  statusByte := 0
  rsmBudget := 0
  rsmRetry := 0
  auxRetry := 0
  dteDir := .rx
  dteLen := 0
  dteCnt := 0
  dteRetry := 0
  delay := 0

/-- A configuration whose page image is small: a page of 4 bytes with its ECC in the OOB area. -/
def small : Config :=
  { Config.tiny with
    pageSize := 4, oobSize := 8, pagesPerBlock := 2, blockSize := 8, chipSize := 32, eccOobOffset := 2, bbOobOffset := 0
    bufmemSize := 24, rbufBase := 12 }

def smallNoWrap : Config := { small with pageWrap := false }

def tinyNoRb : Config := { Config.tiny with hasRb := false }

/-- The answers of V-RSM-1: done, dev_ready, rx_ready, the status byte. -/
def readyAnswers (sb : Word) : List Word := [1, 2, 2, sb]

/-! ## Configurations (R9, R113) -/

theorem test_wf_ref : Config.ref.wf = true := by decide
theorem test_wf_tiny : Config.tiny.wf = true := by decide
theorem test_wf_small : small.wf = true := by decide
theorem test_wf_page_not_power : ({ small with pageSize := 3 } : Config).wf = false := by decide
theorem test_wf_block_size : ({ small with blockSize := 16 } : Config).wf = false := by decide
theorem test_wf_chip_small : ({ small with chipSize := 4 } : Config).wf = false := by decide
theorem test_wf_ecc_outside : ({ small with eccOobOffset := 5 } : Config).wf = false := by decide
theorem test_wf_tag_in_ecc : ({ small with bbOobOffset := 5 } : Config).wf = false := by decide
theorem test_wf_rbuf_outside : ({ small with rbufBase := 13 } : Config).wf = false := by decide
theorem test_wf_two_bits : ({ small with intDone := 3 } : Config).wf = false := by decide
theorem test_wf_same_masks : ({ small with intDone := 2 } : Config).wf = false := by decide
theorem test_wf_same_offsets : ({ small with regOffset := { small.regOffset with ecc := 0 } } : Config).wf = false := by decide
theorem test_wf_offset_odd : ({ small with regOffset := { small.regOffset with ecc := 0x26 } } : Config).wf = false := by decide
theorem test_wf_budget_large : ({ small with retriesPerMs := 65538 } : Config).wf = false := by decide

/-! ## Ill-formed operations (R84, R85; the refusals of 95_test_vectors.md section 6) -/

theorem test_refuse_push_region : decodeRequest Config.ref ⟨0x00021002#32, 529#32, 0#32⟩ = .error .outOfRange := by decide
theorem test_refuse_pull_length : decodeRequest Config.ref ⟨0x00042101#32, 0#32, 0#32⟩ = .error .outOfRange := by decide
theorem test_refuse_pull_longest : decodeRequest Config.ref ⟨0xFFFFFF01#32, 0#32, 0#32⟩ = .error .outOfRange := by decide
theorem test_refuse_ecc_read_region : decodeRequest Config.ref ⟨0x00000007#32, 529#32, 0#32⟩ = .error .outOfRange := by decide
theorem test_refuse_ecc_write_page :
    decodeRequest { Config.ref with pageWrap := false } ⟨0x00000017#32, 0#32, 0x8000#32⟩ = .error .outOfRange := by decide
theorem test_refuse_probe_offset :
    decodeRequest { Config.ref with pageWrap := false } ⟨0x00000009#32, 0x01000000#32, 0#32⟩ = .error .outOfRange := by decide
theorem test_refuse_probe_off :
    decodeRequest { Config.ref with badblockCheck := false } ⟨0x00000009#32, 0#32, 0#32⟩ = .error .switchedOff := by decide
theorem test_not_well_formed_pull : (Instr.pull 1057 0).wellFormed Config.ref = false := by decide
theorem test_not_well_formed_push : (Instr.push 528 529).wellFormed Config.ref = false := by decide
theorem test_not_well_formed_ecc_read : (Instr.eccVerifyRead 529 0).wellFormed Config.ref = false := by decide
theorem test_not_well_formed_ecc_write : (Instr.eccVerifyWrite 0 8).wellFormed smallNoWrap = false := by decide
theorem test_not_well_formed_probe_range : (Instr.bbProbe 32).wellFormed smallNoWrap = false := by decide
theorem test_not_well_formed_probe_off : (Instr.bbProbe 0).wellFormed { small with badblockCheck := false } = false := by decide

/-! ## Decoding: every operation's word, written out from the patterns of R83 -/

theorem test_decode_pull :
    decode ⟨0b00000000000000000000011000000001#32, 16#32, 0#32⟩ = .ok (.pull 6 16) := by decide
theorem test_decode_push :
    decode ⟨0b00000000000000100001000000000010#32, 7#32, 0#32⟩ = .ok (.push 528 7) := by decide
theorem test_decode_wait_ready :
    decode ⟨0b00000000100000000000000100000011#32, 0#32, 0#32⟩ = .ok (.waitReady 0x8001) := by decide
theorem test_decode_read_status : decode ⟨0b00000000000000000000000000000100#32, 1#32, 1#32⟩ = .ok .readStatus := by decide
theorem test_decode_chip_reset : decode ⟨0b00000000000000000000000000000101#32, 1#32, 1#32⟩ = .ok .chipReset := by decide
theorem test_decode_all_reset : decode ⟨0b00000000000000000000000000000110#32, 1#32, 1#32⟩ = .ok .allReset := by decide
theorem test_decode_ecc_read :
    decode ⟨0b00000000000000000000000000000111#32, 3#32, 9#32⟩ = .ok (.eccVerifyRead 3 9) := by decide
theorem test_decode_ecc_write :
    decode ⟨0b00000000000000000000000000010111#32, 3#32, 9#32⟩ = .ok (.eccVerifyWrite 3 9) := by decide
theorem test_decode_bb_detect :
    decode ⟨0b00000000000000000000000000001000#32, 0xFE#32, 0#32⟩ = .ok (.bbDetect 0xFE) := by decide
theorem test_decode_bb_probe :
    decode ⟨0b00000000000000000000000000001001#32, 0x80000001#32, 0#32⟩ = .ok (.bbProbe 0x80000001) := by decide

theorem test_decode_reserved_opcodes :
    decode ⟨0x00000000#32, 0, 0⟩ = .error .reservedOpcode ∧ decode ⟨0x0000000A#32, 0, 0⟩ = .error .reservedOpcode ∧
    decode ⟨0x0000000F#32, 0, 0⟩ = .error .reservedOpcode := by decide
theorem test_decode_reserved_modes :
    decode ⟨0x00000011#32, 0, 0⟩ = .error .reservedOpcode ∧ decode ⟨0x00000027#32, 0, 0⟩ = .error .reservedOpcode ∧
    decode ⟨0x00000018#32, 0, 0⟩ = .error .reservedOpcode := by decide
theorem test_decode_must_be_zero :
    decode ⟨0x01000003#32, 0, 0⟩ = .error .mustBeZero ∧ decode ⟨0x00000104#32, 0, 0⟩ = .error .mustBeZero ∧
    decode ⟨0x80000007#32, 0, 0⟩ = .error .mustBeZero ∧ decode ⟨0x00000008#32, 0x1FF#32, 0⟩ = .error .mustBeZero := by decide
theorem test_decode_table_word :
    decodeTableWord 32 0x00000601 = some (.pull 6 0) ∧ decodeTableWord 96 0x000000230000000000000017 =
      some (.eccVerifyWrite 0 35) := by decide
theorem test_fetch_runs_the_word :
    ends (step (State.reset.withFetchWord 64 0x000000FE00000008)) (fun t => t.port.resp = .wrote 0x00000100#32) = true := by
  decide

/-! ## The Data Transfer Engine (95_test_vectors.md section 2) -/

/-- V-DTE-1. -/
theorem test_pull_bytes : ends (exec (.pull 6 0) (start Config.ref [2, 0x44332211, 2, 0xDDCCBBAA])) (fun t =>
    t.bufmem = [(0, 0x11), (1, 0x22), (2, 0x33), (3, 0x44), (4, 0xAA), (5, 0xBB)] && t.dte.cnt = 6 &&
    t.dte.retry = 1000 && t.port.resp.val = 0x00000600#32 && t.nfc.interruptStatus = 0) = true := by decide
/-- V-DTE-5: the counter is not reloaded. -/
theorem test_pull_no_reload : ends (exec (.pull 8 0) (start Config.tiny [0, 2, 0x11111111, 0, 0, 0])) (fun t =>
    t.port.resp.val = 0x00000401#32 && t.dte.retry = 0 && t.err = 1 && t.elapsedUs = 3 && t.env.reads = []) = true := by
  decide
/-- V-DTE-6. -/
theorem test_push_words : ends (exec (.push 5 0) (startMem Config.ref [4, 4] 0 [0x10, 0x20, 0x30, 0x40, 0x50])) (fun t =>
    dataWrites t.trace = [0x40302010#32, 0x00000050#32] && t.dte.dir = .tx && t.dte.retry = 528 &&
    t.port.resp.val = 0x00000500#32) = true := by decide
/-- V-DTE-9: `done` with `tx_ready` clear. -/
theorem test_push_short : ends (exec (.push 8 0) (startMem Config.ref [4, 1] 0 [1, 2, 3, 4])) (fun t =>
    t.port.resp.val = 0x00000403#32 && t.nfc.interruptStatus = 1 && dataWrites t.trace = [0x04030201#32]) = true := by decide

/-! ## The Readiness State Machine (95_test_vectors.md section 3) -/

/-- V-RSM-2: the path of `fsm`, the counters and the ghost. -/
theorem test_wait_ready_path : ends (exec (.waitReady 3) (start Config.ref [0, 1, 0, 2, 2, 0xC0])) (fun t =>
    t.fsmPath.reverse = [.transPending, .transDone, .deviceBusy, .deviceReady, .statusRead, .ok] &&
    t.rsm.retry = 2999 && t.rsm.budget = 3000 && t.port.resp.val = 0x0000C000#32 && t.elapsedUs = 3002) = true := by decide
/-- V-RSM-12: a fail bit in a byte that is not ready does not end the loop. -/
theorem test_wait_ready_chip : ends (exec (.waitReady 0) (start { Config.ref with hasRb := false } [1, 2, 1, 2, 0x41]))
    (fun t => t.port.resp.val = 0x00004102#32 && t.fsm = .fail && t.rsm.retry = 999 && t.elapsedUs = 1) = true := by decide
/-- V-RSM-5. -/
theorem test_read_status_fail : ends (exec .readStatus (start Config.ref [2, 0xFFFFFF41])) (fun t =>
    history t = [.regWrite .interruptStatus 7, .regWrite .command1 0x70, .regWrite .config 0x00010005,
      .regRead .interruptStatus 2, .regRead .data 0xFFFFFF41] &&
    t.port.resp.val = 0x00004102#32 && t.rsm.aux = 1000 && t.err = 2 && t.fsm = .fail) = true := by decide
/-- V-RSM-6: the recovery succeeds and the result is still a failure. -/
theorem test_read_status_recovery :
    ends (exec .readStatus (start Config.tiny [0, 0, 0, 1, 4, 1, 0, 1, 2, 2, 0xC0])) (fun t =>
    t.port.resp.val = 0x00000101#32 && t.fsm = .fail && t.inRecovery = false && t.rsm.aux = 2 && t.rsm.budget = 2 &&
    t.rsm.retry = 2 && t.elapsedUs = 3 && t.nfc.control = 1 && t.env.reads = []) = true := by decide
/-- V-RSM-7. -/
theorem test_chip_reset : ends (exec .chipReset (start Config.ref (readyAnswers 0xC0))) (fun t =>
    (history t).take 3 = [.regWrite .command1 0xFF, .regWrite .config 1, .regRead .interruptStatus 1] &&
    t.port.resp.val = 0x0000C000#32 && t.fsm = .ok) = true := by decide
/-- V-RSM-4 under CHIP_RESET: the device is never ready. -/
theorem test_chip_reset_late : ends (exec .chipReset (start Config.tiny [1, 1, 0, 1])) (fun t =>
    t.port.resp.val = 0x00000101#32 && t.fsmPath.reverse = [.transPending, .transDone, .deviceBusy, .deviceBusy,
      .deviceBusy, .fail]) = true := by decide
/-- V-RSM-8. -/
theorem test_all_reset : ends (exec .allReset (start Config.tiny [0, 0, 4, 0, 5, 2, 2, 0xE0])) (fun t =>
    (history t).take 6 = [.regRead .control 0, .regWrite .control 2, .regWrite .control 0, .regRead .interruptStatus 0,
      .delay 1, .regRead .interruptStatus 4] &&
    t.port.resp.val = 0x0000E000#32 && t.inRecovery = false && t.rsm.aux = 2) = true := by decide
/-- V-RSM-9: the clear never takes effect. -/
theorem test_all_reset_late : ends (exec .allReset (start Config.tiny [1, 0, 3, 0])) (fun t =>
    t.port.resp.val = 0x00000101#32 && t.fsmPath = [.fail] && t.inRecovery = false && t.rsm.aux = 0) = true := by decide
/-- V-RSM-10: one recovery and no second one. -/
theorem test_recovery_once :
    ends (exec .readStatus (start Config.tiny [0, 0, 0, 0, 4, 0, 1, 2, 0, 0, 0])) (fun t =>
    regReadCountOf .control t.trace = 1 && t.port.resp.val = 0x00000101#32 && t.inRecovery = false && t.elapsedUs = 4 &&
    t.env.reads = []) = true := by decide

/-! ## The ECC verification comparator (95_test_vectors.md section 4) -/

/-- V-ECV-3: the third byte differs and the fourth is not read. -/
theorem test_ecc_read_mismatch :
    ends (exec (.eccVerifyRead 0 7) (startMem Config.ref [0x0A0B0C0D] 518 [0x0D, 0x0C, 0x0F])) (fun t =>
    history t = [.regRead .ecc 0x0A0B0C0D, .bufRead 518 0x0D, .bufRead 519 0x0C, .bufRead 520 0x0F] &&
    t.port.resp.val = 0x00000004#32 && t.ecv.latch = .wrote 0x0A0B0C0D#32 && t.err = 4) = true := by decide
/-- V-ECV-5: a register of all ones agrees by equality. -/
theorem test_ecc_read_ones :
    ends (exec (.eccVerifyRead 528 0) (startMem Config.ref [0xFFFFFFFF] 1046 [0xFF, 0xFF, 0xFF, 0xFF])) (fun t =>
    t.port.resp.val = 0x00000000#32 && t.trace.length = 5) = true := by decide
/-- V-ECV-8 at a small page: the read-back succeeds, the comparison fails at byte 0. -/
theorem test_ecc_write_mismatch : ends (exec (.eccVerifyWrite 0 3) { start small [0x04030202] with env :=
    ⟨[0x04030202], [⟨true, [0, 0, 0, 0, 0, 0, 1, 2, 3, 4, 0, 0], calm⟩], [], 0⟩ }) (fun t =>
    history t = [.reread 3 true, .regRead .ecc 0x04030202, .bufRead 18 1] && t.ecv.attempt = 1 &&
    t.port.resp.val = 0x00000004#32) = true := by decide
/-- V-ECV-6 with the wrap of V-ECV-9: the first read-back fails, the second succeeds, the register is zero. -/
theorem test_ecc_write_second : ends (exec (.eccVerifyWrite 0 0x0B) { start small [0] with env :=
    ⟨[0], [⟨false, [], calm⟩, ⟨true, [], calm⟩], [], 0⟩ }) (fun t =>
    history t = [.reread 3 false, .reread 3 true, .regRead .ecc 0] && t.ecv.attempt = 2 &&
    t.port.resp.val = 0x00000000#32) = true := by decide

/-! ## The bad-block marker detector (95_test_vectors.md section 5) -/

/-- V-BBD-3. -/
theorem test_bb_detect_bad : ends (exec (.bbDetect 0xFE) (start Config.ref [])) (fun t =>
    t.port.resp.val = 0x00000100#32 && t.bbd.tag = .wrote 0xFE#8 && t.bbd.bad = .wrote true && t.err = 0) = true := by decide
/-- V-BBD-1. -/
theorem test_bb_detect_good : ends (exec (.bbDetect 0xFF) (start Config.ref [])) (fun t =>
    t.port.resp.val = 0x00000000#32 && t.bbd.bad = .wrote false && t.trace = []) = true := by decide
/-- V-BBD-5 and the wrap of V-BBD-6. -/
theorem test_bb_probe_bad : ends (exec (.bbProbe 0x01005FFF) { start Config.ref [] with env :=
    ⟨[], [], [⟨.byte 0, [], calm⟩], 0⟩ }) (fun t =>
    t.trace = [.readOob 32 5 1 (.byte 0)] && t.port.resp.val = 0x00000100#32 && t.bbd.tag = .wrote 0#8) = true := by decide
/-- V-BBD-7. -/
theorem test_bb_probe_failed : ends (exec (.bbProbe 0) { start Config.ref [] with env :=
    ⟨[], [], [⟨.failed .transferShort, [], calm⟩], 0⟩ }) (fun t =>
    t.port.resp.val = 0x00000103#32 && t.bbd.bad = .wrote true && t.bbd.tag.held = false && t.err = 3) = true := by decide

/-! ## The port (R75, R86; V-BBD-8) -/

theorem test_step_refuses : ends (step (hosted Config.ref 0x1FF 0 [.writeOpreq 0x00000008 0])) (fun t =>
    t.port.resp = .wrote 0x0000000F#32 && t.bbd.tag.held = false && t.busy = false && t.err = 0) = true := by decide
theorem test_step_concurrent_issue :
    faults (step (hosted Config.ref 0xFF 0 [.writeOpreq 0x00000008 1, .writeOpreq 0x00000008 0])) .concurrentIssue = true := by
  decide
theorem test_step_reset_resp : faults (step { refReset with hostq := [.readResp] }) (.uninitialisedRead .resp) = true := by
  decide

/-! ## Witnesses: for every statement with hypotheses a state and operands that meet all of them -/

/-- An idle block that is asked for what `w` names, with both operand words written. -/
def asked (w : Word) (n : Nat) (more : List HostAct) : State := hosted Config.ref 0x20 0 (.writeOpreq w n :: more)

theorem test_witness_EncodeOfDecode : ∃ r i, decode r = .ok i := ⟨⟨0x00000601#32, 0, 0⟩, .pull 6 0, by decide⟩
theorem test_witness_WellFormedAccepted : (Instr.pull 1056 0).wellFormed Config.ref = true ∧
    (Instr.bbProbe 0).enabled { Config.ref with badblockCheck := false } = false ∧
    (Instr.pull 1057 0).enabled Config.ref = true ∧ (Instr.pull 1057 0).inRange Config.ref = false := by decide
theorem test_witness_OperandRanges : smallNoWrap.wf = true ∧ smallNoWrap.badblockCheck = true ∧
    decodeRequest smallNoWrap (encode (.pull 0 24)) = .ok (.pull 0 24) ∧
    decodeRequest smallNoWrap (encode (.push 24 0)) = .ok (.push 24 0) ∧
    decodeRequest smallNoWrap (encode (.eccVerifyRead 12 0)) = .ok (.eccVerifyRead 12 0) ∧
    decodeRequest smallNoWrap (encode (.eccVerifyWrite 0 7)) = .ok (.eccVerifyWrite 0 7) ∧
    decodeRequest smallNoWrap (encode (.bbProbe 31)) = .ok (.bbProbe 31) := by decide
theorem test_witness_StepRunsDecodedInstr :
    let s := asked 0x00000601 0 []
    s.busy = false ∧ decode ⟨0x00000601, s.port.opa.val, s.port.opb.val⟩ = .ok (.pull 6 0x20) ∧
    (Instr.pull 6 0x20).wellFormed s.cfg = true ∧ s.port.opa.held = true ∧ s.port.opb.held = true := by decide
theorem test_witness_OperandsSampledOnce :
    let s := asked 0x00000601 2 [.writeOpa 1, .writeOpb 2]
    s.busy = false ∧ s.hostq = [.writeOpreq 0x00000601 2, .writeOpa 1, .writeOpb 2] ∧
    decode ⟨0x00000601, s.port.opa.val, s.port.opb.val⟩ = .ok (.pull 6 0x20) ∧
    (Instr.pull 6 0x20).wellFormed s.cfg = true ∧ s.port.opa.held = true ∧ s.port.opb.held = true := by decide
theorem test_witness_RefusedRequest :
    let s := asked 0x00042101 0 []
    s.busy = false ∧ decode ⟨0x00042101, 0, 0⟩ = .ok (.pull 1057 0) ∧ s.port.opa.held = true ∧ s.port.opb.held = true ∧
    decodeRequest s.cfg ⟨0x00042101, s.port.opa.val, s.port.opb.val⟩ = .error .outOfRange := by decide
/-- Every clause of the reserved encodings, at a boundary of its range; the last two with BB_PROBE switched off and with
an operand word of 0x100. -/
theorem test_witness_ReservedRefused :
    (asked 0 0 []).busy = false ∧ (0x00000000#32).toNat % 16 = 0 ∧ 10 ≤ (0x0000000A#32).toNat % 16 ∧
    ((0x00000027#32).toNat % 16 = 7 ∧ 2 ≤ (0x00000027#32).toNat / 16 % 16) ∧
    ((0x00000011#32).toNat % 16 ≠ 7 ∧ (0x00000011#32).toNat / 16 % 16 ≠ 0) ∧
    (4 ≤ (0x00000104#32).toNat % 16 ∧ (0x00000104#32).toNat / 256 ≠ 0) ∧
    ((0x01000003#32).toNat % 16 = 3 ∧ (0x01000003#32).toNat / 2 ^ 24 ≠ 0) ∧
    ((0x00000009#32).toNat % 16 = 9 ∧ ({ Config.ref with badblockCheck := false } : Config).badblockCheck = false) ∧
    ((0x00000008#32).toNat % 16 = 8 ∧ (hosted Config.ref 0x100 0 []).port.opa.held = true ∧
      (hosted Config.ref 0x100 0 []).port.opa.val.toNat / 256 ≠ 0) := by decide
theorem test_witness_UnwrittenOperandFaults :
    refReset.busy = false ∧ decode ⟨0x00000001, 0, 0⟩ = .ok (.pull 0 0) ∧ (Instr.pull 0 0).enabled Config.ref = true ∧
    (Instr.pull 0 0).usesOpa = true ∧ refReset.port.opa.held = false ∧
    decode ⟨0x00000017, 0, 0⟩ = .ok (.eccVerifyWrite 0 0) ∧ (Instr.eccVerifyWrite 0 0).usesOpa = false ∧
    (Instr.eccVerifyWrite 0 0).usesOpb = true ∧ refReset.port.opb.held = false := by decide
/-- Each kind of access, the writes of BUFMEM at the first and the last byte of the region. -/
theorem test_witness_ConcurrentFaults :
    let s := asked 0x00000601 1 [.memWrite 0x20 0]
    s.busy = false ∧ decode ⟨0x00000601, s.port.opa.val, s.port.opb.val⟩ = .ok (.pull 6 0x20) ∧
    (Instr.pull 6 0x20).wellFormed s.cfg = true ∧ s.port.opa.held = true ∧ s.port.opb.held = true ∧
    regionInUse s.cfg (.pull 6 0x20) = (0x20, 6) ∧ faults (step s) .concurrentAccess = true ∧
    faults (step (asked 0x00000601 1 [.memWrite 0x25 0])) .concurrentAccess = true ∧
    faults (step (asked 0x00000601 1 [.regRead 0 4])) .concurrentAccess = true ∧
    faults (step (asked 0x00000601 1 [.regWrite 1 2 0])) .concurrentAccess = true := by decide
theorem test_witness_HostAccessWhileIdle :
    let s := { startMem Config.ref [7] 0 [5] with hostq := [.regRead 0x18 4] }
    s.busy = false ∧ s.cfg.wf = true ∧ s.cfg.regOffset.get .status = 0x18 ∧ s.env.reads = [7] ∧
    Memory.lookup s.bufmem 0 = some 5 ∧ 0 < s.cfg.bufmemSize ∧ 1055 < s.cfg.bufmemSize := by decide
theorem test_witness_HostReads : (asked 0 0 []).port.resp.held = false ∧ ({ refReset with port :=
    { refReset.port with resp := .wrote 0 } } : State).port.resp.held = true ∧ 1055 < refReset.cfg.bufmemSize ∧
    Memory.lookup refReset.bufmem 1055 = none := by decide
theorem test_witness_WriteOneToClear :
    let s := { refReset with hostq := [.regWrite 0x1C 4 2], nfc := { refReset.nfc with interruptStatus := 3 } }
    s.busy = false ∧ s.cfg.wf = true ∧ s.hostq = [.regWrite s.cfg.regOffset.interruptStatus 4 2] ∧
    ends (step s) (fun t => t.nfc.interruptStatus = 1) = true ∧
    ends (exec (.pull 4 0) (start Config.ref [3, 0x44332211])) (fun t => t.err = 0 && t.nfc.interruptStatus = 1) = true ∧
    ends (exec (.push 1 0) (startMem Config.ref [7] 0 [1])) (fun t => t.err = 0 && t.nfc.interruptStatus = 3) = true := by
  decide
theorem test_witness_StepKeepsInvariant : ∃ s t : State, s.Inv ∧ step s = .next t := by
  refine ⟨hosted Config.ref 0xFE 0 [.writeOpreq 8 0], _, ?_, rfl⟩
  refine ⟨by decide, by simp [hosted, State.resetWith], by decide, by decide, by decide, by decide, ?_⟩
  intro h
  exact absurd h (by decide)
/-- An operation of each unit with a next state, as the statements about every operation suppose one. -/
theorem test_witness_every_operation :
    (∃ t, exec (.bbDetect 0) refReset = .next t) ∧ (∃ t, exec (.pull 0 0) refReset = .next t) ∧
    (∃ t, exec .readStatus (start Config.ref [2, 0]) = .next t) ∧
    (∃ t, exec (.eccVerifyRead 0 0) (start Config.ref [0]) = .next t) := ⟨⟨_, rfl⟩, ⟨_, rfl⟩, ⟨_, rfl⟩, ⟨_, rfl⟩⟩
theorem test_witness_EveryOperationEnds : Config.ref.wf = true ∧ (Instr.push 4 0).wellFormed Config.ref = true ∧
    (∀ j < 4, Memory.lookup (startMem Config.ref [] 0 [1, 2, 3, 4]).bufmem (0 + j) ≠ none) ∧
    (Instr.eccVerifyRead 0 0).wellFormed Config.ref = true ∧
    (∀ j < 4, Memory.lookup (startMem Config.ref [] 518 [1, 2, 3, 4]).bufmem (518 + j) ≠ none) := by decide
theorem test_witness_unit_of_each : (Instr.waitReady 0).opUnit = .rsm ∧ Instr.readStatus.opUnit = .rsm ∧
    Instr.chipReset.opUnit = .rsm ∧ Instr.allReset.opUnit = .rsm ∧ (Instr.pull 0 0).opUnit = .dte ∧
    (Instr.bbDetect 0).opUnit ≠ .rsm := by decide
/-- A transfer of either direction whose region is accepted and whose bytes hold values, with a first sample of each
kind: ready, done alone, idle. -/
theorem test_witness_dte :
    let s := startMem Config.ref [0] 0 [1, 2, 3, 4, 5]
    s.cfg.wf = true ∧ (Instr.pull 5 0).inRange s.cfg = true ∧ (Instr.push 5 0).inRange s.cfg = true ∧
    (∀ j < 5, Memory.lookup s.bufmem (0 + j) ≠ none) ∧ 0 < (5 : Len).toNat ∧
    (2#32) &&& s.cfg.intRxReady ≠ 0 ∧ (4#32) &&& s.cfg.intTxReady ≠ 0 ∧
    ((1#32) &&& s.cfg.intRxReady = 0 ∧ (1#32) &&& s.cfg.intTxReady = 0 ∧ (1#32) &&& s.cfg.intDone ≠ 0) ∧
    ((0#32) &&& s.cfg.intRxReady = 0 ∧ (0#32) &&& s.cfg.intTxReady = 0 ∧ (0#32) &&& s.cfg.intDone = 0) := by decide
theorem test_witness_DteZeroLength : (1056#32).toNat ≤ refReset.cfg.bufmemSize := by decide
theorem test_witness_DteEarlyEnd : ends (exec (.pull 8 0) (start Config.ref [1])) (fun t => t.err ≠ 0) = true ∧
    ends (exec (.push 8 0) (start Config.tiny [0, 0, 0])) (fun t => t.err ≠ 0) = true := by decide
/-- The first byte, and the sixth one, of the second word: one idle sample and one word before it. -/
theorem test_witness_PushUnheldByteFaults : Config.ref.wf = true ∧ (Instr.push 8 0).inRange Config.ref = true ∧
    (4#32) &&& Config.ref.intTxReady ≠ 0 ∧ (0#32) &&& Config.ref.intTxReady = 0 ∧ (0#32) &&& Config.ref.intDone = 0 ∧
    ([0, 4] : List Word).countP (fun x => decide (x &&& Config.ref.intTxReady ≠ 0)) = 5 / 4 ∧
    ([0, 4] : List Word).countP (fun x => decide (x &&& Config.ref.intTxReady = 0)) ≤ Config.ref.pushRetries ∧
    (∀ k < 5, Memory.lookup (startMem Config.ref [] 0 [1, 2, 3, 4, 5]).bufmem (0 + k) ≠ none) ∧
    Memory.lookup (startMem Config.ref [] 0 [1, 2, 3, 4, 5]).bufmem 5 = none ∧
    faults (exec (.push 8 0) (startMem Config.ref [0, 4, 4] 0 [1, 2, 3, 4, 5])) (.uninitialisedRead (.bufByte 5)) = true ∧
    faults (exec (.push 8 0) (start Config.ref [4])) (.uninitialisedRead (.bufByte 0)) = true := by decide

/-- A status read with one idle sample. -/
def round (sb : Word) : StatusRound := ⟨[0], 2, sb⟩

theorem test_witness_ReadStatusByte : Config.tiny.wf = true ∧ (round 0xC0).idle.all (fun x => !istRxReady Config.tiny x) = true ∧
    istRxReady Config.tiny (round 0xC0).ready = true ∧ (round 0xC0).idle.length ≤ Config.tiny.statusRetries ∧
    (start Config.tiny [0, 2, 0xC0]).env.reads = (round 0xC0).answers ++ [] ∧
    wordByte (round 0xC0).data 0 &&& Config.tiny.sbFail = 0 ∧ wordByte (round 0xC1).data 0 &&& Config.tiny.sbFail ≠ 0 := by decide
theorem test_witness_ReadStatusTimeout : Config.tiny.wf = true ∧
    (start Config.tiny [0, 0, 0]).env.reads = [0, 0] ++ (0 : Word) :: [] ∧ ([0, 0] : List Word).length = Config.tiny.statusRetries ∧
    ([0, 0] : List Word).all (fun x => decide (x &&& Config.tiny.intRxReady = 0)) = true ∧ (0#32) &&& Config.tiny.intRxReady = 0 ∧
    (start Config.tiny []).inRecovery = false := by decide
/-- Phase 1 with two idle samples and then done, at the last one its budget allows; phase 2 likewise. -/
theorem test_witness_WaitReadyLine : Config.tiny.wf = true ∧ Config.tiny.hasRb = true ∧
    ([0, 6] : List Word).all (fun x => decide (x &&& Config.tiny.intDone = 0)) = true ∧ (1#32) &&& Config.tiny.intDone ≠ 0 ∧
    ([0, 1] : List Word).all (fun x => decide (x &&& Config.tiny.stDevReady = 0)) = true ∧ (2#32) &&& Config.tiny.stDevReady ≠ 0 ∧
    ([0, 6] : List Word).length ≤ max 1 (0 : Millis).toNat * Config.tiny.retriesPerMs ∧ Config.tiny.rbBudgetShared = false ∧
    ends (exec (.waitReady 0) (start Config.tiny [0, 6, 1, 0, 1, 2, 0, 2, 0xC0])) (fun t =>
      t.fsm = .ok && t.env.reads = []) = true := by decide
/-- Two status reads: one not ready, then one ready, and one not ready that exhausts the counter. -/
theorem test_witness_WaitReadyChip : tinyNoRb.wf = true ∧ tinyNoRb.hasRb = false ∧
    wordByte (round 0x80).data 0 &&& tinyNoRb.sbReady = 0 ∧ wordByte (round 0xC0).data 0 &&& tinyNoRb.sbReady ≠ 0 ∧
    wordByte (round 0x41).data 0 &&& tinyNoRb.sbFail ≠ 0 ∧
    ends (exec (.waitReady 0) (start tinyNoRb [1, 0, 2, 0x80, 0, 2, 0xC0])) (fun t =>
      t.fsm = .ok && t.env.reads = []) = true ∧
    ends (exec (.waitReady 0) (start tinyNoRb [1, 2, 0, 2, 0, 2, 0])) (fun t =>
      t.fsm = .fail && t.rsm.statusByte = .wrote 1#8 && t.env.reads = []) = true := by decide
/-- The status byte does not arrive: after the line shows ready, and after a byte that is not ready; the recovery ends at
its first wait. -/
theorem test_witness_WaitReadyStatusTimeout : Config.tiny.wf = true ∧ Config.tiny.hasRb = true ∧ tinyNoRb.wf = true ∧
    tinyNoRb.hasRb = false ∧ (1#32) &&& Config.tiny.intDone ≠ 0 ∧ (0#32) &&& Config.tiny.stDevReady = 0 ∧
    (2#32) &&& Config.tiny.stDevReady ≠ 0 ∧ wordByte (round 0x80).data 0 &&& tinyNoRb.sbReady = 0 ∧
    ([0, 0] : List Word).length = Config.tiny.statusRetries ∧ (0#32) &&& Config.tiny.intRxReady = 0 ∧
    ends (exec (.waitReady 0) (start Config.tiny [1, 0, 2, 0, 0, 0, 0, 0, 0, 0])) (fun t =>
      t.rsm.statusByte = .wrote 1#8 && regReadCountOf .control t.trace = 1 && t.env.reads = []) = true ∧
    ends (exec (.waitReady 0) (start tinyNoRb [1, 0, 2, 0x80, 0, 0, 0, 0, 0, 0, 0])) (fun t =>
      t.port.resp.val = 0x00000101#32 && regReadCountOf .control t.trace = 1 && t.env.reads = []) = true := by decide
theorem test_witness_WaitReadyNeverDone :
    ([6, 6] : List Word).length = max 1 (0 : Millis).toNat * Config.tiny.retriesPerMs ∧
    ([6, 6] : List Word).all (fun x => decide (x &&& Config.tiny.intDone = 0)) = true ∧ (6#32) &&& Config.tiny.intDone = 0 := by decide
theorem test_witness_WaitReadyNeverReady : Config.tiny.wf = true ∧ Config.tiny.hasRb = true ∧
    (1#32) &&& Config.tiny.intDone ≠ 0 ∧ ([1, 0] : List Word).all (fun x => decide (x &&& Config.tiny.stDevReady = 0)) = true ∧
    (1#32) &&& Config.tiny.stDevReady = 0 ∧
    ([1, 0] : List Word).length = max 1 (0 : Millis).toNat * Config.tiny.retriesPerMs := by decide
/-- Both waits at the last sample their budget allows. -/
theorem test_witness_AllResetReachesChipReset : Config.tiny.wf = true ∧
    ([0, 3] : List Word).all (fun v => decide (v &&& Config.tiny.bufClearDone.mask ≠ Config.tiny.bufClearDone.expect)) = true ∧
    (4#32) &&& Config.tiny.bufClearDone.mask = Config.tiny.bufClearDone.expect ∧
    ([1, 3] : List Word).all (fun v => decide (v &&& Config.tiny.stCtrlBusy ≠ 0)) = true ∧ (2#32) &&& Config.tiny.stCtrlBusy = 0 ∧
    ([0, 3] : List Word).length ≤ Config.tiny.resetRetries ∧ ([1, 3] : List Word).length ≤ Config.tiny.resetRetries := by decide
theorem test_witness_AllResetWaitsFail : Config.tiny.wf = true ∧
    ([0, 3] : List Word).all (fun v => decide (v &&& Config.tiny.bufClearDone.mask ≠ Config.tiny.bufClearDone.expect)) = true ∧
    (0#32) &&& Config.tiny.bufClearDone.mask ≠ Config.tiny.bufClearDone.expect ∧
    ([0, 3] : List Word).length = Config.tiny.resetRetries ∧
    (4#32) &&& Config.tiny.bufClearDone.mask = Config.tiny.bufClearDone.expect ∧
    ([1, 3] : List Word).all (fun v => decide (v &&& Config.tiny.stCtrlBusy ≠ 0)) = true ∧ (1#32) &&& Config.tiny.stCtrlBusy ≠ 0 := by decide
theorem test_witness_RecoveryOnce : Instr.readStatus.opUnit = .rsm ∧ Config.tiny.bufClearDone.reg ≠ .control := by decide
theorem test_witness_EccReadCompares :
    let s := startMem Config.ref [0x0A0B0C0D] 518 [0x0D, 0x0C, 0x0B, 0x0A]
    s.cfg.wf = true ∧ (Instr.eccVerifyRead 0 7).inRange s.cfg = true ∧
    (∀ j < 4, Memory.lookup s.bufmem ((0#32).toNat + s.cfg.pageSize + s.cfg.eccOobOffset + j) =
      some (wordByte 0x0A0B0C0D j)) := by decide
theorem test_witness_EccReadZeroRegister : (start Config.ref [0]).env.reads = 0 :: [] := by decide
/-- The last stored byte is the one that holds no value. -/
theorem test_witness_EccReadUnheldByteFaults :
    let s := startMem Config.ref [0x0A0B0C0D] 518 [0x0D, 0x0C, 0x0B]
    s.cfg.wf = true ∧ (Instr.eccVerifyRead 0 7).inRange s.cfg = true ∧
    (∀ k < 3, Memory.lookup s.bufmem (eccAddr s.cfg (0#32).toNat k) = some (wordByte 0x0A0B0C0D k)) ∧
    Memory.lookup s.bufmem (eccAddr s.cfg (0#32).toNat 3) = none := by decide
/-- One failed read-back and then a whole image, and two failed ones. -/
theorem test_witness_EccWrite : small.wf = true ∧
    (⟨true, [0, 0, 0, 0, 0, 0, 1, 2, 3, 4, 0, 0], calm⟩ : RereadAnswer).image.length = small.pageSize + small.oobSize ∧
    ends (exec (.eccVerifyWrite 0 3) { start small [] with env :=
      ⟨[0x04030201], [⟨false, [], calm⟩, ⟨true, [0, 0, 0, 0, 0, 0, 1, 2, 3, 4, 0, 0], calm⟩], [], 0⟩ })
      (fun t => t.err = 0 && t.ecv.attempt = 2) = true ∧
    ends (exec (.eccVerifyWrite 0 3) { start small [] with env := ⟨[], [⟨false, [], calm⟩, ⟨false, [], calm⟩], [], 0⟩ })
      (fun t => t.err = 4 && t.ecv.latch.held = false) = true := by decide
theorem test_witness_PageReduced : small.wf = true ∧ small.pageWrap = true ∧ smallNoWrap.wf = true ∧
    smallNoWrap.pageWrap = false ∧ smallNoWrap.chipSize / smallNoWrap.pageSize ≤ (8#32).toNat := by decide
theorem test_witness_BbProbeVerdict : Config.ref.wf = true ∧
    ends (exec (.bbProbe 0x5000) { start Config.ref [] with env := ⟨[], [], [⟨.byte 0xFF, [none, some 0xFF], calm⟩], 0⟩ })
      (fun t => t.bbd.bad = .wrote false && t.bufmem = [(529, 0xFF#8)]) = true ∧
    ends (exec (.bbProbe 0x5000) { start Config.ref [] with env := ⟨[], [], [⟨.failed .deviceFail, [], calm⟩], 0⟩ })
      (fun t => t.port.resp.val = 0x00000102#32) = true := by decide

end Sys2Proof.Tests.Slice0
end

section
/-! PROOFS. State, reset and the invariant (R20 to R45): every step keeps the invariant. -/

namespace Sys2Proof.Machine

/-! ## What a step keeps -/

theorem step_nil {s : State} (hq : s.hostq = []) : step s = .next s := by
  unfold step
  rw [hq]

/-- A write of OPREQ to an idle block keeps the invariant, whether the request is refused or runs an operation. -/
theorem step_writeOpreq_inv {s t : State} {w : Word} {n : Nat} {rest : List HostAct} (h : s.Inv)
    (hq : s.hostq = .writeOpreq w n :: rest) (ht : step s = .next t) : t.Inv ∧ t.cfg = s.cfg := by
  obtain ⟨hs, hb⟩ := (inv_iff s).mp h
  have hw : Settled (writeOpreq w (takeAct rest s)) := hs.ofSame rfl rfl rfl rfl rfl rfl
  obtain ⟨hended, hrunning⟩ := issue_settled (n := n) hw hb
  rw [step_writeOpreq hb hq] at ht
  cases hi : issue n (writeOpreq w (takeAct rest s)) with
  | ended o =>
    have ho : o = .next t := by rw [hi] at ht; exact ht
    exact hended t (by rw [hi, ho])
  | running i u =>
    have hx : exec i u = .next t := by rw [hi] at ht; exact ht
    obtain ⟨hu, hcfg⟩ := hrunning i u hi
    obtain ⟨hinv, hcfg'⟩ := exec_inv hu hx
    exact ⟨hinv, hcfg'.trans hcfg⟩

/-- An access of the HOST that starts no operation keeps the invariant. -/
theorem step_access_inv {s t : State} {a : HostAct} {rest : List HostAct} (h : s.Inv) (hq : s.hostq = a :: rest)
    (ha : ∀ w n, a ≠ .writeOpreq w n) (ht : step s = .next t) : t.Inv ∧ t.cfg = s.cfg := by
  obtain ⟨hs, hb⟩ := (inv_iff s).mp h
  rw [step_access hq ha] at ht
  obtain ⟨hcfg, hbusy, -, -, -, -, hkept⟩ := hostAccess_kept ht
  exact ⟨(inv_iff t).mpr ⟨hkept (hs.ofSame rfl rfl rfl rfl rfl rfl), hbusy.trans hb⟩, hcfg⟩

/-- Settles O20, by the HOST's next action: none, the write of OPREQ, or an access that starts no operation. -/
theorem stepKeepsInvariant : Obligations.StepKeepsInvariant := by
  unfold Obligations.StepKeepsInvariant
  intro s t h ht
  match hq : s.hostq with
  | [] =>
    obtain rfl : s = t := by simpa [step_nil hq] using ht
    exact ⟨h, rfl⟩
  | a :: rest =>
    by_cases ha : ∃ w n, a = .writeOpreq w n
    · obtain ⟨w, n, rfl⟩ := ha
      exact step_writeOpreq_inv h hq ht
    · exact step_access_inv h hq (fun w n e => ha ⟨w, n, e⟩) ht

/-- Settles O19: after RESET BUFMEM is empty and RESP has not been written. -/
theorem resetMeetsInvariant : Obligations.ResetMeetsInvariant := by
  unfold Obligations.ResetMeetsInvariant
  intro c
  refine ⟨rfl, fun x hx => ?_, rfl, rfl, Nat.zero_le _, Nat.zero_le _, fun hresp => ?_⟩
  · exact absurd hx List.not_mem_nil
  · exact absurd hresp Bool.false_ne_true

/-- Settles O18, by the definition of the reset state: no cell of BUFMEM is listed and no flag of a register is set. -/
theorem resetValues : Obligations.ResetValues := by
  unfold Obligations.ResetValues
  intro c
  simp [State.resetWith, Reg.unwritten, Memory.lookup, Fsm.bits, Dir.bit]

end Sys2Proof.Machine
end

section
/-! PROOFS. The request port (R21, R44, R64): operands sampled once, operand words and elements without a value, and
write-1-to-clear (R36, R55). -/

namespace Sys2Proof.Machine

/-! ## The issue of a request -/

/-- Writes of OPA and OPB that land while an operation runs are made before its first step. -/
theorem launch_writesOperands {s : State} {i : Instr} {a b : Word} {rest : List HostAct}
    (hq : s.hostq = .writeOpa a :: .writeOpb b :: rest) :
    launch i 2 s = .running i { accept { s with hostq := rest } with
      port := { (accept s).port with opa := .wrote a, opb := .wrote b } } := by
  unfold launch
  rw [hq]
  rfl

/-- A request whose operation reads an operand word without a value ends in the fault (R44). -/
theorem issue_operandFault {s : State} {i : Instr} {n : Nat} {f : Fault} (h : decode ⟨s.port.opreq.val, 0, 0⟩ = .ok i)
    (he : i.enabled s.cfg = true) (hf : operandsHeld i s = .error f) : issue n s = .ended (.fault f) := by
  simp only [issue, h, he, hf, if_true]

theorem operandsHeld_opa {i : Instr} {s : State} (hu : i.usesOpa = true) (hh : s.port.opa.held = false) :
    operandsHeld i s = .error (.uninitialisedRead .opa) := by
  simp [operandsHeld, hu, hh]

theorem operandsHeld_opb {i : Instr} {s : State} (ha : i.usesOpa = false) (hu : i.usesOpb = true)
    (hh : s.port.opb.held = false) : operandsHeld i s = .error (.uninitialisedRead .opb) := by
  simp [operandsHeld, ha, hu, hh]

/-- Settles O10: the request is launched with the old operand words, and the writes that land come after the latching. -/
theorem operandsSampledOnce : Obligations.OperandsSampledOnce := by
  unfold Obligations.OperandsSampledOnce
  intro s w a b rest i hb hq hd hw ha hbHeld
  have hissue := issue_wellFormed (s := writeOpreq w (takeAct (.writeOpa a :: .writeOpb b :: rest) s)) (n := 2) hd hw ha
    hbHeld
  rw [step_writeOpreq hb hq, hissue, launch_writesOperands (rest := rest) rfl]
  rfl

/-- Settles O13: the operand words are checked as soon as OPREQ names an operation the configuration has. -/
theorem unwrittenOperandFaults : Obligations.UnwrittenOperandFaults := by
  unfold Obligations.UnwrittenOperandFaults
  intro s w n rest i hb hq hd he
  have hfault : ∀ f, operandsHeld i (writeOpreq w (takeAct rest s)) = .error f → step s = .fault f := by
    intro f hf
    rw [step_writeOpreq hb hq, issue_operandFault (s := writeOpreq w (takeAct rest s)) hd he hf]
    rfl
  exact ⟨fun hu hh => hfault _ (operandsHeld_opa hu hh), fun ha hu hh => hfault _ (operandsHeld_opb ha hu hh)⟩

/-! ## Reads of the HOST -/

theorem bufByte_unheld {a : Nat} {s : State} (ha : a < s.cfg.bufmemSize) (hn : Memory.lookup s.bufmem a = none) :
    bufByte a s = .error (.uninitialisedRead (.bufByte a)) := by
  simp [bufByte, ha, hn]

/-- Settles O16: each read is a step of its own, and what it finds is the flag of RESP or the byte of BUFMEM. -/
theorem hostReads : Obligations.HostReads := by
  unfold Obligations.HostReads
  intro s rest
  refine ⟨fun hq hh => ?_, fun hq hh => ?_, fun a hq ha hn => ?_⟩
  · rw [step_access hq (by simp), hostAccess, if_pos (by simpa using hh)]
    rfl
  · rw [step_access hq (by simp), hostAccess, if_neg (by simpa using hh)]
  · rw [step_access hq (by simp), hostAccess, bufByte_unheld (s := takeAct rest s) ha hn]

/-! ## Write-1-to-clear -/

/-- A HOST write of a register at its offset, while the block is idle (R52, R68). -/
theorem step_hostRegWrite {s : State} {r : NfcReg} {v : Word} {rest : List HostAct} (hb : s.busy = false)
    (hwf : s.cfg.wf = true) (hq : s.hostq = .regWrite (s.cfg.regOffset.get r) 4 v :: rest) :
    step s = .next (hostRegWrite r v (takeAct rest s)) := by
  rw [step_access hq (by simp)]
  simp [hostAccess, hostRegAccess, hb, Config.wf_regAt hwf]

/-- A word of a transfer ends with the clear of its ready bit, its only access to INTERRUPT_STATUS (R55, R96, R98). -/
def ClearsReady (mask : Config → Word) (move : State → Except Fault State) : Prop :=
  ∀ {u t : State}, move u = .ok t →
    ∃ es, t.trace = .regWrite .interruptStatus (mask u.cfg) :: (es ++ u.trace) ∧
      (∀ e ∈ es, isRegReadOf .interruptStatus e = false ∧ ∀ m, e ≠ .regWrite .interruptStatus m) ∧
      clearedBy (mask u.cfg) u.nfc.interruptStatus t.nfc.interruptStatus ∧ t.cfg = u.cfg

theorem Code.eq_ok_of_bits {c : Code} (h : c.bits = 0) : c = .ok := by
  cases c with
  | ok => rfl
  | _ => exact absurd h (by decide)

theorem finishDte_next {r : Except Fault (Code × State)} {t : State} (h : finishDte r = .next t) :
    ∃ code u, r = .ok (code, u) ∧ t = commit code u.dte.cnt u := by
  match r, h with
  | .ok (code, u), h => exact ⟨code, u, rfl, by simpa [finishDte, eq_comm] using h⟩

theorem dteWords_ne_zero {n : Nat} (h : 0 < n) : dteWords n ≠ 0 := by
  unfold dteWords
  omega

/-- A transfer of at least one word that ends with OK leaves INTERRUPT_STATUS as the last sample saw it, but for the
ready bit. -/
theorem finishDte_lastClear {mask : Config → Word} {move : State → Except Fault State} (hmove : ClearsReady mask move)
    {m : Word} {n : Nat} {s₀ t : State} (hn : n ≠ 0) (h : finishDte (dteLoop m move n s₀) = .next t) (herr : t.err = 0) :
    ∃ v es fs, t.trace = .regWrite .interruptStatus (mask t.cfg) :: (es ++ .regRead .interruptStatus v :: fs) ∧
      (∀ e ∈ es, isRegReadOf .interruptStatus e = false ∧ ∀ m, e ≠ .regWrite .interruptStatus m) ∧
      clearedBy (mask t.cfg) v t.nfc.interruptStatus := by
  obtain ⟨code, u, hloop, rfl⟩ := finishDte_next h
  obtain rfl : code = .ok := Code.eq_ok_of_bits herr
  obtain ⟨x, -, hlast⟩ := dteLoop_lastWord hn hloop
  obtain ⟨es, htr, hes, hclear, hcfg⟩ := hmove hlast
  refine ⟨(regRead .interruptStatus x).1, es, x.trace, ?_, hes, ?_⟩
  · simpa [hcfg] using htr
  · simpa [hcfg, NfcFile.set] using hclear

/-- Settles O17: every write of the register is `w1c` of the mirror, and the last word of a transfer ends with one. -/
theorem writeOneToClear : Obligations.WriteOneToClear := by
  unfold Obligations.WriteOneToClear
  refine ⟨fun s m rest hb hwf hq => ?_, fun s m => clearedBy_regWrite m s, ?_⟩
  · exact ⟨_, step_hostRegWrite (r := .interruptStatus) hb hwf hq, clearedBy_w1c m s.nfc.interruptStatus⟩
  · intro i len buf s t ready hi hlen hx herr
    have hn := dteWords_ne_zero hlen
    have hcfg : t.cfg = s.cfg := (exec_ended hx).cfg
    rcases hi with ⟨rfl, rfl⟩ | ⟨rfl, rfl⟩ <;> rw [← hcfg]
    · exact finishDte_lastClear (mask := Config.intRxReady) pullWord_clears hn hx herr
    · exact finishDte_lastClear (mask := Config.intTxReady) pushWord_clears hn hx herr

end Sys2Proof.Machine
end

section
/-! PROOFS. The ghost `elapsed_us` against the delay events (R29, R69, R257), and the starting value of `fsm` (R23). -/

namespace Sys2Proof.Machine

/-! ## Delays and the ghost -/

/-- From `s` to `t` the history grew, and `elapsed_us` grew by its delays and by `x` more, the delays of collaborators. -/
def Timed (x : Nat) (s t : State) : Prop :=
  ∃ es, t.trace = es ++ s.trace ∧ t.elapsedUs = s.elapsedUs + delaySum es + x

theorem Timed.trans {x y : Nat} {s t u : State} (h : Timed x s t) (k : Timed y t u) : Timed (x + y) s u := by
  obtain ⟨es, htr, hel⟩ := h
  obtain ⟨fs, ktr, kel⟩ := k
  exact ⟨fs ++ es, by simp [ktr, htr], by rw [kel, hel, delaySum_append]; omega⟩

theorem Timed.trans_zero {s t u : State} (h : Timed 0 s t) (k : Timed 0 t u) : Timed 0 s u := h.trans k

theorem Timed.ofSame {s t : State} (htr : t.trace = s.trace) (hel : t.elapsedUs = s.elapsedUs) : Timed 0 s t :=
  ⟨[], htr, hel⟩

/-- Events without a delay take no time. -/
theorem Timed.ofEvents {s t : State} {es : List Event} (htr : t.trace = es ++ s.trace) (hd : delaySum es = 0)
    (hel : t.elapsedUs = s.elapsedUs) : Timed 0 s t :=
  ⟨es, htr, by rw [hel, hd]; rfl⟩

theorem Timed.ofRsmFrame {s t : State} (h : RsmFrame s t) : Timed 0 s t := h.trace

theorem Timed.ofDtePolled {s t : State} {es : List Event} {idle : Nat} (h : DtePolled s t es idle) : Timed 0 s t :=
  ⟨es, h.trace, by rw [h.elapsed, h.delay]; rfl⟩

theorem Timed.ofRegRead (r : NfcReg) (s : State) : Timed 0 s (regRead r s).2 := .ofRsmFrame (.ofRegRead r s)

theorem Timed.ofRegWrite (r : NfcReg) (v : Word) (s : State) : Timed 0 s (regWrite r v s) :=
  .ofRsmFrame (.ofRegWrite r v s)

theorem Timed.ofMemRead {a : Nat} {b : Byte} {s t : State} (h : memRead a s = .ok (b, t)) : Timed 0 s t := by
  obtain ⟨-, -, rfl⟩ := memRead_ok h
  exact .ofEvents (es := [.bufRead a b]) rfl rfl rfl

theorem Timed.ofMemReads {a k : Nat} {bs : List Byte} {s t : State} (h : memReads a k s = .ok (bs, t)) :
    Timed 0 s t := by
  obtain ⟨-, -, rfl⟩ := memReads_ok h
  exact .ofEvents rfl (plain_readEvents a bs).delay rfl

theorem Timed.ofMemWrites {a : Nat} {bs : List Byte} {s t : State} (h : memWrites a bs s = .ok t) : Timed 0 s t := by
  obtain ⟨-, rfl⟩ := memWrites_ok h
  exact .ofEvents rfl (plain_writeEvents a bs).delay rfl

/-! ### The DTE -/

theorem Timed.ofPullWord {buf : Nat} {s t : State} (h : pullWord buf s = .ok t) : Timed 0 s t := by
  unfold pullWord at h
  simp only at h
  split at h
  · simp at h
  · next u hu =>
    obtain rfl := Except.ok.inj h
    exact ((Timed.ofRegRead _ s).trans_zero (.ofMemWrites hu)).trans_zero
      ((Timed.ofSame rfl rfl).trans_zero (.ofRegWrite _ _ (advanceDte _ u)))

theorem Timed.ofPushWord {buf : Nat} {s t : State} (h : pushWord buf s = .ok t) : Timed 0 s t := by
  unfold pushWord at h
  simp only at h
  split at h
  · simp at h
  · next bs u hu =>
    obtain rfl := Except.ok.inj h
    exact ((Timed.ofMemReads hu).trans_zero (.ofRegWrite _ _ u)).trans_zero
      ((Timed.ofSame rfl rfl).trans_zero (.ofRegWrite _ _ (advanceDte _ _)))

theorem Timed.ofDteLoop {mask : Word} {move : State → Except Fault State}
    (hmove : ∀ {s t}, move s = .ok t → Timed 0 s t) {n : Nat} {s t : State} {code : Code}
    (h : dteLoop mask move n s = .ok (code, t)) : Timed 0 s t := by
  refine dteLoop_spec (P := fun _ u => Timed 0 s u) (Q := fun _ u => Timed 0 s u) (fun _ h => h) ?_ (.ofSame rfl rfl) h
  rintro m u hu r rfl
  obtain ⟨es, idle, hp, -, -⟩ := dtePoll_spec mask u
  have hk := hu.trans_zero (.ofDtePolled hp)
  exact ⟨fun _ => hk, fun _ => hk, fun _ v hv => hk.trans_zero (hmove hv)⟩

/-- A transfer takes the delays of its polls (R99, R257). -/
theorem Timed.ofFinishDte {mask : Word} {move : State → Except Fault State}
    (hmove : ∀ {s t}, move s = .ok t → Timed 0 s t) {dir : Dir} {len : Len} {budget n : Nat} {s t : State}
    (h : finishDte (dteLoop mask move n (startDte dir len budget s)) = .next t) : Timed 0 s t := by
  obtain ⟨code, u, hu, rfl⟩ := finishDte_next h
  exact ((Timed.ofSame rfl rfl).trans_zero (.ofDteLoop hmove hu)).trans_zero (.ofSame rfl rfl)

/-! ### The RSM -/

theorem Timed.ofFinishRsm {r : RsmReturn} {s t : State} (hr : RsmFrame s r.st) (h : finishRsm r = .next t) :
    Timed 0 s t := by
  obtain rfl := Host.Outcome.next.inj h
  exact (Timed.ofRsmFrame hr).trans_zero (.ofSame rfl rfl)

/-! ### The ECV and the BBD -/

theorem Timed.ofCompareEcc {e : Word} {base i n : Nat} {s t : State} {code : Code}
    (h : compareEcc e base i n s = .ok (code, t)) : Timed 0 s t := by
  induction n generalizing i s with
  | zero =>
    simp only [compareEcc, Except.ok.injEq, Prod.mk.injEq] at h
    exact .ofSame (by rw [h.2]) (by rw [h.2])
  | succ n ih =>
    rw [compareEcc] at h
    split at h
    · simp at h
    · next b u hu =>
      split at h
      · exact (Timed.ofMemRead hu).trans_zero (ih h)
      · simp only [Except.ok.injEq, Prod.mk.injEq] at h
        obtain ⟨-, rfl⟩ := h
        exact .ofMemRead hu

theorem Timed.ofEccCompare {base : Nat} {s t : State} {code : Code} (h : eccCompare base s = .ok (code, t)) :
    Timed 0 s t := by
  have hlatch : Timed 0 s (setEccLatch (regRead .ecc s).1 (regRead .ecc s).2) :=
    (Timed.ofRegRead .ecc s).trans_zero (.ofSame rfl rfl)
  unfold eccCompare at h
  simp only at h
  split at h
  · simp only [Except.ok.injEq, Prod.mk.injEq] at h
    obtain ⟨-, rfl⟩ := h
    exact hlatch
  · exact hlatch.trans_zero (.ofCompareEcc h)

theorem pageReread_le {p dst : Nat} {s t : State} {ok : Bool} (h : pageReread p dst s = .ok (ok, t)) :
    dst + s.cfg.pageImage ≤ s.cfg.bufmemSize := by
  unfold pageReread at h
  split at h
  · assumption
  · simp at h

/-- A re-read takes the collaborator's own delays and records none of them (R69). -/
theorem Timed.ofPageReread {p dst : Nat} {s t : State} {ok : Bool} (h : pageReread p dst s = .ok (ok, t)) :
    ∃ x, Timed x s t := by
  obtain ⟨a, e, -, -, -, heq⟩ := pageReread_of_le (p := p) (pageReread_le h)
  rw [heq] at h
  obtain ⟨-, rfl⟩ := Prod.mk.inj (Except.ok.inj h)
  exact ⟨a.havoc.delay, [.reread p a.ok], rfl, rfl⟩

/-- One read-back of ECC_VERIFY.WRITE: the attempt is counted, then the page is re-read (R146). -/
theorem Timed.ofAttempt {n : BitVec 2} {p dst : Nat} {s t : State} {ok : Bool}
    (h : pageReread p dst (setEcvAttempt n s) = .ok (ok, t)) : ∃ x, Timed x s t := by
  obtain ⟨x, hx⟩ := Timed.ofPageReread h
  exact ⟨0 + x, (Timed.ofSame rfl rfl).trans hx⟩

theorem Timed.ofReadBack {p : Nat} {s t : State} {ok : Bool} (h : readBack p s = .ok (ok, t)) : ∃ x, Timed x s t := by
  unfold readBack at h
  split at h
  · simp at h
  · next u hu =>
    obtain ⟨-, rfl⟩ := Prod.mk.inj (Except.ok.inj h)
    exact Timed.ofAttempt hu
  · next u hu =>
    obtain ⟨x, hx⟩ := Timed.ofAttempt hu
    obtain ⟨y, hy⟩ := Timed.ofAttempt h
    exact ⟨x + y, hx.trans hy⟩

theorem Timed.ofVerifyWrite {page : Word} {s t : State} {code : Code} (h : verifyWrite page s = .ok (code, t)) :
    ∃ x, Timed x s t := by
  unfold verifyWrite at h
  split at h
  · simp at h
  · next u hu =>
    obtain ⟨-, rfl⟩ := Prod.mk.inj (Except.ok.inj h)
    exact Timed.ofReadBack hu
  · next u hu =>
    obtain ⟨x, hx⟩ := Timed.ofReadBack hu
    exact ⟨x, hx.trans (.ofEccCompare h)⟩

theorem finishEcv_next {r : Except Fault (Code × State)} {t : State} (h : finishEcv r = .next t) :
    ∃ code u, r = .ok (code, u) ∧ t = commit code 0 u := by
  match r, h with
  | .ok (code, u), h => exact ⟨code, u, rfl, by simpa [finishEcv, eq_comm] using h⟩

theorem Timed.ofReadOob (p off len : Nat) (s : State) : ∃ x, Timed x s (readOob p off len s).2 := by
  obtain ⟨a, e, -, -, -, heq⟩ := readOob_state p off len s
  exact ⟨a.havoc.delay, [.readOob p off len a.res], by rw [heq]; rfl, by rw [heq]; rfl⟩

theorem Timed.ofFinishProbe {res : OobResult} {s t : State} (h : finishProbe res s = .next t) : Timed 0 s t := by
  cases res with
  | byte b =>
    obtain rfl := Host.Outcome.next.inj h
    exact .ofSame rfl rfl
  | failed c =>
    obtain rfl := Host.Outcome.next.inj h
    exact .ofSame rfl rfl

/-! ### Every operation -/

/-- The operation calls a collaborator (R69). -/
def callsCollaborator : Instr → Bool
  | .eccVerifyWrite _ _ | .bbProbe _ => true
  | .pull _ _ | .push _ _ | .waitReady _ | .readStatus | .chipReset | .allReset | .eccVerifyRead _ _
  | .bbDetect _ => false

/-- Every operation takes the delays it requests, and one that calls a collaborator takes the collaborator's too. -/
theorem exec_timed {i : Instr} {s t : State} (h : exec i s = .next t) :
    ∃ x, Timed x s t ∧ (callsCollaborator i = false → x = 0) := by
  cases i with
  | pull len buf => exact ⟨0, .ofFinishDte .ofPullWord h, fun _ => rfl⟩
  | push len buf => exact ⟨0, .ofFinishDte .ofPushWord h, fun _ => rfl⟩
  | waitReady ms => exact ⟨0, .ofFinishRsm (.ofWaitReady .ofRecovery ms s) h, fun _ => rfl⟩
  | readStatus => exact ⟨0, .ofFinishRsm (.ofReadStatus .ofRecovery s) h, fun _ => rfl⟩
  | chipReset => exact ⟨0, .ofFinishRsm (.ofChipReset .ofRecovery s) h, fun _ => rfl⟩
  | allReset => exact ⟨0, .ofFinishRsm (.ofAllReset s) h, fun _ => rfl⟩
  | eccVerifyRead buf page =>
    obtain ⟨code, u, hu, rfl⟩ := finishEcv_next h
    exact ⟨0, (Timed.ofEccCompare hu).trans_zero (.ofSame rfl rfl), fun _ => rfl⟩
  | eccVerifyWrite buf page =>
    obtain ⟨code, u, hu, rfl⟩ := finishEcv_next h
    obtain ⟨x, hx⟩ := Timed.ofVerifyWrite hu
    exact ⟨x, hx.trans (.ofSame rfl rfl), by simp [callsCollaborator]⟩
  | bbDetect tag =>
    obtain rfl := Host.Outcome.next.inj h
    exact ⟨0, .ofSame rfl rfl, fun _ => rfl⟩
  | bbProbe off =>
    obtain ⟨x, hx⟩ := Timed.ofReadOob (firstPageOfBlock s.cfg (reduceOffset s.cfg off)) s.cfg.bbOobOffset 1 s
    exact ⟨x, hx.trans (.ofFinishProbe h), by simp [callsCollaborator]⟩

theorem callsCollaborator_eq_false {i : Instr} (hw : ∀ buf page, i ≠ .eccVerifyWrite buf page)
    (hp : ∀ off, i ≠ .bbProbe off) : callsCollaborator i = false := by
  cases i with
  | eccVerifyWrite buf page => exact absurd rfl (hw buf page)
  | bbProbe off => exact absurd rfl (hp off)
  | _ => rfl

/-- Settles O23: beyond the delays of its events an operation takes only what its collaborator calls take. -/
theorem elapsedSums : Obligations.ElapsedSums := by
  unfold Obligations.ElapsedSums
  intro i s t h
  obtain ⟨x, ⟨es, htr, hel⟩, hx⟩ := exec_timed h
  refine ⟨es, htr, by omega, fun hw hp => ?_⟩
  rw [hel, hx (callsCollaborator_eq_false hw hp), Nat.add_zero]

/-! ## The starting value of `fsm` -/

/-- The four RSM operations always have a next state. -/
theorem exec_rsm_next {i : Instr} (hi : i.opUnit = .rsm) (s : State) : ∃ t, exec i s = .next t := by
  cases i with
  | waitReady ms => exact ⟨_, rfl⟩
  | readStatus => exact ⟨_, rfl⟩
  | chipReset => exact ⟨_, rfl⟩
  | allReset => exact ⟨_, rfl⟩
  | _ => exact absurd hi (by simp [Instr.opUnit])

theorem exec_rsm_withFsm {i : Instr} (hi : i.opUnit = .rsm) (f : Fsm) (s : State) :
    exec i (withFsm f s) = exec i s := by
  cases i with
  | waitReady ms => exact congrArg finishRsm (waitReady_withFsm f recovery ms s)
  | readStatus => exact congrArg finishRsm (readStatus_withFsm f recovery s)
  | chipReset => exact congrArg finishRsm (chipReset_withFsm f recovery s)
  | allReset => exact congrArg finishRsm (allReset_withFsm f s)
  | _ => exact absurd hi (by simp [Instr.opUnit])

/-- Settles O24: no procedure of the RSM reads `fsm` before it assigns it. -/
theorem startingFsmIrrelevant : Obligations.StartingFsmIrrelevant := by
  unfold Obligations.StartingFsmIrrelevant
  intro i s f hi
  obtain ⟨t, ht⟩ := exec_rsm_next hi s
  exact ⟨t, ht, (exec_rsm_withFsm hi f s).trans ht⟩

end Sys2Proof.Machine
end

section
/-! PROOFS. Reads of a byte of BUFMEM without a value (R44, R56): in PUSH (R98) and in the ECC comparison (R142). -/

namespace Sys2Proof

theorem Config.wf_pushRetries {c : Config} (h : c.wf = true) : c.pushRetries < 2 ^ 32 := by
  have := Config.wf_budgets h
  simp only [Config.budgetsWf, Bool.and_eq_true, decide_eq_true_eq] at this
  exact this.1.1.1.2

theorem regionInBufmem_le {c : Config} {length buffer : Nat} (h : regionInBufmem c length buffer = true) :
    buffer + length ≤ c.bufmemSize := by
  simp only [regionInBufmem, Bool.and_eq_true, decide_eq_true_eq] at h
  omega

end Sys2Proof

namespace Sys2Proof.Machine

/-! ## PUSH -/

/-- What a word of PUSH leaves of the state the next word is sent from (R98). -/
theorem pushWord_ok {buf : Nat} {u t : State} (h : pushWord buf u = .ok t) :
    t.cfg = u.cfg ∧ t.env = u.env ∧ t.bufmem = u.bufmem ∧
      t.dte = { u.dte with cnt := u.dte.cnt + BitVec.ofNat 24 (dteChunk u.dte) } := by
  unfold pushWord at h
  simp only at h
  split at h
  · simp at h
  · next bs v hv =>
    obtain ⟨-, -, rfl⟩ := memReads_ok hv
    obtain rfl := Except.ok.inj h
    exact ⟨by simp, by simp, by simp, by simp⟩

/-- A word of PUSH whose bytes hold values is sent. -/
theorem pushWord_held {buf : Nat} {u : State} (hr : buf + u.dte.cnt.toNat + dteChunk u.dte ≤ u.cfg.bufmemSize)
    (hheld : ∀ i < dteChunk u.dte, Memory.lookup u.bufmem (buf + u.dte.cnt.toNat + i) ≠ none) :
    ∃ t, pushWord buf u = .ok t := by
  obtain ⟨bs, v, hreads⟩ := memReads_held hr hheld
  exact ⟨_, by simp only [pushWord, hreads]; rfl⟩

/-- The first byte without a value lies `j` bytes ahead of the byte a PUSH from `buf` has reached in `u`. -/
structure PushUnheld (buf : Nat) (u : State) (j : Nat) : Prop where
  inside : buf + u.dte.len.toNat ≤ u.cfg.bufmemSize
  ahead : u.dte.cnt.toNat + j < u.dte.len.toNat
  held : ∀ k < j, Memory.lookup u.bufmem (buf + u.dte.cnt.toNat + k) ≠ none
  unheld : Memory.lookup u.bufmem (buf + u.dte.cnt.toNat + j) = none

section
variable {buf j : Nat} {u : State} (h : PushUnheld buf u j)
include h

/-- What a sample and a delay leave alone is all that matters. -/
theorem PushUnheld.congr {t : State} (hcfg : t.cfg = u.cfg) (hmem : t.bufmem = u.bufmem)
    (hlen : t.dte.len = u.dte.len) (hcnt : t.dte.cnt = u.dte.cnt) : PushUnheld buf t j := by
  obtain ⟨hinside, hahead, hheld, hunheld⟩ := h
  exact ⟨by rwa [hlen, hcfg], by rwa [hcnt, hlen], by rwa [hcnt, hmem], by rwa [hcnt, hmem]⟩

/-- The loop has a word left to move. -/
theorem PushUnheld.words :
    dteWords (u.dte.len.toNat - u.dte.cnt.toNat) = dteWords (u.dte.len.toNat - u.dte.cnt.toNat - 4) + 1 := by
  have := h.ahead
  unfold dteWords
  omega

/-- The word that holds the byte cannot be sent. -/
theorem PushUnheld.word_faults (hj : j < 4) :
    pushWord buf u = .error (.uninitialisedRead (.bufByte (buf + u.dte.cnt.toNat + j))) := by
  have hahead := h.ahead
  have hinside := h.inside
  have hreads := memReads_unheld (a := buf + u.dte.cnt.toNat) (k := dteChunk u.dte) (i := j) (s := u)
    (by unfold dteChunk; omega) (by unfold dteChunk; omega) h.held h.unheld
  simp only [pushWord, hreads]

/-- A whole word before the byte is sent, and leaves the byte four bytes nearer. -/
theorem PushUnheld.word_moves (hj : 4 ≤ j) :
    ∃ t, pushWord buf u = .ok t ∧ PushUnheld buf t (j - 4) ∧ t.cfg = u.cfg ∧ t.env = u.env ∧
      t.dte.len = u.dte.len ∧ t.dte.retry = u.dte.retry ∧ t.dte.cnt.toNat = u.dte.cnt.toNat + 4 := by
  have hahead := h.ahead
  have hinside := h.inside
  have hlt := u.dte.len.isLt
  have hchunk : dteChunk u.dte = 4 := by unfold dteChunk; omega
  obtain ⟨t, ht⟩ := pushWord_held (buf := buf) (u := u) (by omega) (fun i hi => h.held i (by omega))
  obtain ⟨hcfg, henv, hmem, hdte⟩ := pushWord_ok ht
  have hcnt : t.dte.cnt.toNat = u.dte.cnt.toNat + 4 := by
    simp only [hdte, hchunk, BitVec.toNat_add, BitVec.toNat_ofNat]
    omega
  have hlen : t.dte.len = u.dte.len := by rw [hdte]
  refine ⟨t, ht, ⟨by rw [hlen, hcfg]; exact hinside, by rw [hcnt, hlen]; omega, fun k hk => ?_, ?_⟩, hcfg, henv, hlen,
    by rw [hdte], hcnt⟩
  · rw [hcnt, hmem, show buf + (u.dte.cnt.toNat + 4) + k = buf + u.dte.cnt.toNat + (4 + k) by omega]
    exact h.held _ (by omega)
  · rw [hcnt, hmem, show buf + (u.dte.cnt.toNat + 4) + (j - 4) = buf + u.dte.cnt.toNat + j by omega]
    exact h.unheld

end

/-- What is left to do for a PUSH from `buf` in `u`. -/
def pushLoop (buf : Nat) (u : State) : Except Fault (Code × State) :=
  dteLoop u.cfg.intTxReady (pushWord buf) (dteWords (u.dte.len.toNat - u.dte.cnt.toNat)) u

section
variable {buf j : Nat} {u : State} (h : PushUnheld buf u j)
include h

/-- A sample with the ready bit, in the word that holds the byte. -/
theorem PushUnheld.loop_faults {v : Word} {rest : List Word} (hr : u.env.reads = v :: rest)
    (hv : v &&& u.cfg.intTxReady ≠ 0) (hj : j < 4) :
    pushLoop buf u = .error (.uninitialisedRead (.bufByte (buf + u.dte.cnt.toNat + j))) := by
  have hread := regRead_cons (r := .interruptStatus) hr
  have hsampled : PushUnheld buf (regRead .interruptStatus u).2 j := h.congr (by simp) (by simp) (by simp) (by simp)
  have hfault := hsampled.word_faults hj
  rw [pushLoop, h.words, dteLoop_ready (by rw [hread]; exact anySet_iff.mpr hv), hfault]
  simp

/-- A sample with the ready bit, in a word before the byte: the loop goes on after that word. -/
theorem PushUnheld.loop_ready {v : Word} {rest : List Word} (hr : u.env.reads = v :: rest)
    (hv : v &&& u.cfg.intTxReady ≠ 0) (hj : 4 ≤ j) :
    ∃ t, pushLoop buf u = pushLoop buf t ∧ PushUnheld buf t (j - 4) ∧ t.cfg = u.cfg ∧ t.env.reads = rest ∧
      t.dte.retry = u.dte.retry ∧ t.dte.cnt.toNat = u.dte.cnt.toNat + 4 := by
  have hread := regRead_cons (r := .interruptStatus) hr
  have hsampled : PushUnheld buf (regRead .interruptStatus u).2 j := h.congr (by simp) (by simp) (by simp) (by simp)
  obtain ⟨t, hmove, ht, hcfg, henv, hlen, hretry, hcnt⟩ := hsampled.word_moves hj
  simp only [regRead_cfg, regRead_dte] at hcfg hlen hretry hcnt
  refine ⟨t, ?_, ht, hcfg, by rw [henv, hread], hretry, hcnt⟩
  rw [pushLoop, h.words, dteLoop_ready (by rw [hread]; exact anySet_iff.mpr hv), hmove, pushLoop, hcfg, hcnt, hlen,
    Nat.sub_sub]

/-- An idle sample within the budget: the loop goes on after a delay. -/
theorem PushUnheld.loop_idle {v : Word} {rest : List Word} (hr : u.env.reads = v :: rest)
    (hv : v &&& u.cfg.intTxReady = 0) (hd : v &&& u.cfg.intDone = 0) {m : Nat} (hm : u.dte.retry.toNat = m + 1) :
    ∃ t, pushLoop buf u = pushLoop buf t ∧ PushUnheld buf t j ∧ t.cfg = u.cfg ∧ t.env.reads = rest ∧
      t.dte.retry.toNat = m ∧ t.dte.cnt = u.dte.cnt := by
  have hread := regRead_cons (r := .interruptStatus) hr
  have hlt := u.dte.retry.isLt
  refine ⟨setDteRetry (BitVec.ofNat 32 m) (delayUs 1 (regRead .interruptStatus u).2), ?_,
    h.congr (by simp) (by simp) (by simp) (by simp), by simp, by simp [hread], ?_, by simp⟩
  · rw [pushLoop, h.words, dteLoop_idle (by rw [hread]; exact anySet_iff_not.mpr hv)
      (by rw [hread]; exact anySet_iff_not.mpr hd) hm, ← h.words]
    simp [pushLoop]
  · simp only [setDteRetry_dte, BitVec.toNat_ofNat]
    omega

end

/-- The samples `vs` let the loop of a PUSH reach the word that holds the byte, and `v` lets that word be sent. -/
theorem pushLoop_unheld {c : Config} {buf : Nat} {vs : List Word} {v : Word} {rest : List Word} {u : State} {j : Nat}
    (h : PushUnheld buf u j) (hc : u.cfg = c) (hr : u.env.reads = vs ++ v :: rest) (hv : v &&& c.intTxReady ≠ 0)
    (hidle : ∀ x ∈ vs, x &&& c.intTxReady = 0 → x &&& c.intDone = 0)
    (hready : vs.countP (fun x => decide (x &&& c.intTxReady ≠ 0)) = j / 4)
    (hbudget : vs.countP (fun x => decide (x &&& c.intTxReady = 0)) ≤ u.dte.retry.toNat) :
    pushLoop buf u = .error (.uninitialisedRead (.bufByte (buf + u.dte.cnt.toNat + j))) := by
  subst hc
  induction vs generalizing u j with
  | nil => exact h.loop_faults hr hv (by simp at hready; omega)
  | cons x xs ih =>
    rw [List.cons_append] at hr
    have hidle' := fun y hy => hidle y (List.mem_cons_of_mem x hy)
    by_cases hx : x &&& u.cfg.intTxReady = 0
    · simp only [List.countP_cons, hx, ne_eq, not_true_eq_false, decide_false, decide_true, if_true] at hready hbudget
      obtain ⟨m, hm⟩ : ∃ m, u.dte.retry.toNat = m + 1 := ⟨u.dte.retry.toNat - 1, by omega⟩
      obtain ⟨t, hloop, ht, hcfg, hreads, hretry, hcnt⟩ :=
        h.loop_idle hr hx (hidle x List.mem_cons_self hx) hm
      rw [hloop, ← hcnt]
      exact ih ht hreads (by rw [hcfg]; exact hv) (by rw [hcfg]; exact hidle') (by rw [hcfg]; simpa using hready)
        (by rw [hcfg]; omega)
    · simp only [List.countP_cons, hx, ne_eq, not_false_eq_true, decide_false, decide_true, if_true] at hready hbudget
      obtain ⟨t, hloop, ht, hcfg, hreads, hretry, hcnt⟩ := h.loop_ready hr hx (by omega)
      have hfault := ih ht hreads (by rw [hcfg]; exact hv) (by rw [hcfg]; exact hidle')
        (by rw [hcfg]; simp only [ne_eq]; omega) (by rw [hcfg, hretry]; simpa using hbudget)
      rw [hloop, hfault, hcnt, show buf + (u.dte.cnt.toNat + 4) + (j - 4) = buf + u.dte.cnt.toNat + j by omega]

theorem execPush_eq (len : Len) (buf : Word) (s : State) :
    execPush len buf s = finishDte (pushLoop buf.toNat (startDte .tx len s.cfg.pushRetries s)) := by
  simp [execPush, pushLoop]

/-- Settles O35, by induction on the samples before the one that lets the word of byte `j` be sent. -/
theorem pushUnheldByteFaults : Obligations.PushUnheldByteFaults := by
  unfold Obligations.PushUnheldByteFaults
  intro len buf s vs v rest j hwf hrange hr hv hidle hready hbudget hj hheld hunheld
  have hstart : PushUnheld buf.toNat (startDte .tx len s.cfg.pushRetries s) j := by
    refine ⟨regionInBufmem_le hrange, ?_, ?_, ?_⟩ <;> simpa
  have hretry : (startDte .tx len s.cfg.pushRetries s).dte.retry.toNat = s.cfg.pushRetries :=
    Nat.mod_eq_of_lt (Config.wf_pushRetries hwf)
  have hfault := pushLoop_unheld hstart rfl hr hv hidle hready (by rw [hretry]; exact hbudget)
  rw [show exec (.push len buf) s = execPush len buf s from rfl, execPush_eq, hfault]
  simp [finishDte]

/-! ## The ECC comparison -/

/-- The comparison faults at the first byte without a value where the bytes before it agree (R142). -/
theorem compareEcc_unheld {e : Word} {base i n j : Nat} {s : State} (hj : j < n)
    (hr : eccAddr s.cfg base (i + j) < s.cfg.bufmemSize)
    (hagree : ∀ k < j, Memory.lookup s.bufmem (eccAddr s.cfg base (i + k)) = some (wordByte e (i + k)))
    (hunheld : Memory.lookup s.bufmem (eccAddr s.cfg base (i + j)) = none) :
    compareEcc e base i n s = .error (.uninitialisedRead (.bufByte (eccAddr s.cfg base (i + j)))) := by
  induction j generalizing i n s with
  | zero =>
    obtain ⟨m, rfl⟩ : ∃ m, n = m + 1 := ⟨n - 1, by omega⟩
    simp only [Nat.add_zero] at hr hunheld ⊢
    simp only [compareEcc, memRead_unheld hr hunheld]
  | succ j ih =>
    obtain ⟨m, rfl⟩ : ∃ m, n = m + 1 := ⟨n - 1, by omega⟩
    have hfirst := memRead_of_lookup (a := eccAddr s.cfg base i) (b := wordByte e i) (s := s)
      (by unfold eccAddr at hr ⊢; omega) (hagree 0 (by omega))
    have hshift : ∀ k, i + 1 + k = i + (k + 1) := by omega
    have hrest := ih (i := i + 1) (n := m) (s := emit (.bufRead (eccAddr s.cfg base i) (wordByte e i)) s) (by omega)
      (by rw [hshift]; exact hr) (fun k hk => by rw [hshift]; exact hagree (k + 1) (by omega))
      (by rw [hshift]; exact hunheld)
    rw [hshift] at hrest
    simpa only [compareEcc, hfirst, if_true, emit_cfg] using hrest

/-- The stored ECC bytes of an image in BUFMEM lie in BUFMEM (R9, R141). -/
theorem eccAddr_lt {c : Config} (hwf : c.wf = true) {base j : Nat} (hbase : base + c.pageImage ≤ c.bufmemSize)
    (hj : j < 4) : eccAddr c base j < c.bufmemSize := by
  have := Config.wf_eccOob hwf
  unfold Config.pageImage at hbase
  unfold eccAddr
  omega

/-- Settles O53, by induction on the number of stored bytes that agree before byte `j`. -/
theorem eccReadUnheldByteFaults : Obligations.EccReadUnheldByteFaults := by
  unfold Obligations.EccReadUnheldByteFaults
  intro s buf page e vs j hwf hrange hr he hj hagree hunheld
  have hread := regRead_cons (r := .ecc) hr
  have hlt := eccAddr_lt hwf (regionInBufmem_le hrange) hj
  have hfault := compareEcc_unheld (e := e) (base := buf.toNat) (i := 0) (n := 4) (j := j)
    (s := setEccLatch e (regRead .ecc s).2) hj (by simpa using hlt) (by simpa using hagree) (by simpa using hunheld)
  have hcompare : eccCompare buf.toNat s =
      .error (.uninitialisedRead (.bufByte (eccAddr s.cfg buf.toNat j))) := by
    simp only [eccCompare, Config.wf_eccBytes hwf, hread, if_neg he] at hfault ⊢
    simpa using hfault
  rw [show exec (.eccVerifyRead buf page) s = finishEcv (eccCompare buf.toNat s) from rfl, hcompare, finishEcv]

end Sys2Proof.Machine
end

section
/-! PROOFS. BB_PROBE: the byte it reads and the verdict it comes to (R159, R161, R251). -/

namespace Sys2Proof.Machine

/-- The byte offset reduced to the chip is the remainder, or the offset itself without PAGE_WRAP (R159). -/
theorem reduceOffset_eq {c : Config} (hwf : c.wf = true) (off : Word) :
    reduceOffset c off = if c.pageWrap then off.toNat % c.chipSize else off.toNat := by
  rw [reduceOffset, and_pred_of_isPowerOfTwo (Config.wf_chipSize hwf)]

/-- The state in which BB_PROBE judges the read's result: the collaborator's answer is `a`, and `e` is what is left of
the answers (R69, R251). -/
def probed (p : Nat) (a : OobAnswer) (e : Answers) (s : State) : State :=
  { applyHavoc a.havoc s with
    env := e
    bufmem := Memory.overlay s.bufmem s.cfg.rbufBase (stagedBytes s.cfg a)
    trace := .readOob p s.cfg.bbOobOffset 1 a.res :: s.trace }

/-- BB_PROBE judges the tag of the first page of the block that holds the offset (R159). -/
theorem exec_bbProbe (off : Word) (s : State) : ∃ (a : OobAnswer) (e : Answers),
    (∀ x xs, s.env.oobs = x :: xs → a = x) ∧ e.reads = s.env.reads ∧ e.rereads = s.env.rereads ∧
      exec (.bbProbe off) s =
        finishProbe a.res (probed (firstPageOfBlock s.cfg (reduceOffset s.cfg off)) a e s) := by
  obtain ⟨a, e, ha, hreads, hrereads, heq⟩ :=
    readOob_state (firstPageOfBlock s.cfg (reduceOffset s.cfg off)) s.cfg.bbOobOffset 1 s
  refine ⟨a, e, fun x xs hx => by rw [ha, oobAnswer_cons hx], hreads, hrereads, ?_⟩
  rw [show exec (.bbProbe off) s = finishProbe (probeTag off s).1 (probeTag off s).2 from rfl, probeTag, heq]
  rfl

/-- The result code of BB_PROBE (R159, R160). -/
def OobResult.code : OobResult → Code
  | .byte _ => .ok
  | .failed c => c.code

/-- The verdict of BB_PROBE: a failed read is bad (R159). -/
def OobResult.bad : OobResult → Bool
  | .byte b => tagIsBad b
  | .failed _ => true

/-- `bb_tag` after BB_PROBE: a failed read leaves it (R159). -/
def OobResult.tag (old : Reg Byte) : OobResult → Reg Byte
  | .byte b => .wrote b
  | .failed _ => old

/-- The state BB_PROBE ends in, by the read's result. -/
theorem finishProbe_eq (res : OobResult) (s : State) : finishProbe res s = .next (commit res.code (verdictVal res.bad)
    { s with bbd := { tag := res.tag s.bbd.tag, bad := .wrote res.bad } }) := by
  cases res <;> rfl

theorem tagIsBad_eq (tag : Byte) : tagIsBad tag = decide (tag ≠ 0xFF#8) := by
  by_cases h : tag = 0xFF#8 <;> simp [tagIsBad, h]

/-- RESP and the verdict of a byte read (R159, R161). -/
theorem respWord_verdict (b : Byte) : respWord (verdictVal (tagIsBad b)) Code.ok.bits =
    if b = 0xFF#8 then 0x00000000#32 else 0x00000100#32 := by
  by_cases h : b = 0xFF#8
  · rw [tagIsBad_eq, if_pos h, decide_eq_false (not_not_intro h)]
    rfl
  · rw [tagIsBad_eq, if_neg h, decide_eq_true h]
    rfl

/-- Settles O60: what the collaborator leaves, and the verdict on its answer. -/
theorem bbProbeVerdict : Obligations.BbProbeVerdict := by
  unfold Obligations.BbProbeVerdict
  intro off s hwf
  obtain ⟨a, e, ha, hreads, hrereads, hx⟩ := exec_bbProbe off s
  rw [finishProbe_eq, reduceOffset_eq hwf] at hx
  refine ⟨a.res, _, hx, fun x xs hq => by rw [ha x xs hq], ?_, fun x hout => ?_, fun x xs hq j hj => ?_, ?_, ?_, ?_⟩
  · rw [← hreads, ← hrereads]
    rfl
  · have hlen := length_stagedBytes_le s.cfg a
    unfold Config.pageImage at hlen
    exact Memory.lookup_overlay_outside (by omega)
  · rw [← ha x xs hq]
    exact lookup_readBack a s.bufmem (Config.wf_rbuf hwf) hj
  · intro b hb
    rw [hb]
    refine ⟨?_, rfl, congrArg Reg.wrote (respWord_verdict b)⟩
    rw [← tagIsBad_eq]
    rfl
  · intro hf
    rw [hf]
    exact ⟨rfl, rfl, rfl⟩
  · intro hf
    rw [hf]
    exact ⟨rfl, rfl, rfl⟩

end Sys2Proof.Machine
end

section
/-! PROOFS. What a transfer, an ECC comparison and a read-back leave of the state (R69, R104, R143, R149), and the
transitions of `fsm` (R23, R126). -/

namespace Sys2Proof.Machine

/-! ## The frames of the units -/

/-- A transfer that ends leaves what its loop leaves alone, until its result is committed (R99, R104). -/
theorem DteFrame.ofFinishDte {dir : Dir} {len : Len} {buf budget n : Nat} {mask : Word}
    {move : State → Except Fault State} {s t : State}
    (hmove : ∀ {u v}, DteFrame s dir len buf u → move u = .ok v → DteFrame s dir len buf v)
    (h : finishDte (dteLoop mask move n (startDte dir len budget s)) = .next t) :
    ∃ code u, t = commit code u.dte.cnt u ∧ DteFrame s dir len buf u := by
  obtain ⟨code, u, hu, rfl⟩ := finishDte_next h
  exact ⟨code, u, rfl, .ofLoop hmove (.start s dir len buf budget) hu⟩

/-- The byte comparisons of EccCompare add to the history and change nothing (R142). -/
theorem compareEcc_state {e : Word} {base i n : Nat} {s t : State} {code : Code}
    (h : compareEcc e base i n s = .ok (code, t)) : t = { s with trace := t.trace } := by
  induction n generalizing i s with
  | zero =>
    obtain ⟨-, rfl⟩ := Prod.mk.inj (Except.ok.inj h)
    rfl
  | succ n ih =>
    rw [compareEcc] at h
    split at h
    · simp at h
    · next b u hu =>
      obtain ⟨-, -, rfl⟩ := memRead_ok hu
      split at h
      · exact ih (s := emit (.bufRead (eccAddr s.cfg base i) b) s) h
      · obtain ⟨-, rfl⟩ := Prod.mk.inj (Except.ok.inj h)
        rfl

/-- EccCompare reads ECC into its latch, adds to the history, and changes nothing else (R142, R149). -/
theorem eccCompare_state {base : Nat} {s t : State} {code : Code} (h : eccCompare base s = .ok (code, t)) :
    t = { s with ecv := { s.ecv with latch := t.ecv.latch }, nfc := { s.nfc with ecc := t.nfc.ecc }, trace := t.trace,
                 env := { s.env with reads := t.env.reads, drawn := t.env.drawn } } := by
  obtain ⟨e, hrereads, hoobs, hread⟩ := regRead_state .ecc s
  unfold eccCompare at h
  simp only [hread] at h
  split at h
  · obtain ⟨-, rfl⟩ := Prod.mk.inj (Except.ok.inj h)
    simp [setEccLatch, NfcFile.set, ← hrereads, ← hoobs]
  · rw [compareEcc_state h]
    simp [setEccLatch, NfcFile.set, ← hrereads, ← hoobs]

/-- What ECC_VERIFY.WRITE leaves alone until its result is committed, beside BUFMEM (R69, R146). -/
def ecvKept (s : State) :=
  (s.cfg, s.port, s.busy, s.inRecovery, s.err, s.bbd, s.fsmPath, s.hostq, s.env.oobs)

/-- The frame of ECC_VERIFY.WRITE: beside `ecvKept`, every byte of BUFMEM outside the read-back image (R69 b, R146). -/
structure EcvFrame (s t : State) : Prop where
  kept : ecvKept t = ecvKept s
  outside : ∀ a, (a < s.cfg.rbufBase ∨ s.cfg.rbufBase + s.cfg.pageImage ≤ a) →
    Memory.lookup t.bufmem a = Memory.lookup s.bufmem a

theorem EcvFrame.cfg {s t : State} (h : EcvFrame s t) : t.cfg = s.cfg := congrArg (·.1) h.kept

theorem EcvFrame.fsmPath {s t : State} (h : EcvFrame s t) : t.fsmPath = s.fsmPath :=
  congrArg (fun (_, _, _, _, _, _, path, _) => path) h.kept

theorem EcvFrame.trans {s t u : State} (h : EcvFrame s t) (k : EcvFrame t u) : EcvFrame s u where
  kept := k.kept.trans h.kept
  outside := fun a ha => (k.outside a (by rw [h.cfg]; exact ha)).trans (h.outside a ha)

/-- The frame as one equation. -/
theorem EcvFrame.eq {s t : State} (h : EcvFrame s t) :
    t = { s with ecv := t.ecv, fsm := t.fsm, rsm := t.rsm, dte := t.dte, nfc := t.nfc, elapsedUs := t.elapsedUs,
                 bufmem := t.bufmem, trace := t.trace, env := { t.env with oobs := s.env.oobs } } := by
  have hk := h.kept
  simp only [ecvKept, Prod.mk.injEq] at hk
  obtain ⟨hcfg, hport, hbusy, hrec, herr, hbbd, hpath, hhost, hoobs⟩ := hk
  rw [← hcfg, ← hport, ← hbusy, ← hrec, ← herr, ← hbbd, ← hpath, ← hhost, ← hoobs]

/-- One read-back of ECC_VERIFY.WRITE: the attempt is counted and the page re-read (R146). -/
theorem EcvFrame.ofAttempt {n : BitVec 2} {p : Nat} {s t : State} {ok : Bool}
    (h : pageReread p s.cfg.rbufBase (setEcvAttempt n s) = .ok (ok, t)) : EcvFrame s t := by
  obtain ⟨a, e, -, -, hoobs, heq⟩ := pageReread_of_le (p := p) (pageReread_le h)
  obtain ⟨-, rfl⟩ := Prod.mk.inj (Except.ok.inj (heq.symm.trans h))
  exact ⟨by simp [ecvKept, hoobs], fun x hx => Memory.lookup_storeAll_outside (by simpa using hx)⟩

theorem EcvFrame.ofReadBack {p : Nat} {s t : State} {ok : Bool} (h : readBack p s = .ok (ok, t)) : EcvFrame s t := by
  unfold readBack at h
  split at h
  · simp at h
  · next u hu =>
    obtain ⟨-, rfl⟩ := Prod.mk.inj (Except.ok.inj h)
    exact .ofAttempt hu
  · next u hu =>
    have hfirst : EcvFrame s u := .ofAttempt hu
    exact hfirst.trans (.ofAttempt (by rw [hfirst.cfg]; exact h))

theorem EcvFrame.ofEccCompare {base : Nat} {s t : State} {code : Code} (h : eccCompare base s = .ok (code, t)) :
    EcvFrame s t := by
  rw [eccCompare_state h]
  exact ⟨rfl, fun _ _ => rfl⟩

theorem EcvFrame.ofVerifyWrite {page : Word} {s t : State} {code : Code} (h : verifyWrite page s = .ok (code, t)) :
    EcvFrame s t := by
  unfold verifyWrite at h
  split at h
  · simp at h
  · next u hu =>
    obtain ⟨-, rfl⟩ := Prod.mk.inj (Except.ok.inj h)
    exact .ofReadBack hu
  · next u hu => exact (EcvFrame.ofReadBack hu).trans (.ofEccCompare h)

/-! ## The transitions of `fsm` -/

/-- Between two states the block assigned nothing to `fsm` and no collaborator changed it. -/
def FsmKept (s t : State) : Prop := t.fsm = s.fsm ∧ t.fsmPath = s.fsmPath

theorem DteFrame.fsmKept {s u : State} {dir : Dir} {len : Len} {buf : Nat} (h : DteFrame s dir len buf u) :
    FsmKept s u := by
  have hk := h.kept
  simp only [dteKept, Prod.mk.injEq] at hk
  obtain ⟨-, -, -, -, -, hfsm, -, -, -, hpath, -⟩ := hk
  exact ⟨hfsm, hpath⟩

theorem FsmKept.ofEccCompare {base : Nat} {s t : State} {code : Code} (h : eccCompare base s = .ok (code, t)) :
    FsmKept s t := by
  rw [eccCompare_state h]
  exact ⟨rfl, rfl⟩

/-- No operation of the DTE touches `fsm` (R104). -/
theorem exec_dte_fsmKept {i : Instr} {s t : State} (hi : i.opUnit = .dte) (h : exec i s = .next t) : FsmKept s t := by
  cases i with
  | pull len buf =>
    obtain ⟨code, u, rfl, hu⟩ := DteFrame.ofFinishDte .ofPullWord h
    exact hu.fsmKept
  | push len buf =>
    obtain ⟨code, u, rfl, hu⟩ := DteFrame.ofFinishDte .ofPushWord h
    exact hu.fsmKept
  | _ => exact absurd hi (by simp [Instr.opUnit])

theorem exec_eccVerifyRead_fsmKept {buf page : Word} {s t : State} (h : exec (.eccVerifyRead buf page) s = .next t) :
    FsmKept s t := by
  obtain ⟨code, u, hu, rfl⟩ := finishEcv_next h
  exact (FsmKept.ofEccCompare hu :)

theorem exec_bbDetect_fsmKept {tag : Byte} {s t : State} (h : exec (.bbDetect tag) s = .next t) : FsmKept s t := by
  obtain rfl := Host.Outcome.next.inj h
  exact ⟨rfl, rfl⟩

/-- Outside the RSM the block assigns nothing to `fsm`; a collaborator may change it (R69, R126). -/
theorem exec_fsmPath {i : Instr} {s t : State} (hi : i.opUnit ≠ .rsm) (h : exec i s = .next t) :
    t.fsmPath = s.fsmPath := by
  cases i with
  | pull len buf => exact (exec_dte_fsmKept rfl h).2
  | push len buf => exact (exec_dte_fsmKept rfl h).2
  | eccVerifyRead buf page => exact (exec_eccVerifyRead_fsmKept h).2
  | bbDetect tag => exact (exec_bbDetect_fsmKept h).2
  | eccVerifyWrite buf page =>
    obtain ⟨code, u, hu, rfl⟩ := finishEcv_next h
    exact (EcvFrame.ofVerifyWrite hu).fsmPath
  | bbProbe off =>
    obtain ⟨a, e, -, -, -, hx⟩ := exec_bbProbe off s
    rw [hx, finishProbe_eq] at h
    obtain rfl := Host.Outcome.next.inj h
    rfl
  | _ => exact absurd rfl hi

/-- The completion of an RSM operation leaves `fsm` where its procedure left it (R112). -/
theorem PathFrom.ofFinishRsm {hr top : Bool} {r : RsmReturn} {s t : State} (hp : PathFrom hr top s r.st)
    (h : finishRsm r = .next t) : PathFrom hr top s t := by
  obtain rfl := Host.Outcome.next.inj h
  exact hp.trans (.ofSame rfl rfl)

/-- An RSM operation other than READ_STATUS makes only transitions of R126 from the value `fsm` had. -/
theorem exec_rsm_path {i : Instr} {s t : State} (hi : i.opUnit = .rsm) (hne : i ≠ .readStatus)
    (h : exec i s = .next t) : PathFrom s.cfg.hasRb false s t := by
  cases i with
  | waitReady ms => exact .ofFinishRsm (waitReady_path (fun _ => allReset_path) .ofRecovery ms rfl) h
  | chipReset => exact .ofFinishRsm (chipReset_path (fun _ => allReset_path) .ofRecovery rfl) h
  | allReset => exact .ofFinishRsm (allReset_path rfl) h
  | readStatus => exact absurd rfl hne
  | _ => exact absurd hi (by simp [Instr.opUnit])

/-- READ_STATUS enters STATUS_READ from any state (T15) and makes only transitions of R126 from there. -/
theorem exec_readStatus_path {s t : State} (h : exec .readStatus s = .next t) :
    PathFrom s.cfg.hasRb true (statusIssued s) t :=
  .ofFinishRsm (readStatus_pathIssued (fun _ => allReset_path) rfl (Bool.or_true _)) h

/-- Settles O25: the paths of the RSM's procedures, and the frames of the other operations. -/
theorem fsmTransitions : Obligations.FsmTransitions := by
  unfold Obligations.FsmTransitions
  intro i s t h
  refine ⟨fun hi hne => ?_, ?_, fun hi => exec_fsmPath hi h, fun hi => (exec_dte_fsmKept hi h).1, ?_, ?_⟩
  · obtain ⟨fs, hpath, hallowed, hlast⟩ := exec_rsm_path hi hne h
    exact ⟨fs, hpath, hlast, hallowed⟩
  · rintro rfl
    obtain ⟨fs, hpath, hallowed, hlast⟩ := exec_readStatus_path h
    exact ⟨fs ++ [.statusRead], by simp [hpath, statusIssued], hlast, by simp, hallowed⟩
  · rintro buf page rfl
    exact (exec_eccVerifyRead_fsmKept h).1
  · rintro tag rfl
    exact (exec_bbDetect_fsmKept h).1

/-! ## ECC_VERIFY.WRITE -/

/-- Settles O57, by the frame of the read-backs and the comparison. -/
theorem eccWriteChangesNothingElse : Obligations.EccWriteChangesNothingElse := by
  unfold Obligations.EccWriteChangesNothingElse
  intro buf page s t h
  obtain ⟨code, u, hu, rfl⟩ := finishEcv_next h
  have hframe := EcvFrame.ofVerifyWrite hu
  exact ⟨congrArg (commit code 0) hframe.eq, hframe.outside⟩

end Sys2Proof.Machine
end

section
/-! PROOFS. The bytes and DATA words of PULL and PUSH (R57, R58, R96, R98). -/

namespace Sys2Proof

theorem Config.wf_pullRetries {c : Config} (h : c.wf = true) : c.pullRetries < 2 ^ 32 := by
  have := Config.wf_budgets h
  simp only [Config.budgetsWf, Bool.and_eq_true, decide_eq_true_eq] at this
  obtain ⟨⟨⟨⟨hpull, -⟩, -⟩, -⟩, -⟩ := this
  exact hpull

end Sys2Proof

namespace Sys2Proof.Machine

/-! ## Bytes of words -/

theorem wordBytes_four (w : Word) : wordBytes w 4 = [wordByte w 0, wordByte w 1, wordByte w 2, wordByte w 3] := rfl

/-- Byte `j` of words in buffer address order is byte `j mod 4` of word number `j / 4` (R57). -/
theorem getElem?_bytesOfWords (ws : List Word) (j : Nat) :
    (bytesOfWords ws)[j]? = (ws[j / 4]?).map fun w => wordByte w (j % 4) := by
  induction ws generalizing j with
  | nil => simp [bytesOfWords]
  | cons w ws ih =>
    have hcons : bytesOfWords (w :: ws) = wordBytes w 4 ++ bytesOfWords ws := rfl
    rw [hcons, wordBytes_four]
    match j with
    | 0 | 1 | 2 | 3 => rfl
    | j + 4 =>
      rw [show (j + 4) / 4 = j / 4 + 1 by omega, show (j + 4) % 4 = j % 4 by omega]
      exact ih j

/-! ## Words of bytes -/

theorem getLsbD_wordByte (w : Word) (j i : Nat) :
    (wordByte w j).getLsbD i = (decide (i < 8) && w.getLsbD (8 * j + i)) := by
  simp [wordByte]

theorem getLsbD_wordOfBytes_cons (b : Byte) (bs : List Byte) (i : Nat) : (wordOfBytes (b :: bs)).getLsbD i =
    if i < 8 then b.getLsbD i else decide (i < 32) && (wordOfBytes bs).getLsbD (i - 8) := by
  simp only [wordOfBytes, BitVec.getLsbD_or, BitVec.getLsbD_shiftLeft, BitVec.getLsbD_setWidth]
  by_cases h8 : i < 8
  · simp [h8, show i < 32 by omega]
  · simp [h8, BitVec.getLsbD_of_ge b i (by omega)]

/-- The first byte of a list is the least significant byte of its word (R57). -/
theorem wordByte_wordOfBytes_zero (b : Byte) (bs : List Byte) : wordByte (wordOfBytes (b :: bs)) 0 = b := by
  apply BitVec.eq_of_getLsbD_eq
  intro i hi
  rw [getLsbD_wordByte, getLsbD_wordOfBytes_cons, if_pos (by omega)]
  simp [hi]

/-- The bytes after the first one are those of the word of the rest, one place up (R57). -/
theorem wordByte_wordOfBytes_succ (b : Byte) (bs : List Byte) {j : Nat} (hj : j < 3) :
    wordByte (wordOfBytes (b :: bs)) (j + 1) = wordByte (wordOfBytes bs) j := by
  apply BitVec.eq_of_getLsbD_eq
  intro i hi
  rw [getLsbD_wordByte, getLsbD_wordByte, getLsbD_wordOfBytes_cons, if_neg (by omega),
    show 8 * (j + 1) + i - 8 = 8 * j + i by omega]
  simp [show 8 * (j + 1) + i < 32 by omega]

/-- Byte `j` of the word of up to four bytes is the byte number `j`, and 0 past the last one (R57, R58). -/
theorem wordByte_wordOfBytes (bs : List Byte) {j : Nat} (hj : j < 4) : wordByte (wordOfBytes bs) j = bs.getD j 0 := by
  induction bs generalizing j with
  | nil => simp [wordOfBytes, wordByte]
  | cons b bs ih =>
    cases j with
    | zero => exact wordByte_wordOfBytes_zero b bs
    | succ j => rw [wordByte_wordOfBytes_succ b bs (by omega), ih (by omega), List.getD_cons_succ]

/-- The DATA words of up to four bytes are one word, as soon as there is a byte (R58). -/
theorem wordsOfBytes_short {bs : List Byte} (h0 : bs ≠ []) (h4 : bs.length ≤ 4) :
    wordsOfBytes bs = [wordOfBytes bs] := by
  simpa [wordsOfBytes] using wordsOfBytes_append (bs := []) rfl h0 h4

/-- Byte `j mod 4` of the DATA word number `j / 4` of bytes is the byte number `j`, and 0 past the last one (R57,
R58). -/
theorem wordByte_wordsOfBytes (bs : List Byte) {j : Nat} (hj : j < 4 * dteWords bs.length) :
    ((wordsOfBytes bs)[j / 4]?).map (fun w => wordByte w (j % 4)) = some (bs.getD j 0) := by
  induction bs using wordsOfBytes.induct generalizing j with
  | case1 b₀ b₁ b₂ b₃ rest ih =>
    rw [wordsOfBytes]
    by_cases h4 : j < 4
    · rw [show j / 4 = 0 by omega, show j % 4 = j by omega]
      simp only [List.getElem?_cons_zero, Option.map_some]
      rw [wordByte_wordOfBytes _ h4]
      match j, h4 with
      | 0, _ | 1, _ | 2, _ | 3, _ => rfl
    · obtain ⟨k, rfl⟩ : ∃ k, j = k + 4 := ⟨j - 4, by omega⟩
      rw [show (k + 4) / 4 = k / 4 + 1 by omega, show (k + 4) % 4 = k % 4 by omega]
      exact ih (by simp only [dteWords, List.length_cons] at hj ⊢; omega)
  | case2 => simp [dteWords] at hj
  | case3 tail h1 h2 =>
    have hlen : tail.length < 4 := by
      match tail with
      | [] | [_] | [_, _] | [_, _, _] => simp
      | a :: b :: c :: d :: l => exact absurd rfl (h1 a b c d l)
    have hj4 : j < 4 := by unfold dteWords at hj; omega
    rw [wordsOfBytes_short h2 (by omega), show j / 4 = 0 by omega, show j % 4 = j by omega]
    exact congrArg some (wordByte_wordOfBytes tail hj4)

/-! ## The transfers -/

/-- A moved byte of PULL stands in BUFMEM as the DATA word brought it (R57, R96). -/
theorem PullData.lookup_moved {s u : State} {buf : Nat} {es : List Event} (h : PullData s buf u es) {j : Nat}
    (hj : j < u.dte.cnt.toNat) :
    Memory.lookup u.bufmem (buf + j) = ((dataReads es)[j / 4]?).map fun w => wordByte w (j % 4) := by
  have hlen : j < ((bytesOfWords (dataReads es)).take u.dte.cnt.toNat).length := by
    rw [List.length_take, length_bytesOfWords, h.words, dteWords]
    omega
  rw [h.bufmem, Memory.lookup_storeAll_inside hlen, ← List.getElem?_eq_getElem hlen, List.getElem?_take_of_lt hj,
    getElem?_bytesOfWords]

/-- A byte outside those a PULL moved is as it was (R96). -/
theorem PullData.lookup_outside {s u : State} {buf : Nat} {es : List Event} (h : PullData s buf u es) {a : Nat}
    (ha : a < buf ∨ buf + u.dte.cnt.toNat ≤ a) : Memory.lookup u.bufmem a = Memory.lookup s.bufmem a := by
  rw [h.bufmem]
  refine Memory.lookup_storeAll_outside ?_
  rw [List.length_take]
  omega

/-- Settles O27, from what holds of a running PULL at its end. -/
theorem pullMovesWords : Obligations.PullMovesWords := by
  unfold Obligations.PullMovesWords
  intro len buf s hwf hrange
  obtain ⟨code, t, es, last, hx, hrun, hdata, -⟩ := execPull_spec (Config.wf_pullRetries hwf) hrange
  exact ⟨_, es, hx, hrun.trace, hrun.dirEq, hrun.lenEq, hrun.cnt_le, hdata.words, fun j hj => hdata.lookup_moved hj,
    fun a ha => hdata.lookup_outside ha, hdata.writes, hdata.count⟩

/-- The bytes of the DATA words a PUSH wrote are those of the buffer, the last word filled up with zeros (R58, R98). -/
theorem PushData.wordByte_written {s u : State} {buf : Nat} {es : List Event} (h : PushData s buf u es) {j : Nat}
    (hj : j < 4 * dteWords u.dte.cnt.toNat) : ((dataWrites es)[j / 4]?).map (fun w => wordByte w (j % 4)) =
      if j < u.dte.cnt.toNat then Memory.lookup s.bufmem (buf + j) else some 0 := by
  obtain ⟨bs, hlen, hbytes, hwords⟩ := h.words
  rw [hwords, wordByte_wordsOfBytes bs (by rw [hlen]; exact hj), ← hlen]
  split
  · next hlt => rw [hbytes j hlt, List.getD_eq_getElem _ _ hlt]
  · next hge => rw [List.getD_eq_default _ _ (by omega)]

theorem PushData.length_written {s u : State} {buf : Nat} {es : List Event} (h : PushData s buf u es) :
    (dataWrites es).length = dteWords u.dte.cnt.toNat := by
  obtain ⟨bs, hlen, -, hwords⟩ := h.words
  rw [hwords, length_wordsOfBytes, hlen]

/-- Settles O28, from what holds of a running PUSH at its end. -/
theorem pushMovesWords : Obligations.PushMovesWords := by
  unfold Obligations.PushMovesWords
  intro len buf s hwf hrange hheld
  obtain ⟨code, t, es, last, hx, hrun, hdata, -⟩ := execPush_spec (Config.wf_pushRetries hwf) hrange hheld
  exact ⟨_, es, hx, hrun.trace, hrun.dirEq, hrun.lenEq, hrun.cnt_le, hdata.length_written,
    fun j hj => hdata.wordByte_written hj, hdata.bufmem, hdata.writes, hdata.count⟩

end Sys2Proof.Machine
end

section
/-! PROOFS. The HOST's accesses while the block is idle and while an operation runs (R51, R68, R75, R214). -/

namespace Sys2Proof.Machine

/-! ## Accesses while the block is idle -/

section
variable {s : State} {rest : List HostAct}

/-- A HOST write of a byte of BUFMEM while the block is idle (R56, R68). -/
theorem step_hostMemWrite {a : Nat} {b : Byte} (hb : s.busy = false) (hq : s.hostq = .memWrite a b :: rest)
    (ha : a < s.cfg.bufmemSize) :
    step s = .next { s with
      hostq := rest, bufmem := Memory.store s.bufmem a b, trace := .hostBufWrite a b :: s.trace } := by
  rw [step_access hq (by simp)]
  simp [hostAccess, regionBusy, hb, putByte, ha, emit, takeAct]

/-- A HOST read of a byte of BUFMEM that holds a value (R56, R68). -/
theorem step_hostMemRead {a : Nat} {b : Byte} (hq : s.hostq = .memRead a :: rest) (ha : a < s.cfg.bufmemSize)
    (hl : Memory.lookup s.bufmem a = some b) :
    step s = .next { s with hostq := rest, trace := .hostBufRead a b :: s.trace } := by
  rw [step_access hq (by simp)]
  simp [hostAccess, bufByte, ha, hl, emit, takeAct]

/-- A HOST read of a register at its offset, while the block is idle (R53, R68). -/
theorem step_hostRegRead {r : NfcReg} (hb : s.busy = false) (hwf : s.cfg.wf = true)
    (hq : s.hostq = .regRead (s.cfg.regOffset.get r) 4 :: rest) :
    step s = .next (hostRegRead r (takeAct rest s)) := by
  rw [step_access hq (by simp)]
  simp [hostAccess, hostRegAccess, hb, Config.wf_regAt hwf]

end

/-- Settles O15, one kind of access at a time. -/
theorem hostAccessWhileIdle : Obligations.HostAccessWhileIdle := by
  unfold Obligations.HostAccessWhileIdle
  intro s rest hb hwf
  refine ⟨fun a b hq ha => ?_, fun a b hq ha hl => step_hostMemRead hq ha hl, fun r v hq => ?_, fun r v vs hq hv => ?_⟩
  · exact ⟨_, step_hostMemWrite hb hq ha, Memory.lookup_store_same _ _ _,
      fun x hx => Memory.lookup_store_other b hx, rfl⟩
  · exact ⟨_, step_hostRegWrite hb hwf hq, rfl, fun r' hr => NfcFile.get_set_other _ _ hr.symm⟩
  · rw [step_hostRegRead hb hwf hq, hostRegRead, envAnswer_cons (s := takeAct rest s) hv]
    rfl

/-! ## Accesses while an operation runs -/

/-- A register access of the HOST while an operation runs, whatever its offset and width (R68, R214). -/
theorem hostRegAccess_busy {offset bytes : Nat} {s : State} {access : NfcReg → State} (hb : s.busy = true) :
    hostRegAccess offset bytes s access = .fault .concurrentAccess := by
  simp [hostRegAccess, hb]

/-- A HOST write into the BUFMEM region of the running operation (R68, R214). -/
theorem hostMemWrite_inUse {s : State} {i : Instr} {x : Nat} {b : Byte} (hb : s.busy = true)
    (hi : runningInstr s = .ok i) (hlo : (regionInUse s.cfg i).1 ≤ x)
    (hhi : x < (regionInUse s.cfg i).1 + (regionInUse s.cfg i).2) :
    hostAccess (.memWrite x b) s = .fault .concurrentAccess := by
  simp [hostAccess, regionBusy, hb, hi, inRegionInUse, hlo, hhi]

/-- A HOST access that faults ends the request it lands in (R214). -/
theorem launch_fault {i : Instr} {n : Nat} {s : State} {f : Fault}
    (h : overlapAccesses (s.hostq.take n) (accept { s with hostq := s.hostq.drop n }) = .fault f) :
    launch i n s = .ended (.fault f) := by
  simp only [launch, h]

/-- A well-formed request with one HOST access that lands while its operation runs: the step is that access's fault. -/
theorem step_overlapFault {s : State} {w : Word} {a : HostAct} {rest : List HostAct} {i : Instr} {f : Fault}
    (hb : s.busy = false) (hq : s.hostq = .writeOpreq w 1 :: a :: rest)
    (hd : decode ⟨w, s.port.opa.val, s.port.opb.val⟩ = .ok i) (hw : i.wellFormed s.cfg = true)
    (hopa : i.usesOpa = true → s.port.opa.held = true) (hopb : i.usesOpb = true → s.port.opb.held = true)
    (hf : hostAccess a (accept (writeOpreq w (takeAct rest s))) = .fault f) : step s = .fault f := by
  have hissue := issue_wellFormed (s := writeOpreq w (takeAct (a :: rest) s)) (n := 1) hd hw hopa hopb
  have hoverlap : overlapAccesses [a] (accept (writeOpreq w (takeAct rest s))) = .fault f := by
    simp only [overlapAccesses, hf]
  have hlaunch := launch_fault (i := i) (n := 1) (s := writeOpreq w (takeAct (a :: rest) s)) hoverlap
  rw [step_writeOpreq hb hq, hissue, hlaunch, Presented.outcome]

/-- Settles O14: the access lands in the state that has the request latched and `busy` set. -/
theorem concurrentFaults : Obligations.ConcurrentFaults := by
  unfold Obligations.ConcurrentFaults
  intro s w a rest i hb hq hd hw hopa hopb
  have hfault := fun f => step_overlapFault (f := f) hb hq hd hw hopa hopb
  refine ⟨?_, ?_, ?_, ?_⟩
  · rintro w' n rfl
    exact hfault _ rfl
  · rintro off wid rfl
    exact hfault _ (hostRegAccess_busy rfl)
  · rintro off wid v rfl
    exact hfault _ (hostRegAccess_busy rfl)
  · rintro x b rfl hlo hhi
    exact hfault _ (hostMemWrite_inUse rfl hd hlo hhi)

end Sys2Proof.Machine
end

section
/-! PROOFS. The request encoding (R76 to R85): decoding against encoding, the patterns and the order of R83, and the
operand ranges. -/

namespace Sys2Proof

/-! ## What a request that decodes holds -/

/-- The operation holds operand word A, whether it reads it or only carries it (R77). -/
def Instr.carriesOpa : Instr → Bool
  | .eccVerifyWrite _ _ => true
  | i => i.usesOpa

/-- The operation holds operand word B, whether it reads it or only carries it (R77). -/
def Instr.carriesOpb : Instr → Bool
  | .eccVerifyRead _ _ => true
  | i => i.usesOpb

theorem Instr.carriesOpa_of_uses {i : Instr} (h : i.usesOpa = true) : i.carriesOpa = true := by
  cases i with
  | eccVerifyWrite buf page => rfl
  | _ => exact h

theorem Instr.carriesOpb_of_uses {i : Instr} (h : i.usesOpb = true) : i.carriesOpb = true := by
  cases i with
  | eccVerifyRead buf page => rfl
  | _ => exact h

/-- The request holds the words the encoder writes for the operation, in every word the operation takes (R76, R77). -/
structure Encodes (r : Request) (i : Instr) : Prop where
  opreq : r.opreq = (encode i).opreq
  opa : i.carriesOpa = true → r.opa = (encode i).opa
  opb : i.carriesOpb = true → r.opb = (encode i).opb

/-- `(opc, mode)` is a row of R80. -/
def IsRow (w : Word) : Prop :=
  (1 ≤ w.toNat % 16 ∧ w.toNat % 16 ≤ 9 ∧ w.toNat / 16 % 16 = 0) ∨ (w.toNat % 16 = 7 ∧ w.toNat / 16 % 16 = 1)

/-- A field that R82 wants to be zero for the request's opcode is not. -/
def FieldNotZero (r : Request) : Prop :=
  (4 ≤ r.opreq.toNat % 16 ∧ r.opreq.toNat / 256 ≠ 0) ∨ (r.opreq.toNat % 16 = 3 ∧ r.opreq.toNat / 2 ^ 24 ≠ 0) ∨
    (r.opreq.toNat % 16 = 8 ∧ r.opa.toNat / 256 ≠ 0)

/-- What the steps (1) and (2) of R83 say of a request, by what decoding answers. -/
inductive Verdict (r : Request) : Except Reject Instr → Prop where
  | accepted {i : Instr} (row : IsRow r.opreq) (zero : ¬ FieldNotZero r) (words : Encodes r i) : Verdict r (.ok i)
  | notZero (row : IsRow r.opreq) (nonZero : FieldNotZero r) : Verdict r (.error .mustBeZero)
  | noRow (row : ¬ IsRow r.opreq) : Verdict r (.error .reservedOpcode)

/-- A request word with the opcode and the mode of a row is the row's word with its own immediate. -/
theorem opreq_eq_of_row {w : Word} {o m : BitVec 4} (ho : w.toNat % 16 = o.toNat) (hm : w.toNat / 16 % 16 = m.toNat) :
    w = opreqWord (imm24Field w) m o := by
  rw [← opcField_toNat] at ho
  rw [← modeField_toNat] at hm
  rw [← BitVec.eq_of_toNat_eq ho, ← BitVec.eq_of_toNat_eq hm, opreqWord_fields]

/-- The same for a row whose immediate is zero (R82). -/
theorem opreq_eq_of_bareRow {w : Word} {o m : BitVec 4} (ho : w.toNat % 16 = o.toNat)
    (hm : w.toNat / 16 % 16 = m.toNat) (h : imm24Field w = 0) : w = opreqWord 0 m o := by
  rw [← h]
  exact opreq_eq_of_row ho hm

/-- The rows that take no immediate (R82). -/
theorem Verdict.ofWithoutImmediate {r : Request} {i : Instr} (row : IsRow r.opreq) (hopc : 4 ≤ r.opreq.toNat % 16)
    (htag : r.opreq.toNat % 16 = 8 → r.opa.toNat / 256 = 0) (words : imm24Field r.opreq = 0 → Encodes r i) :
    Verdict r (withoutImmediate r.opreq i) := by
  unfold withoutImmediate
  split
  · next h =>
    have himm := (imm24Field_eq_zero r.opreq).mp h
    exact .accepted row (by unfold FieldNotZero; omega) (words h)
  · next h =>
    rw [imm24Field_eq_zero] at h
    exact .notZero row (.inl ⟨hopc, h⟩)

/-- The verdict on every request, along the rows of R80 in their order. -/
theorem decode_verdict (r : Request) : Verdict r (decode r) := by
  unfold decode
  rw [opcField_toNat, modeField_toNat]
  split
  case h_1 ho hm =>
    exact .accepted (.inl (by omega)) (by unfold FieldNotZero; omega)
      ⟨opreq_eq_of_row (o := 1) (m := 0) ho hm, fun _ => rfl, nofun⟩
  case h_2 ho hm =>
    exact .accepted (.inl (by omega)) (by unfold FieldNotZero; omega)
      ⟨opreq_eq_of_row (o := 2) (m := 0) ho hm, fun _ => rfl, nofun⟩
  case h_3 ho hm =>
    have row : IsRow r.opreq := .inl (by omega)
    split
    · next h =>
      have hw := opreq_eq_of_row (o := 3) (m := 0) ho hm
      rw [← snooze_imm24 h] at hw
      rw [imm24High_eq_zero] at h
      exact .accepted row (by unfold FieldNotZero; omega) ⟨hw, nofun, nofun⟩
    · next h =>
      rw [imm24High_eq_zero] at h
      exact .notZero row (.inr (.inl ⟨ho, h⟩))
  case h_4 ho hm =>
    exact .ofWithoutImmediate (.inl (by omega)) (by omega) (by omega)
      fun h => ⟨opreq_eq_of_bareRow (o := 4) (m := 0) ho hm h, nofun, nofun⟩
  case h_5 ho hm =>
    exact .ofWithoutImmediate (.inl (by omega)) (by omega) (by omega)
      fun h => ⟨opreq_eq_of_bareRow (o := 5) (m := 0) ho hm h, nofun, nofun⟩
  case h_6 ho hm =>
    exact .ofWithoutImmediate (.inl (by omega)) (by omega) (by omega)
      fun h => ⟨opreq_eq_of_bareRow (o := 6) (m := 0) ho hm h, nofun, nofun⟩
  case h_7 ho hm =>
    exact .ofWithoutImmediate (.inl (by omega)) (by omega) (by omega)
      fun h => ⟨opreq_eq_of_bareRow (o := 7) (m := 0) ho hm h, fun _ => rfl, fun _ => rfl⟩
  case h_8 ho hm =>
    exact .ofWithoutImmediate (.inr (by omega)) (by omega) (by omega)
      fun h => ⟨opreq_eq_of_bareRow (o := 7) (m := 1) ho hm h, fun _ => rfl, fun _ => rfl⟩
  case h_9 ho hm =>
    have row : IsRow r.opreq := .inl (by omega)
    split
    · next ha =>
      exact .ofWithoutImmediate row (by omega) (fun _ => (tagHigh_eq_zero r.opa).mp ha)
        fun h => ⟨opreq_eq_of_bareRow (o := 8) (m := 0) ho hm h, fun _ => (tagWord_back ha).symm, nofun⟩
    · next ha =>
      rw [tagHigh_eq_zero] at ha
      exact .notZero row (.inr (.inr ⟨ho, ha⟩))
  case h_10 ho hm =>
    exact .ofWithoutImmediate (.inl (by omega)) (by omega) (by omega)
      fun h => ⟨opreq_eq_of_bareRow (o := 9) (m := 0) ho hm h, fun _ => rfl, nofun⟩
  case h_11 =>
    -- the rows that did not match, in the form `omega` reads
    simp only [imp_false] at *
    exact .noRow (by unfold IsRow; omega)

/-! ## Decoding against encoding -/

/-- Decoding reads the words the encoder writes for an operation back as that operation. -/
theorem decode_of_encodes {r : Request} {i : Instr} (h : Encodes r i) : decode r = .ok i := by
  obtain ⟨hopreq, hopa, hopb⟩ := h
  cases i with
  | pull len buf => simp [decode, encode, hopreq, hopa rfl]
  | push len buf => simp [decode, encode, hopreq, hopa rfl]
  | waitReady ms => simp [decode, encode, hopreq]
  | readStatus => simp [decode, encode, withoutImmediate, hopreq]
  | chipReset => simp [decode, encode, withoutImmediate, hopreq]
  | allReset => simp [decode, encode, withoutImmediate, hopreq]
  | eccVerifyRead buf page => simp [decode, encode, withoutImmediate, hopreq, hopa rfl, hopb rfl]
  | eccVerifyWrite buf page => simp [decode, encode, withoutImmediate, hopreq, hopa rfl, hopb rfl]
  | bbDetect tag => simp [decode, encode, withoutImmediate, hopreq, hopa rfl]
  | bbProbe off => simp [decode, encode, withoutImmediate, hopreq, hopa rfl]

/-- What a request that decodes has passed (R83). -/
theorem decode_ok {r : Request} {i : Instr} (h : decode r = .ok i) :
    IsRow r.opreq ∧ ¬ FieldNotZero r ∧ Encodes r i := by
  have hv := decode_verdict r
  rw [h] at hv
  obtain ⟨row, zero, words⟩ := hv
  exact ⟨row, zero, words⟩

theorem decode_ok_iff {r : Request} {i : Instr} : decode r = .ok i ↔ Encodes r i :=
  ⟨fun h => let ⟨_, _, words⟩ := decode_ok h; words, decode_of_encodes⟩

theorem decode_encode (i : Instr) : decode (encode i) = .ok i := decode_of_encodes ⟨rfl, fun _ => rfl, fun _ => rfl⟩

/-- Settles O1: the encoder's words hold the words of its operation. -/
theorem decodeOfEncode : Obligations.DecodeOfEncode := by
  unfold Obligations.DecodeOfEncode
  exact decode_encode

/-- Settles O2: a request that decodes holds the encoder's words, and an operation carries what it reads. -/
theorem encodeOfDecode : Obligations.EncodeOfDecode := by
  unfold Obligations.EncodeOfDecode
  intro r i h
  obtain ⟨hopreq, hopa, hopb⟩ := decode_ok_iff.mp h
  exact ⟨hopreq.symm, fun hu => (hopa (Instr.carriesOpa_of_uses hu)).symm,
    fun hu => (hopb (Instr.carriesOpb_of_uses hu)).symm⟩

/-! ## The patterns of R83 -/

theorem opreqWord_inj {imm imm' : Len} {mode mode' opc opc' : BitVec 4} :
    opreqWord imm mode opc = opreqWord imm' mode' opc' ↔ imm = imm' ∧ mode = mode' ∧ opc = opc' := by
  constructor
  · intro h
    exact ⟨by simpa using congrArg imm24Field h, by simpa using congrArg modeField h, by simpa using congrArg opcField h⟩
  · rintro ⟨rfl, rfl, rfl⟩
    rfl

theorem opreqWord_and (imm imm' : Len) (mode mode' opc opc' : BitVec 4) :
    opreqWord imm mode opc &&& opreqWord imm' mode' opc' = opreqWord (imm &&& imm') (mode &&& mode') (opc &&& opc') := by
  simp only [opreqWord]
  rw [BitVec.and_append, BitVec.and_append]

/-- A mask and match pair, field by field. -/
theorem pattern_iff {w : Word} (imm imm' : Len) (mode mode' opc opc' : BitVec 4) :
    w &&& opreqWord imm mode opc = opreqWord imm' mode' opc' ↔
      imm24Field w &&& imm = imm' ∧ modeField w &&& mode = mode' ∧ opcField w &&& opc = opc' := by
  conv => lhs; lhs; rw [← opreqWord_fields w]
  rw [opreqWord_and, opreqWord_inj]

/-- The pairs of PULL and PUSH. -/
theorem rowPattern_iff {w v : Word} (mode opc : BitVec 4) (hv : v = opreqWord 0 mode opc) :
    w &&& 0x000000FF#32 = v ↔ ∃ imm, w = opreqWord imm mode opc := by
  rw [hv, show 0x000000FF#32 = opreqWord 0 (BitVec.allOnes 4) (BitVec.allOnes 4) from rfl, pattern_iff]
  simp only [BitVec.and_allOnes]
  constructor
  · rintro ⟨-, rfl, rfl⟩
    exact ⟨_, (opreqWord_fields w).symm⟩
  · rintro ⟨imm, rfl⟩
    simp

/-- `imm24` in the two parts WAIT_READY takes it in (R77). -/
theorem imm24Field_eq_append (w : Word) : imm24Field w = imm24High w ++ snoozeField w := by
  unfold imm24Field imm24High snoozeField
  rw [BitVec.extractLsb'_append_extractLsb'_eq_extractLsb' (by rfl)]

theorem imm24High_eq_zero_iff_and {w : Word} : imm24Field w &&& 0xFF0000#24 = 0 ↔ imm24High w = 0 := by
  rw [imm24Field_eq_append, show 0xFF0000#24 = BitVec.allOnes 8 ++ 0#16 from rfl, BitVec.and_append,
    BitVec.and_allOnes, BitVec.and_zero, show (0 : BitVec (8 + 16)) = 0#8 ++ 0#16 from rfl, BitVec.append_left_inj]
  rfl

/-- The pair of WAIT_READY. -/
theorem snoozePattern_iff {w v : Word} (mode opc : BitVec 4) (hv : v = opreqWord 0 mode opc) :
    w &&& 0xFF0000FF#32 = v ↔ ∃ ms : Millis, w = opreqWord ((0#8) ++ ms) mode opc := by
  rw [hv, show 0xFF0000FF#32 = opreqWord 0xFF0000#24 (BitVec.allOnes 4) (BitVec.allOnes 4) from rfl, pattern_iff,
    imm24High_eq_zero_iff_and]
  simp only [BitVec.and_allOnes]
  constructor
  · rintro ⟨h, rfl, rfl⟩
    exact ⟨snoozeField w, by rw [snooze_imm24 h, opreqWord_fields]⟩
  · rintro ⟨ms, rfl⟩
    simp

/-- The pairs of the operations without an immediate. -/
theorem fullPattern_iff {w v : Word} : w &&& 0xFFFFFFFF#32 = v ↔ w = v := by
  rw [show 0xFFFFFFFF#32 = BitVec.allOnes 32 from rfl, BitVec.and_allOnes]

/-- The must-be-zero bits of operand A of BB_DETECT. -/
theorem tagPattern_iff {a : Word} : a &&& 0xFFFFFF00#32 = 0 ↔ ∃ tag : Byte, a = (0#24) ++ tag := by
  rw [show 0xFFFFFF00#32 = opreqWord (BitVec.allOnes 24) 0 0 from rfl, show (0 : Word) = opreqWord 0 0 0 from rfl,
    pattern_iff, BitVec.and_allOnes]
  constructor
  · rintro ⟨h, -, -⟩
    exact ⟨_, (tagWord_back h).symm⟩
  · rintro ⟨tag, rfl⟩
    exact ⟨tagWord_high tag, by simp⟩

theorem encodes_iff {r : Request} {i : Instr} : Encodes r i ↔ r.opreq = (encode i).opreq ∧
    (i.carriesOpa = true → r.opa = (encode i).opa) ∧ (i.carriesOpb = true → r.opb = (encode i).opb) :=
  ⟨fun ⟨h, ha, hb⟩ => ⟨h, ha, hb⟩, fun ⟨h, ha, hb⟩ => ⟨h, ha, hb⟩⟩

/-- Settles O4: PULL, PUSH and WAIT_READY leave fields of OPREQ free, and the other rows fix the whole word. -/
theorem decodePatterns : Obligations.DecodePatterns := by
  unfold Obligations.DecodePatterns
  intro r
  simp only [decode_ok_iff, encodes_iff, encode, Instr.carriesOpa, Instr.carriesOpb, Instr.usesOpa, Instr.usesOpb,
    fullPattern_iff, tagPattern_iff]
  refine ⟨?_, ?_, ?_, ?_, ?_, ?_, ?_, ?_, ?_, ?_⟩
  · rw [rowPattern_iff (v := 1#32) 0 1 rfl]
    simp
  · rw [rowPattern_iff (v := 2#32) 0 2 rfl]
    simp
  · rw [snoozePattern_iff (v := 3#32) 0 3 rfl]
    simp
  all_goals simp [opreqWord]

/-- Settles O8, by evaluating the decoder on each word. -/
theorem specWordsDecode : Obligations.SpecWordsDecode := by
  unfold Obligations.SpecWordsDecode
  decide

/-! ## The operands of a request that decodes -/

/-- The tag of BB_DETECT as a number (R79). -/
theorem tagLow_toNat (w : Word) : (w.extractLsb' 0 8).toNat = w.toNat % 2 ^ 8 := by
  simp [BitVec.extractLsb'_toNat]

/-- Settles O6, from the words each operation is encoded in. -/
theorem operandAssembly : Obligations.OperandAssembly := by
  unfold Obligations.OperandAssembly
  intro r
  simp only [decode_ok_iff]
  refine ⟨fun len buf h => ?_, fun len buf h => ?_, fun ms h => ?_, fun buf page h => ?_, fun buf page h => ?_,
    fun tag h => ?_, fun off h => ?_⟩
  · exact ⟨by rw [h.opreq]; simp [encode, ← imm24Field_toNat], (h.opa rfl).symm⟩
  · exact ⟨by rw [h.opreq]; simp [encode, ← imm24Field_toNat], (h.opa rfl).symm⟩
  · rw [h.opreq, ← snoozeField_toNat]
    simp [encode]
  · exact ⟨by rw [h.opreq]; simp [encode, opreqWord], (h.opa rfl).symm, (h.opb rfl).symm⟩
  · exact ⟨by rw [h.opreq]; simp [encode, opreqWord], (h.opa rfl).symm, (h.opb rfl).symm⟩
  · rw [h.opa rfl, ← tagLow_toNat]
    simp [encode]
  · exact (h.opa rfl).symm

/-! ## Switches and ranges -/

theorem decodeAdmission_ok_iff {c : Config} {i : Instr} : decodeAdmission c i = .ok i ↔ i.wellFormed c = true := by
  unfold decodeAdmission Instr.wellFormed
  cases i.enabled c <;> cases i.inRange c <;> simp

theorem decodeRequest_of_ok {c : Config} {r : Request} {i : Instr} (h : decode r = .ok i) :
    decodeRequest c r = decodeAdmission c i := by
  simp only [decodeRequest, h]

theorem decodeRequest_encode (c : Config) (i : Instr) : decodeRequest c (encode i) = decodeAdmission c i :=
  decodeRequest_of_ok (decode_encode i)

theorem decodeRequest_of_error {c : Config} {r : Request} {e : Reject} (h : decode r = .error e) :
    decodeRequest c r = .error e := by
  simp only [decodeRequest, h]

/-- Settles O3: past its words an operation is judged by its switch, then by its ranges. -/
theorem wellFormedAccepted : Obligations.WellFormedAccepted := by
  unfold Obligations.WellFormedAccepted
  intro c i
  rw [decodeRequest_encode]
  refine ⟨decodeAdmission_ok_iff.mpr, fun he => ?_, fun he hr => ?_⟩
  · simp [decodeAdmission, he]
  · simp [decodeAdmission, he, hr]

theorem regionInBufmem_iff {c : Config} {length buffer : Nat} :
    regionInBufmem c length buffer = true ↔ buffer + length ≤ c.bufmemSize := by
  simp only [regionInBufmem, Bool.and_eq_true, decide_eq_true_eq]
  omega

/-- Settles O7, one operation at a time, by its range of R85. -/
theorem operandRanges : Obligations.OperandRanges := by
  unfold Obligations.OperandRanges
  intro c _
  simp only [decodeRequest_encode, decodeAdmission_ok_iff]
  refine ⟨fun len buf => ?_, fun len buf => ?_, fun buf page => ?_, fun buf page => ?_, fun off hon => ?_, fun i hi => ?_⟩
  · simp only [Instr.wellFormed, Instr.enabled, Instr.inRange, Bool.true_and, regionInBufmem_iff]
    omega
  · simp only [Instr.wellFormed, Instr.enabled, Instr.inRange, Bool.true_and, regionInBufmem_iff]
    omega
  · simp only [Instr.wellFormed, Instr.enabled, Instr.inRange, Bool.true_and, regionInBufmem_iff, Config.pageImage]
  · rw [Instr.wellFormed, Instr.enabled, Instr.inRange, Config.numPages]
    simp [or_iff_not_imp_left]
  · simp [Instr.wellFormed, Instr.enabled, Instr.inRange, hon, or_iff_not_imp_left]
  · cases i with
    | waitReady ms => rfl
    | readStatus => rfl
    | chipReset => rfl
    | allReset => rfl
    | bbDetect tag => rfl
    | _ => simp [Instr.opUnit] at hi

/-! ## The order of R83 -/

theorem decode_reservedOpcode_iff {r : Request} : decode r = .error .reservedOpcode ↔ ¬ IsRow r.opreq := by
  have hv := decode_verdict r
  generalize decode r = d at hv ⊢
  cases hv with
  | noRow row => simp [row]
  | _ row => simp [row]

theorem decode_mustBeZero_iff {r : Request} : decode r = .error .mustBeZero ↔ IsRow r.opreq ∧ FieldNotZero r := by
  have hv := decode_verdict r
  generalize decode r = d at hv ⊢
  cases hv with
  | accepted row zero words => simp [zero]
  | notZero row nonZero => simp [row, nonZero]
  | noRow row => simp [row]

/-- The steps (1) and (2) of R83 reject nothing for its switch or its ranges. -/
theorem decode_error {r : Request} {e : Reject} (h : decode r = .error e) : e = .reservedOpcode ∨ e = .mustBeZero := by
  have hv := decode_verdict r
  rw [h] at hv
  cases hv with
  | notZero row nonZero => exact .inr rfl
  | noRow row => exact .inl rfl

theorem exists_decode_iff {r : Request} : (∃ i, decode r = .ok i) ↔ IsRow r.opreq ∧ ¬ FieldNotZero r := by
  have hv := decode_verdict r
  generalize decode r = d at hv ⊢
  cases hv with
  | accepted row zero words => simp [row, zero]
  | notZero row nonZero => simp [nonZero]
  | noRow row => simp [row]

theorem decodeAdmission_error_iff {c : Config} {i : Instr} {e : Reject} : decodeAdmission c i = .error e ↔
    (i.enabled c = false ∧ e = .switchedOff) ∨ (i.enabled c = true ∧ i.inRange c = false ∧ e = .outOfRange) := by
  unfold decodeAdmission
  cases i.enabled c <;> cases i.inRange c <;> simp [eq_comm]

/-- A request is rejected by the steps (1) and (2) of R83, or by (3) and (4) on the operation it decodes to. -/
theorem decodeRequest_error_iff {c : Config} {r : Request} {e : Reject} : decodeRequest c r = .error e ↔
    decode r = .error e ∨ ∃ i, decode r = .ok i ∧ decodeAdmission c i = .error e := by
  unfold decodeRequest
  cases decode r with
  | error e' => simp
  | ok i => simp

theorem decodeRequest_reservedOpcode_iff {c : Config} {r : Request} :
    decodeRequest c r = .error .reservedOpcode ↔ ¬ IsRow r.opreq := by
  simp [decodeRequest_error_iff, decodeAdmission_error_iff, decode_reservedOpcode_iff]

theorem decodeRequest_mustBeZero_iff {c : Config} {r : Request} :
    decodeRequest c r = .error .mustBeZero ↔ IsRow r.opreq ∧ FieldNotZero r := by
  simp [decodeRequest_error_iff, decodeAdmission_error_iff, decode_mustBeZero_iff]

theorem decodeRequest_switchedOff_iff {c : Config} {r : Request} :
    decodeRequest c r = .error .switchedOff ↔ ∃ i, decode r = .ok i ∧ i.enabled c = false := by
  have hearly : decode r ≠ .error .switchedOff := fun h => by simpa using decode_error h
  simp [decodeRequest_error_iff, decodeAdmission_error_iff, hearly]

theorem decodeRequest_outOfRange_iff {c : Config} {r : Request} : decodeRequest c r = .error .outOfRange ↔
    ∃ i, decode r = .ok i ∧ i.enabled c = true ∧ i.inRange c = false := by
  have hearly : decode r ≠ .error .outOfRange := fun h => by simpa using decode_error h
  simp [decodeRequest_error_iff, decodeAdmission_error_iff, hearly]

/-- Only BB_PROBE can be switched off (R84). -/
theorem Encodes.enabled_eq_false_iff {r : Request} {i : Instr} (h : Encodes r i) {c : Config} :
    i.enabled c = false ↔ r.opreq.toNat % 16 = 9 ∧ c.badblockCheck = false := by
  rw [h.opreq, ← opcField_toNat]
  cases i with
  | bbProbe off => simp [Instr.enabled, encode]
  | _ => simp [Instr.enabled, encode]

/-- Settles O5: the steps (1) and (2) by decoding's verdict, (3) by the opcode of BB_PROBE, (4) by the operation. -/
theorem decodeOrder : Obligations.DecodeOrder := by
  unfold Obligations.DecodeOrder
  intro c r
  refine ⟨decodeRequest_reservedOpcode_iff, decodeRequest_mustBeZero_iff, ?_, decodeRequest_outOfRange_iff⟩
  rw [decodeRequest_switchedOff_iff]
  constructor
  · rintro ⟨i, hi, hoff⟩
    obtain ⟨row, zero, words⟩ := decode_ok hi
    exact ⟨row, zero, words.enabled_eq_false_iff.mp hoff⟩
  · rintro ⟨row, zero, hoff⟩
    obtain ⟨i, hi⟩ := exists_decode_iff.mpr ⟨row, zero⟩
    exact ⟨i, hi, (decode_ok_iff.mp hi).enabled_eq_false_iff.mpr hoff⟩

end Sys2Proof
end

section
/-! PROOFS. What a step does with a request: an accepted one is run, a refused one is answered (R75, R86, R87); and
what every operation leaves (R78, R202). -/

namespace Sys2Proof.Machine

/-! ## A request that is accepted -/

theorem launch_alone (i : Instr) (s : State) : launch i 0 s = .running i (accept s) := by
  rfl

/-- Settles O9: the request is issued, launched with no access overlapping it, and run. -/
theorem stepRunsDecodedInstr : Obligations.StepRunsDecodedInstr := by
  unfold Obligations.StepRunsDecodedInstr
  intro s w rest i hb hq hd hw ha hbHeld
  rw [step_writeOpreq hb hq, issue_wellFormed (s := writeOpreq w (takeAct rest s)) hd hw ha hbHeld, launch_alone]
  rfl

/-! ## A request that is refused -/

/-- The state after a refused request: the HOST's action taken, OPREQ written and RESP answered (R86). -/
def afterRefusal (w : Word) (rest : List HostAct) (s : State) : State :=
  { s with hostq := rest, port := { s.port with opreq := .wrote w, resp := .wrote 0x0000000F#32 } }

/-- The issue of a request is refused when the operation OPREQ alone names, if it names one that is switched on, has
its operand words and the request as a whole is rejected (R83, R86). -/
theorem issue_refused {s : State} {n : Nat}
    (h : ∀ j, decode ⟨s.port.opreq.val, 0, 0⟩ = .ok j → j.enabled s.cfg = true →
      operandsHeld j s = .ok () ∧ ∃ e, decodeRequest s.cfg (portRequest s) = .error e) :
    issue n s = .ended (.next (refuse s)) := by
  unfold issue
  split
  · rfl
  · next j hj =>
    split
    · next hon =>
      obtain ⟨hheld, e, he⟩ := h j hj hon
      simp only [hheld, he]
    · rfl

/-- A write of OPREQ whose request is refused. -/
theorem step_refused {s : State} {w : Word} {n : Nat} {rest : List HostAct} (hb : s.busy = false)
    (hq : s.hostq = .writeOpreq w n :: rest)
    (h : ∀ j, decode ⟨w, 0, 0⟩ = .ok j → j.enabled s.cfg = true →
      operandsHeld j s = .ok () ∧ ∃ e, decodeRequest s.cfg ⟨w, s.port.opa.val, s.port.opb.val⟩ = .error e) :
    step s = .next (afterRefusal w rest s) := by
  rw [step_writeOpreq hb hq, issue_refused (s := writeOpreq w (takeAct rest s)) h]
  rfl

theorem operandsHeld_ok {i : Instr} {s : State} (ha : i.usesOpa = true → s.port.opa.held = true)
    (hb : i.usesOpb = true → s.port.opb.held = true) : operandsHeld i s = .ok () := by
  unfold operandsHeld
  rw [if_neg (by simpa using ha), if_neg (by simpa using hb)]

/-- Settles O11: whatever OPREQ names has its operand words, and the request as a whole is rejected. -/
theorem refusedRequest : Obligations.RefusedRequest := by
  unfold Obligations.RefusedRequest
  intro s w n rest e hb hq hheld he
  refine step_refused hb hq fun j hj _ => ⟨?_, e, he⟩
  obtain ⟨ha, hbHeld⟩ := hheld j hj
  exact operandsHeld_ok ha hbHeld

/-- An operation whose opcode is 8 reads operand A alone (R77, R80). -/
theorem operandsHeld_of_opc8 {r : Request} {i : Instr} {s : State} (h : Encodes r i) (hopc : r.opreq.toNat % 16 = 8)
    (ha : s.port.opa.held = true) : operandsHeld i s = .ok () := by
  rw [h.opreq, ← opcField_toNat] at hopc
  refine operandsHeld_ok (fun _ => ha) fun hu => ?_
  cases i with
  | eccVerifyWrite buf page => simp [encode] at hopc
  | _ => simp [Instr.usesOpb] at hu

/-- Settles O12: OPREQ names no operation, or BB_PROBE switched off, or BB_DETECT with a tag above its byte. -/
theorem reservedRefused : Obligations.ReservedRefused := by
  unfold Obligations.ReservedRefused
  intro s w n rest hb hq hres
  refine step_refused hb hq fun j hj hon => ?_
  obtain ⟨row, zero, words⟩ := decode_ok hj
  have hprobe : ¬ (w.toNat % 16 = 9 ∧ s.cfg.badblockCheck = false) := by
    rw [← words.enabled_eq_false_iff, hon]
    simp
  have htag : w.toNat % 16 = 8 ∧ s.port.opa.held = true ∧ s.port.opa.val.toNat / 256 ≠ 0 := by
    by_contra htag
    simp only [hprobe, htag, or_false] at hres
    simp only [IsRow, FieldNotZero] at row zero
    omega
  obtain ⟨hopc, ha, hnz⟩ := htag
  exact ⟨operandsHeld_of_opc8 words hopc ha, .mustBeZero,
    decodeRequest_of_error (decode_mustBeZero_iff.mpr ⟨row, .inr (.inr ⟨hopc, hnz⟩)⟩)⟩

/-! ## What every operation leaves -/

/-- Settles O21, by what `exec_ended` says of every operation and the fields of the word written to RESP. -/
theorem everyOperationLeaves : Obligations.EveryOperationLeaves := by
  unfold Obligations.EveryOperationLeaves
  intro i s t h
  have he := exec_ended h
  obtain ⟨c, hc, herr, v, hresp⟩ := he.code
  refine ⟨⟨c, hc, herr, ?_⟩, he.port, he.busy, he.inRecovery, he.cfg, he.hostq⟩
  rw [hresp]
  exact ⟨rfl, respCode_respWord v c.bits, respMiddle_respWord v c.bits⟩

end Sys2Proof.Machine
end

section
/-! PROOFS. The Data Transfer Engine: how PULL and PUSH end, what they leave alone, and what the samples and the retry
budget do (R99 to R104, R206). -/

namespace Sys2Proof.Machine

/-! ## How an accepted transfer ends -/

/-- The result code `code` of a transfer whose loop ended in `u` with the history `es`: OK once every byte is moved, and
else what the sample that ended it early says (R99, R100). -/
structure TransferEnds (s : State) (dir : Dir) (len : Len) (mask : Word) (budget : Nat) (code : Code) (u : State)
    (es : List Event) (last : Nat) : Prop where
  run : DteRun s dir len budget u es last
  ended : code = .ok ∧ u.dte.cnt = len ∧ last = 0 ∨ u.dte.cnt.toNat < len.toNat ∧ last = 1 ∧ EndsShort s mask code u

/-- The transfers that end: PULL, and PUSH of bytes that hold values. Each comes with its direction, its ready bit and
its retry budget (R96, R98). -/
inductive Transfer (s : State) (len : Len) (buf : Word) : Instr → Dir → Word → Nat → Prop
  | pull : Transfer s len buf (.pull len buf) .rx s.cfg.intRxReady s.cfg.pullRetries
  | push (held : holds s buf.toNat len.toNat) :
    Transfer s len buf (.push len buf) .tx s.cfg.intTxReady s.cfg.pushRetries

/-- A transfer in range has a next state: that of its loop's end, with the result committed (R99, R103). -/
theorem Transfer.ends {s : State} {len : Len} {buf : Word} {i : Instr} {dir : Dir} {mask : Word} {budget : Nat}
    (h : Transfer s len buf i dir mask budget) (hwf : s.cfg.wf = true) (hrange : i.inRange s.cfg = true) :
    ∃ code u es last, exec i s = .next (commit code u.dte.cnt u) ∧
      TransferEnds s dir len mask budget code u es last := by
  cases h with
  | pull =>
    obtain ⟨code, u, es, last, hx, hrun, -, hend⟩ := execPull_spec (Config.wf_pullRetries hwf) hrange
    exact ⟨code, u, es, last, hx, hrun, hend⟩
  | push held =>
    obtain ⟨code, u, es, last, hx, hrun, -, hend⟩ := execPush_spec (Config.wf_pushRetries hwf) hrange held
    exact ⟨code, u, es, last, hx, hrun, hend⟩

theorem DteRun.port {s : State} {dir : Dir} {len : Len} {budget : Nat} {u : State} {es : List Event} {last : Nat}
    (h : DteRun s dir len budget u es last) : u.port = s.port := congrArg (·.2.1) h.kept

section
variable {s : State} {dir : Dir} {len : Len} {mask : Word} {budget : Nat} {code : Code} {u : State} {es : List Event}
  {last : Nat} (h : TransferEnds s dir len mask budget code u es last)
include h

/-- OK says that every byte was moved, and the two failures that some were not (R99). -/
theorem TransferEnds.code_iff_moved : (code = .ok ↔ u.dte.cnt = len) ∧
    (code = .ok ∨ (code = .transferShort ∨ code = .hardwareTimeout) ∧ u.dte.cnt.toNat < len.toNat) := by
  rcases h.ended with ⟨hok, hcnt, -⟩ | ⟨hlt, -, v, rest, -, -, hcode⟩
  · exact ⟨iff_of_true hok hcnt, .inl hok⟩
  · have hfail : code = .transferShort ∨ code = .hardwareTimeout := hcode.imp (·.1) (·.1)
    have hne : u.dte.cnt ≠ len := fun heq => by rw [heq] at hlt; omega
    exact ⟨iff_of_false (by rcases hfail with rfl | rfl <;> simp) hne, .inr ⟨hfail, hlt⟩⟩

/-- HardwareTimeout says that the budget is used up, by an idle sample more than there were delays (R101). -/
theorem TransferEnds.timeout_spent (hcode : code = .hardwareTimeout) : delaySum es = budget ∧
    regReadCountOf .interruptStatus es = (u.dte.cnt.toNat + 3) / 4 + budget + 1 := by
  have hretry := h.run.retry
  have hpolls := h.run.polls
  subst hcode
  rcases h.ended with ⟨hok, -⟩ | ⟨-, hlast, v, rest, -, -, hshort | ⟨-, -, hzero⟩⟩
  · simp at hok
  · simp at hshort
  · have hspent : delaySum es = budget := by simpa [hzero] using hretry
    exact ⟨hspent, by rw [hpolls, hspent, hlast, dteWords]⟩

/-- One sample for each word moved, one for each delay, and at most one more (R103). -/
theorem TransferEnds.polls_le : regReadCountOf .interruptStatus es ≤ (len.toNat + 3) / 4 + budget + 1 := by
  have hretry := h.run.retry
  have hpolls := h.run.polls
  have hcnt := h.run.cnt_le
  have hlast : last ≤ 1 := by rcases h.ended with ⟨-, -, h0⟩ | ⟨-, h1, -⟩ <;> omega
  rw [hpolls, dteWords]
  omega

end

theorem Code.eq_timeout_of_bits {c : Code} (h : c.bits = Code.hardwareTimeout.bits) : c = .hardwareTimeout := by
  cases c with
  | hardwareTimeout => rfl
  | _ => exact absurd h (by decide)

/-- Settles O26, by what the code of a transfer says of the bytes it moved. -/
theorem dteCompletion : Obligations.DteCompletion := by
  unfold Obligations.DteCompletion
  intro i len buf s hi hwf hrange
  obtain ⟨dir, mask, budget, htr⟩ : ∃ dir mask budget, Transfer s len buf i dir mask budget := by
    rcases hi with rfl | ⟨rfl, held⟩
    · exact ⟨_, _, _, .pull⟩
    · exact ⟨_, _, _, .push held⟩
  obtain ⟨code, u, es, last, hx, hend⟩ := htr.ends hwf hrange
  obtain ⟨hiff, hmoved⟩ := hend.code_iff_moved
  refine ⟨code, _, hx, rfl, ?_, rfl, hiff, hmoved⟩
  rw [← hend.run.port]
  rfl

/-- The premise by which O33 and O34 give a transfer its budget. -/
theorem exists_transfer {i : Instr} {len : Len} {buf : Word} {s : State} {budget : Nat}
    (h : (i = .pull len buf ∧ budget = s.cfg.pullRetries) ∨
      (i = .push len buf ∧ budget = s.cfg.pushRetries ∧ holds s buf.toNat len.toNat)) :
    ∃ dir mask, Transfer s len buf i dir mask budget := by
  rcases h with ⟨rfl, rfl⟩ | ⟨rfl, rfl, held⟩
  · exact ⟨_, _, .pull⟩
  · exact ⟨_, _, .push held⟩

/-- Settles O33: `dte_retry` counts the delays of the whole run, and HardwareTimeout ends it at 0. -/
theorem dteBudget : Obligations.DteBudget := by
  unfold Obligations.DteBudget
  intro i len buf s budget hi hwf hrange
  obtain ⟨dir, mask, htr⟩ := exists_transfer hi
  obtain ⟨code, u, es, last, hx, hend⟩ := htr.ends hwf hrange
  exact ⟨_, es, hx, hend.run.trace, hend.run.elapsed, hend.run.retry,
    fun herr => hend.timeout_spent (Code.eq_timeout_of_bits herr)⟩

/-- Settles O34, by the samples a run makes for words, delays and its end. -/
theorem dteSampleBound : Obligations.DteSampleBound := by
  unfold Obligations.DteSampleBound
  intro i len buf s budget hi hwf hrange
  obtain ⟨dir, mask, htr⟩ := exists_transfer hi
  obtain ⟨code, u, es, last, hx, hend⟩ := htr.ends hwf hrange
  exact ⟨_, es, hx, hend.run.trace, hend.polls_le⟩

/-! ## The frame -/

section
variable {s : State} {dir : Dir} {len : Len} {buf : Nat} {u : State} (h : DteFrame s dir len buf u)
include h

/-- The frame as one equation. -/
theorem DteFrame.eq : u = { s with
    dte := { len := len, cnt := u.dte.cnt, retry := u.dte.retry, dir := dir }
    elapsedUs := u.elapsedUs, bufmem := u.bufmem, nfc := u.nfc, trace := u.trace
    env := { s.env with reads := u.env.reads, drawn := u.env.drawn } } := by
  have hk := h.kept
  simp only [dteKept, Prod.mk.injEq] at hk
  obtain ⟨hcfg, hport, hbusy, hrec, herr, hfsm, hrsm, hecv, hbbd, hpath, hhost, hrereads, hoobs, -⟩ := hk
  rw [← hcfg, ← hport, ← hbusy, ← hrec, ← herr, ← hfsm, ← hrsm, ← hecv, ← hbbd, ← hpath, ← hhost, ← h.lenEq, ← h.dirEq]
  simp only [← hrereads, ← hoobs]

/-- Of the NFC registers a transfer touches INTERRUPT_STATUS and DATA alone (R104). -/
theorem DteFrame.nfc_get {r : NfcReg} (hist : r ≠ .interruptStatus) (hdata : r ≠ .data) :
    u.nfc.get r = s.nfc.get r := by
  have hk := h.kept
  simp only [dteKept, Prod.mk.injEq] at hk
  obtain ⟨-, -, -, -, -, -, -, -, -, -, -, -, -, hnfc⟩ := hk
  exact otherRegs_get hnfc hist hdata

end

/-- Settles O29, by the frame every turn of the loop keeps. -/
theorem dteChangesNothingElse : Obligations.DteChangesNothingElse := by
  unfold Obligations.DteChangesNothingElse
  intro i len buf s t hi hx
  rcases hi with rfl | rfl
  · obtain ⟨code, u, rfl, hu⟩ := DteFrame.ofFinishDte .ofPullWord hx
    refine ⟨?_, fun r => hu.nfc_get, hu.outside, by simp⟩
    rw [if_pos rfl]
    exact congrArg (commit code u.dte.cnt) hu.eq
  · obtain ⟨code, u, rfl, hu⟩ := DteFrame.ofFinishDte .ofPushWord hx
    refine ⟨?_, fun r => hu.nfc_get, hu.outside, fun _ => hu.pushed rfl⟩
    rw [if_neg (by simp)]
    exact congrArg (commit code u.dte.cnt) hu.eq

/-! ## The sample that ends a transfer early -/

/-- One sample, by its three cases (R100). -/
theorem dteSample_cases {mask : Word} {u t : State} {r : Option DteVerdict} (h : dteSample mask u = (r, t)) :
    t = (regRead .interruptStatus u).2 ∧
    (r = some .ready ∧ anySet (regRead .interruptStatus u).1 mask = true ∨
      r = some .done ∧ anySet (regRead .interruptStatus u).1 mask = false ∧
        istDone u.cfg (regRead .interruptStatus u).1 = true ∨
      r = none ∧ anySet (regRead .interruptStatus u).1 mask = false ∧
        istDone u.cfg (regRead .interruptStatus u).1 = false) := by
  obtain ⟨hr, rfl⟩ := Prod.mk.inj h
  refine ⟨rfl, ?_⟩
  subst hr
  by_cases hready : anySet (regRead .interruptStatus u).1 mask = true
  · simp [hready]
  · by_cases hdone : istDone u.cfg (regRead .interruptStatus u).1 = true
    · simp [hready, hdone]
    · simp [hready, hdone]

/-- The last event is a sample with the ready bit clear, and its `done` tells the failure (R100, R206 b). -/
def LastSampleTells (mask : Word) (code : Code) (t : State) : Prop :=
  ∃ v es, t.trace = .regRead .interruptStatus v :: es ∧ anySet v mask = false ∧
    (code = .transferShort ∧ istDone t.cfg v = true ∨ code = .hardwareTimeout ∧ istDone t.cfg v = false)

/-- A loop that ends with a failure ends with the sample that says why. -/
theorem dteLoop_early {mask : Word} {move : State → Except Fault State} {n : Nat} {s t : State} {code : Code}
    (h : dteLoop mask move n s = .ok (code, t)) (hne : code ≠ .ok) : LastSampleTells mask code t := by
  refine dteLoop_spec (P := fun _ _ => True) (Q := fun c t => c ≠ .ok → LastSampleTells mask c t)
    (fun _ _ hok => absurd rfl hok) ?_ trivial h hne
  rintro m u - r hr
  refine ⟨fun hnone _ => ?_, fun hdone _ => ?_, fun _ _ _ => trivial⟩
  · obtain ⟨w, hw⟩ := poll_none (hr.trans (Prod.ext hnone rfl))
    obtain ⟨ht, hready | hdone | ⟨-, hmask, hidle⟩⟩ := dteSample_cases hw
    · simp at hready
    · simp at hdone
    · exact ⟨_, w.trace, by simp [ht], hmask, .inr ⟨rfl, by simpa [ht] using hidle⟩⟩
  · obtain ⟨w, hw⟩ := poll_some (hr.trans (Prod.ext hdone rfl))
    obtain ⟨ht, hready | ⟨-, hmask, hset⟩ | hnone⟩ := dteSample_cases hw
    · simp at hready
    · exact ⟨_, w.trace, by simp [ht], hmask, .inl ⟨rfl, by simpa [ht] using hset⟩⟩
    · simp at hnone

/-- The same of the operation as a whole, by its result in `err`. -/
theorem finishDte_early {mask : Word} {move : State → Except Fault State} {n : Nat} {s₀ t : State}
    (h : finishDte (dteLoop mask move n s₀) = .next t) (herr : t.err ≠ 0) :
    ∃ v es, t.trace = .regRead .interruptStatus v :: es ∧ v &&& mask = 0 ∧
      (t.err = Code.transferShort.bits ↔ v &&& t.cfg.intDone ≠ 0) ∧
      (t.err = Code.hardwareTimeout.bits ↔ v &&& t.cfg.intDone = 0) := by
  obtain ⟨code, u, hloop, rfl⟩ := finishDte_next h
  have hne : code ≠ .ok := by rintro rfl; exact herr rfl
  have htold : Code.transferShort.bits ≠ Code.hardwareTimeout.bits := by decide
  obtain ⟨v, es, htrace, hmask, ⟨rfl, hdone⟩ | ⟨rfl, hdone⟩⟩ := dteLoop_early hloop hne
  · have hset : v &&& u.cfg.intDone ≠ 0 := anySet_iff.mp hdone
    exact ⟨v, es, htrace, anySet_iff_not.mp hmask, iff_of_true rfl hset, iff_of_false htold hset⟩
  · have hclear : v &&& u.cfg.intDone = 0 := anySet_iff_not.mp hdone
    exact ⟨v, es, htrace, anySet_iff_not.mp hmask, iff_of_false htold.symm (not_not_intro hclear),
      iff_of_true rfl hclear⟩

/-- Settles O32, by the last sample of the loop; the configuration is that of the start. -/
theorem dteEarlyEnd : Obligations.DteEarlyEnd := by
  unfold Obligations.DteEarlyEnd
  intro i len buf s t ready hi _ _ hx herr
  rw [← (exec_ended hx).cfg]
  rcases hi with ⟨rfl, hready⟩ | ⟨rfl, hready⟩ <;> rw [hready]
  · exact finishDte_early hx herr
  · exact finishDte_early hx herr

/-! ## The first sample -/

/-- A word that is moved counts its bytes, changes no other element of the DTE and adds to the history (R96, R98). -/
structure MovesWord (move : State → Except Fault State) : Prop where
  dte : ∀ {u t}, move u = .ok t → t.dte = { u.dte with cnt := u.dte.cnt + BitVec.ofNat 24 (dteChunk u.dte) }
  timed : ∀ {u t}, move u = .ok t → Timed 0 u t

theorem movesWord_pullWord (buf : Nat) : MovesWord (pullWord buf) where
  dte := by
    intro u t h
    unfold pullWord at h
    simp only at h
    split at h
    · simp at h
    · next v hv =>
      obtain ⟨-, rfl⟩ := memWrites_ok hv
      obtain rfl := Except.ok.inj h
      simp
  timed := .ofPullWord

theorem movesWord_pushWord (buf : Nat) : MovesWord (pushWord buf) where
  dte := fun h => (pushWord_ok h).2.2.2
  timed := .ofPushWord

/-- The loop that runs a transfer (R96, R98). -/
theorem Transfer.loop {s : State} {len : Len} {buf : Word} {i : Instr} {dir : Dir} {mask : Word} {budget : Nat}
    (h : Transfer s len buf i dir mask budget) : ∃ move, MovesWord move ∧
      exec i s = finishDte (dteLoop mask move (dteWords len.toNat) (startDte dir len budget s)) := by
  cases h with
  | pull => exact ⟨_, movesWord_pullWord buf.toNat, rfl⟩
  | push held => exact ⟨_, movesWord_pushWord buf.toNat, rfl⟩

theorem Transfer.budget_lt {s : State} {len : Len} {buf : Word} {i : Instr} {dir : Dir} {mask : Word} {budget : Nat}
    (h : Transfer s len buf i dir mask budget) (hwf : s.cfg.wf = true) : budget < 2 ^ 32 := by
  cases h with
  | pull => exact Config.wf_pullRetries hwf
  | push held => exact Config.wf_pushRetries hwf

section
variable {mask : Word} {move : State → Except Fault State} {n : Nat} {u : State}
  (hclear : anySet (regRead .interruptStatus u).1 mask = false)
include hclear

/-- A sample with `done` alone ends the loop (R100). -/
theorem dteLoop_done (hdone : istDone u.cfg (regRead .interruptStatus u).1 = true) :
    dteLoop mask move (n + 1) u = .ok (.transferShort, (regRead .interruptStatus u).2) := by
  have hs : dteSample mask u = (some .done, (regRead .interruptStatus u).2) := by simp [dteSample, hclear, hdone]
  have hp : ∀ m, poll (dteSample mask) setDteRetry m u = (some .done, (regRead .interruptStatus u).2) := by
    intro m
    cases m <;> simp [poll, hs]
  simp only [dteLoop, hp]

/-- An idle sample with nothing left of the budget ends the loop (R100, R101). -/
theorem dteLoop_late (hidle : istDone u.cfg (regRead .interruptStatus u).1 = false) (hretry : u.dte.retry.toNat = 0) :
    dteLoop mask move (n + 1) u = .ok (.hardwareTimeout, (regRead .interruptStatus u).2) := by
  have hs : dteSample mask u = (none, (regRead .interruptStatus u).2) := by simp [dteSample, hclear, hidle]
  simp only [dteLoop, hretry, poll, hs]

end

section
variable {mask : Word} {move : State → Except Fault State} (hmove : MovesWord move)
include hmove

/-- A word that is moved counts its bytes without overflow, and the count stays within the length. -/
theorem MovesWord.cnt {u t : State} (h : move u = .ok t) (hle : u.dte.cnt.toNat ≤ u.dte.len.toNat) :
    t.dte.len = u.dte.len ∧ t.dte.cnt.toNat = u.dte.cnt.toNat + min 4 (u.dte.len.toNat - u.dte.cnt.toNat) := by
  have hlt := u.dte.len.isLt
  rw [hmove.dte h]
  refine ⟨rfl, ?_⟩
  simp only [dteChunk, BitVec.toNat_add, BitVec.toNat_ofNat]
  omega

/-- No turn of the loop takes a byte back. -/
theorem MovesWord.cnt_le {n : Nat} {u t : State} {code : Code} (hle : u.dte.cnt.toNat ≤ u.dte.len.toNat)
    (h : dteLoop mask move n u = .ok (code, t)) : u.dte.cnt.toNat ≤ t.dte.cnt.toNat := by
  refine dteLoop_spec (P := fun _ w => w.dte.cnt.toNat ≤ w.dte.len.toNat ∧ u.dte.cnt.toNat ≤ w.dte.cnt.toNat)
    (Q := fun _ w => u.dte.cnt.toNat ≤ w.dte.cnt.toNat) (fun _ hw => hw.2) ?_ ⟨hle, le_rfl⟩ h
  rintro m w ⟨hwle, huw⟩ r rfl
  obtain ⟨es, idle, hp, -, -⟩ := dtePoll_spec mask w
  have hlen : (poll (dteSample mask) setDteRetry w.dte.retry.toNat w).2.dte.len = w.dte.len := by rw [hp.dte]
  have hcnt : (poll (dteSample mask) setDteRetry w.dte.retry.toNat w).2.dte.cnt = w.dte.cnt := by rw [hp.dte]
  refine ⟨fun _ => by rwa [hcnt], fun _ => by rwa [hcnt], fun _ v hv => ?_⟩
  obtain ⟨hvlen, hvcnt⟩ := hmove.cnt hv (by rwa [hlen, hcnt])
  rw [hvlen, hvcnt, hlen, hcnt]
  omega

/-- The first sample sees the ready bit: the loop goes on after a word (R100). -/
theorem MovesWord.first_ready {n : Nat} {u t : State} {code : Code} (hle : u.dte.cnt.toNat ≤ u.dte.len.toNat)
    (hready : anySet (regRead .interruptStatus u).1 mask = true) (h : dteLoop mask move (n + 1) u = .ok (code, t)) :
    ∃ fs, t.trace = fs ++ .regRead .interruptStatus (regRead .interruptStatus u).1 :: u.trace ∧
      u.dte.cnt.toNat + min 4 (u.dte.len.toNat - u.dte.cnt.toNat) ≤ t.dte.cnt.toNat := by
  rw [dteLoop_ready hready] at h
  split at h
  · simp at h
  · next w hw =>
    obtain ⟨hlen, hcnt⟩ := hmove.cnt hw (by simpa using hle)
    obtain ⟨fs, htrace, -⟩ := (hmove.timed hw).trans_zero (.ofDteLoop hmove.timed h)
    have hlast := hmove.cnt_le (by rw [hlen, hcnt]; simp only [regRead_dte]; omega) h
    simp only [regRead_dte] at hcnt
    exact ⟨fs, by simpa using htrace, by omega⟩

/-- The first sample is idle, within the budget: the loop goes on after a delay (R100, R101). -/
theorem MovesWord.first_idle {n m : Nat} {u t : State} {code : Code}
    (hclear : anySet (regRead .interruptStatus u).1 mask = false)
    (hidle : istDone u.cfg (regRead .interruptStatus u).1 = false) (hretry : u.dte.retry.toNat = m + 1)
    (h : dteLoop mask move (n + 1) u = .ok (code, t)) :
    ∃ fs, t.trace = fs ++ .delay 1 :: .regRead .interruptStatus (regRead .interruptStatus u).1 :: u.trace := by
  rw [dteLoop_idle hclear hidle hretry] at h
  obtain ⟨fs, htrace, -⟩ := Timed.ofDteLoop hmove.timed h
  exact ⟨fs, by simpa using htrace⟩

end

/-- What the first sample `v` lets a loop do that ended in `t` with `code`, after the events `fs` (R100). -/
inductive FirstSample (mask : Word) (u : State) (v : Word) (t : State) : Code → List Event → Prop
  | ready {code : Code} {fs : List Event} (set : v &&& mask ≠ 0)
      (moved : u.dte.cnt.toNat + min 4 (u.dte.len.toNat - u.dte.cnt.toNat) ≤ t.dte.cnt.toNat) :
      FirstSample mask u v t code fs
  | done (clear : v &&& mask = 0) (set : v &&& u.cfg.intDone ≠ 0) (kept : t.dte = u.dte) :
      FirstSample mask u v t .transferShort []
  | late (clear : v &&& mask = 0) (idle : v &&& u.cfg.intDone = 0) (spent : u.dte.retry.toNat = 0)
      (kept : t.dte = u.dte) : FirstSample mask u v t .hardwareTimeout []
  | idle {code : Code} (gs : List Event) (clear : v &&& mask = 0) (idle : v &&& u.cfg.intDone = 0)
      (left : 0 < u.dte.retry.toNat) : FirstSample mask u v t code (gs ++ [.delay 1])

/-- The first sample of a loop with a word to move is one of these. -/
theorem MovesWord.firstSample {mask : Word} {move : State → Except Fault State} (hmove : MovesWord move) {n : Nat}
    {u t : State} {code : Code} {v : Word} (hv : (regRead .interruptStatus u).1 = v)
    (hle : u.dte.cnt.toNat ≤ u.dte.len.toNat) (h : dteLoop mask move (n + 1) u = .ok (code, t)) :
    ∃ fs, t.trace = fs ++ .regRead .interruptStatus v :: u.trace ∧ FirstSample mask u v t code fs := by
  subst hv
  by_cases hready : anySet (regRead .interruptStatus u).1 mask = true
  · obtain ⟨fs, htrace, hmoved⟩ := hmove.first_ready hle hready h
    exact ⟨fs, htrace, .ready (anySet_iff.mp hready) hmoved⟩
  rw [Bool.not_eq_true] at hready
  have hclear := anySet_iff_not.mp hready
  by_cases hdone : istDone u.cfg (regRead .interruptStatus u).1 = true
  · rw [dteLoop_done hready hdone] at h
    obtain ⟨rfl, rfl⟩ := Prod.mk.inj (Except.ok.inj h)
    exact ⟨[], by simp, .done hclear (anySet_iff.mp hdone) (by simp)⟩
  rw [Bool.not_eq_true] at hdone
  have hidle := anySet_iff_not.mp hdone
  rcases hretry : u.dte.retry.toNat with _ | m
  · rw [dteLoop_late hready hdone hretry] at h
    obtain ⟨rfl, rfl⟩ := Prod.mk.inj (Except.ok.inj h)
    exact ⟨[], by simp, .late hclear hidle hretry (by simp)⟩
  · obtain ⟨gs, htrace⟩ := hmove.first_idle hready hdone hretry h
    exact ⟨gs ++ [.delay 1], by simpa using htrace, .idle gs hclear hidle (by omega)⟩

/-- A transfer of at least one byte, by its first sample. -/
theorem Transfer.firstSample {s : State} {len : Len} {buf : Word} {i : Instr} {dir : Dir} {mask : Word} {budget : Nat}
    (h : Transfer s len buf i dir mask budget) (hwf : s.cfg.wf = true) (hrange : i.inRange s.cfg = true)
    (hlen : 0 < len.toNat) {v : Word} {vs : List Word} (hreads : s.env.reads = v :: vs) :
    ∃ code u fs, exec i s = .next (commit code u.dte.cnt u) ∧
      u.trace = fs ++ .regRead .interruptStatus v :: s.trace ∧
      FirstSample mask (startDte dir len budget s) v u code fs := by
  obtain ⟨move, hmove, hexec⟩ := h.loop
  obtain ⟨_, _, _, _, hx, -⟩ := h.ends hwf hrange
  obtain ⟨code, u, hloop, heq⟩ := finishDte_next (hexec.symm.trans hx)
  obtain ⟨n, hn⟩ := Nat.exists_eq_succ_of_ne_zero (dteWords_ne_zero hlen)
  rw [hn] at hloop
  have hv : (regRead .interruptStatus (startDte dir len budget s)).1 = v := by
    rw [regRead_cons (s := startDte dir len budget s) hreads]
  obtain ⟨fs, htrace, hfirst⟩ := hmove.firstSample hv (by simp) hloop
  exact ⟨code, u, fs, heq ▸ hx, htrace, hfirst⟩

/-- Settles O31, by the cases of the first sample. -/
theorem dteSamplePriority : Obligations.DteSamplePriority := by
  unfold Obligations.DteSamplePriority
  intro i len buf s ready budget v vs hi hwf hrange hlen hreads
  obtain ⟨dir, htr⟩ : ∃ dir, Transfer s len buf i dir ready budget := by
    rcases hi with ⟨rfl, rfl, rfl⟩ | ⟨rfl, rfl, rfl, held⟩
    · exact ⟨_, .pull⟩
    · exact ⟨_, .push held⟩
  have hretry : (startDte dir len budget s).dte.retry.toNat = budget := Nat.mod_eq_of_lt (htr.budget_lt hwf)
  obtain ⟨code, u, fs, hx, htrace, hfirst⟩ := htr.firstSample hwf hrange hlen hreads
  refine ⟨_, fs.reverse, hx, by simp [history, htrace], ?_⟩
  cases hfirst with
  | ready hset hmoved => exact ⟨fun _ => by simpa using hmoved, fun h => absurd h hset, fun h => absurd h hset⟩
  | done hclear hset hkept =>
    exact ⟨fun h => absurd hclear h, fun _ _ => ⟨rfl, by simp [hkept]⟩, fun _ h => absurd h hset⟩
  | late hclear hidle hspent hkept =>
    exact ⟨fun h => absurd hclear h, fun _ h => absurd hidle h,
      fun _ _ => .inl ⟨hretry.symm.trans hspent, rfl, by simp [hkept]⟩⟩
  | idle gs hclear hidle hleft =>
    exact ⟨fun h => absurd hclear h, fun _ h => absurd hidle h,
      fun _ _ => .inr ⟨hretry ▸ hleft, gs.reverse, by simp⟩⟩

/-! ## Length 0 -/

/-- A loop without a word to move (R102). -/
theorem finishDte_zero (mask : Word) (move : State → Except Fault State) (dir : Dir) (budget : Nat) (s : State) :
    finishDte (dteLoop mask move (dteWords (0 : Len).toNat) (startDte dir 0 budget s)) = .next { s with
      dte := { len := 0, cnt := 0, retry := BitVec.ofNat 32 budget, dir := dir }
      err := 0, busy := false, port := { s.port with resp := .wrote 0x00000000#32 } } := by
  have hresp : respWord 0 Code.ok.bits = 0x00000000#32 := by decide
  rw [← hresp]
  rfl

/-- Settles O30: the loop has no word to move, and the range of R85 is that of the buffer alone. -/
theorem dteZeroLength : Obligations.DteZeroLength := by
  unfold Obligations.DteZeroLength
  intro buf s
  refine ⟨finishDte_zero s.cfg.intRxReady (pullWord buf.toNat) .rx s.cfg.pullRetries s,
    finishDte_zero s.cfg.intTxReady (pushWord buf.toNat) .tx s.cfg.pushRetries s, fun hbuf => ?_⟩
  simp only [decodeRequest_encode, decodeAdmission_ok_iff, Instr.wellFormed, Instr.enabled, Instr.inRange, Bool.true_and,
    regionInBufmem_iff]
  exact ⟨hbuf, hbuf⟩

end Sys2Proof.Machine
end

section
/-! PROOFS. The Readiness State Machine, whatever ENV answers: how its operations end, what they leave alone, that one
recovery runs, and how many registers they read (R112, R121, R124). -/

namespace Sys2Proof.Machine

/-! ## Flag tests as equations on masks (R35, R36, R39) -/

section
variable {c : Config}

theorem istDone_iff {v : Word} : istDone c v = true ↔ v &&& c.intDone ≠ 0 := anySet_iff

theorem istDone_iff_not {v : Word} : istDone c v = false ↔ v &&& c.intDone = 0 := anySet_iff_not

theorem istRxReady_iff_not {v : Word} : istRxReady c v = false ↔ v &&& c.intRxReady = 0 := anySet_iff_not

theorem statusDevReady_iff {v : Word} : statusDevReady c v = true ↔ v &&& c.stDevReady ≠ 0 := anySet_iff

theorem statusDevReady_iff_not {v : Word} : statusDevReady c v = false ↔ v &&& c.stDevReady = 0 := anySet_iff_not

theorem statusCtrlBusy_iff {v : Word} : statusCtrlBusy c v = true ↔ v &&& c.stCtrlBusy ≠ 0 := anySet_iff

theorem statusCtrlBusy_iff_not {v : Word} : statusCtrlBusy c v = false ↔ v &&& c.stCtrlBusy = 0 := anySet_iff_not

theorem sbFails_iff {sb : Byte} : sbFails c sb = true ↔ sb &&& c.sbFail ≠ 0 := anySet_iff

theorem sbFails_iff_not {sb : Byte} : sbFails c sb = false ↔ sb &&& c.sbFail = 0 := anySet_iff_not

theorem sbIsReady_iff {sb : Byte} : sbIsReady c sb = true ↔ sb &&& c.sbReady ≠ 0 := anySet_iff

theorem sbIsReady_iff_not {sb : Byte} : sbIsReady c sb = false ↔ sb &&& c.sbReady = 0 := anySet_iff_not

end

/-! ## How an RSM operation ends -/

/-- What holds of the return `r` of an RSM operation's procedure from `s` before it is committed. -/
structure RsmReturns (s : State) (r : RsmReturn) : Prop where
  frame : RsmFrame s r.st
  agrees : r.Agrees s.cfg
  nfc : NfcKept s.cfg s r.st
  once : s.cfg.bufClearDone.reg ≠ .control → ReadsControl s.cfg 1 s r.st

/-- Each RSM operation commits the return of its procedure (R115, R118, R122, R123). -/
theorem exec_rsm_returns {i : Instr} (hi : i.opUnit = .rsm) (s : State) :
    ∃ r, exec i s = .next (commitRsm r.code r.sb r.st) ∧ RsmReturns s r := by
  cases i with
  | waitReady ms =>
    exact ⟨_, rfl, .ofWaitReady .ofRecovery ms s, waitReady_agrees .ofRecovery ms s, .ofWaitReady .ofRecovery ms s,
      fun hb => .ofWaitReady (.ofAllReset hb) ms s⟩
  | readStatus =>
    exact ⟨_, rfl, .ofReadStatus .ofRecovery s, readStatus_agrees .ofRecovery s, .ofReadStatus .ofRecovery s,
      fun hb => .ofReadStatus (.ofAllReset hb) s⟩
  | chipReset =>
    exact ⟨_, rfl, .ofChipReset .ofRecovery s, chipReset_agrees .ofRecovery s, .ofChipReset .ofRecovery s,
      fun hb => .ofChipReset (.ofAllReset hb) s⟩
  | allReset => exact ⟨_, rfl, .ofAllReset s, allReset_agrees s, .ofAllReset s, fun hb => .ofAllReset hb s⟩
  | _ => exact absurd hi (by simp [Instr.opUnit])

theorem RsmFrame.port {s t : State} (h : RsmFrame s t) : t.port = s.port := congrArg (·.2.1) h.kept

/-- Settles O36: the code, the byte and `fsm` of the procedure's return agree, and the commit writes them. -/
theorem rsmCompletion : Obligations.RsmCompletion := by
  unfold Obligations.RsmCompletion
  intro i s hi
  obtain ⟨r, hx, hr⟩ := exec_rsm_returns hi s
  refine ⟨r.code, r.sb, _, hx, rfl, rfl, by rw [← hr.frame.port]; rfl, rfl, ?_⟩
  rw [← sbFails_iff, ← sbFails_iff_not]
  exact hr.agrees

/-- Settles O38: the frame of the procedures, and the registers they touch. -/
theorem rsmChangesNothingElse : Obligations.RsmChangesNothingElse := by
  unfold Obligations.RsmChangesNothingElse
  intro i s t hi h
  obtain ⟨r, hx, hr⟩ := exec_rsm_returns hi s
  obtain rfl := Host.Outcome.next.inj (hx.symm.trans h)
  refine ⟨?_, (hr.nfc rfl).2⟩
  have heq := hr.frame.eq
  generalize r.st = u at heq ⊢
  rw [heq]
  rfl

/-- Settles O49: AllReset reads CONTROL once, and the rest of an RSM operation does not read it. -/
theorem recoveryOnce : Obligations.RecoveryOnce := by
  unfold Obligations.RecoveryOnce
  intro i s t hi hb h
  obtain ⟨r, hx, hr⟩ := exec_rsm_returns hi s
  obtain rfl := Host.Outcome.next.inj (hx.symm.trans h)
  obtain ⟨es, htrace, -⟩ := hr.frame.trace
  have hreads : controlReads r.st ≤ controlReads s + 1 := (hr.once hb rfl).2
  refine ⟨es, htrace, ?_⟩
  simp only [controlReads, regReadCountOf, htrace, List.countP_append] at hreads ⊢
  omega

/-! ## Register reads -/

theorem readCost_append {s t : State} {es : List Event} (h : t.trace = es ++ s.trace) :
    readCost t = readCost s + regReadCount es := by
  simp only [readCost, regReadCount, h, List.countP_append]
  omega

theorem retryBudget_zero (c : Config) : retryBudget c 0 = c.retriesPerMs := by simp [retryBudget]

/-- Settles O50, by the cost of each operation's procedure. -/
theorem rsmReadBounds : Obligations.RsmReadBounds := by
  unfold Obligations.RsmReadBounds
  intro i s t h status wait inner recoveryBound
  have hwait : ∀ b, wait b = waitReads s.cfg b := fun _ => rfl
  have hbound : recoveryBound = recoveryReads s.cfg := by
    rw [recoveryReads, retryBudget_zero, Nat.mul_comm 2]
    rfl
  have hinner : inner = waitReads s.cfg (retryBudget s.cfg 0) := by
    rw [retryBudget_zero]
    exact hwait _
  have hrec : ∀ u, u.cfg = s.cfg → readCost (recovery u) ≤ readCost u + recoveryReads s.cfg := recovery_cost
  obtain ⟨-, ⟨es, htrace, -⟩, -⟩ := exec_timed h
  have hcount : ∀ {n}, readCost t ≤ readCost s + n → regReadCount es ≤ n := fun hn => by
    have := readCost_append htrace
    omega
  refine ⟨es, htrace, ?_, ?_, ?_, ?_⟩
  · rintro ms rfl
    obtain rfl := Host.Outcome.next.inj h
    rw [hwait, hbound]
    exact hcount (Nat.add_assoc .. ▸ waitReady_cost .ofRecovery hrec ms rfl)
  · rintro rfl
    obtain rfl := Host.Outcome.next.inj h
    rw [hbound]
    exact hcount (Nat.add_assoc .. ▸ readStatus_cost hrec rfl)
  · rintro rfl
    obtain rfl := Host.Outcome.next.inj h
    rw [hinner, hbound]
    exact hcount (Nat.add_assoc .. ▸ chipReset_cost .ofRecovery hrec rfl)
  · rintro rfl
    obtain rfl := Host.Outcome.next.inj h
    rw [hbound]
    exact hcount (allReset_cost s)

end Sys2Proof.Machine
end

section
/-! PROOFS. The status read and READ_STATUS on scripted answers of ENV (R116 to R118, R208, R209). -/

namespace Sys2Proof

section
variable {c : Config} (h : c.wf = true)
include h

theorem Config.wf_statusRetries : c.statusRetries < 2 ^ 32 := by
  have := Config.wf_budgets h
  simp only [Config.budgetsWf, Bool.and_eq_true, decide_eq_true_eq] at this
  exact this.1.2

theorem Config.wf_resetRetries : c.resetRetries < 2 ^ 32 := by
  have := Config.wf_budgets h
  simp only [Config.budgetsWf, Bool.and_eq_true, decide_eq_true_eq] at this
  exact this.2

end

end Sys2Proof

namespace Sys2Proof.Machine

theorem Ran.port {s t : State} {es : List Event} {rest : List Word} (h : Ran s t es rest) : t.port = s.port :=
  congrArg (·.2.1) h.kept

theorem Ran.reads {s t : State} {es : List Event} {rest : List Word} (h : Ran s t es rest) : t.env.reads = rest := by
  rw [h.env]

/-- Between two states the RSM ran, and its `rsm` elements are now `r`. -/
theorem Ran.eq_of_rsm {s t : State} {es : List Event} {rest : List Word} {r : Rsm} (h : Ran s t es rest)
    (hrsm : t.rsm = r) :
    t = { s with fsm := t.fsm, rsm := { r with statusByte := s.rsm.statusByte }, elapsedUs := t.elapsedUs,
                 nfc := t.nfc, trace := t.trace, fsmPath := t.fsmPath, env := { s.env with reads := rest } } := by
  subst hrsm
  exact h.eq

/-! ## A byte that arrives -/

/-- The code a status byte alone decides (R111). -/
def byteCode (c : Config) (sb : Byte) : Code := if sbFails c sb then .deviceFail else .ok

/-- What a caller sees of an operation that ended with a status byte (R111, R112). -/
theorem commitRsm_byte {c : Config} {sb : Byte} {u : State} (hf : u.fsm = if sbFails c sb then .fail else .ok) :
    (sb &&& c.sbFail = 0 → (commitRsm (byteCode c sb) sb u).fsm = .ok ∧
      (commitRsm (byteCode c sb) sb u).port.resp = .wrote (respWord (sb.setWidth 24) Code.ok.bits)) ∧
    (sb &&& c.sbFail ≠ 0 → (commitRsm (byteCode c sb) sb u).fsm = .fail ∧
      (commitRsm (byteCode c sb) sb u).port.resp = .wrote (respWord (sb.setWidth 24) Code.deviceFail.bits)) := by
  rw [← sbFails_iff, ← sbFails_iff_not]
  constructor <;> intro h <;> simp [byteCode, h, hf]

/-- Settles O39, by the scripted status read and the classification of its byte. -/
theorem readStatusByte : Obligations.ReadStatusByte := by
  unfold Obligations.ReadStatusByte
  intro s q rest hwf ⟨hidle, hready, hlen⟩ hreads
  obtain ⟨u, hu, hran, hrsm, hfsm⟩ := readStatus_found recovery (w := q.data) (rest := rest)
    (Config.wf_statusRetries hwf) (by simpa [StatusRound.answers] using hreads) hidle hready hlen
  refine ⟨commitRsm (byteCode s.cfg (wordByte q.data 0)) (wordByte q.data 0) u, congrArg finishRsm hu, ?_,
    hran.reads, ?_, ?_, commitRsm_byte hfsm⟩
  · exact hran.hist
  · rw [commitRsm_eq, hran.elapsed]
    simp [delaySum_append, delaySum_statusReadEvents, delaySum_idleSamples, delaySum]
  · rw [commitRsm_eq, hrsm]

/-! ## A byte that does not arrive -/

/-- ReadStatus whose byte does not arrive: the recovery, then HardwareTimeout with FAIL_BYTE (R116, R117). -/
theorem readStatus_late {recover : State → State} (hrec : ∀ s, RsmFrame s (recover s)) {s : State} {vs : List Word}
    {v : Word} {rest : List Word} (hb : s.cfg.statusRetries < 2 ^ 32) (hs : s.env.reads = vs ++ v :: rest)
    (hidle : ∀ x ∈ vs, istRxReady s.cfg x = false) (hv : istRxReady s.cfg v = false)
    (hn : vs.length = s.cfg.statusRetries) :
    ∃ u, (readStatusRaw recover s).timedOut = true ∧
      readStatus recover s = ⟨.hardwareTimeout, s.cfg.failByte, setFsm .fail (recoverOnce recover u)⟩ ∧
      Ran s u (statusReadEvents s.cfg ++ idleSamples .interruptStatus vs ++ [.regRead .interruptStatus v]) rest ∧
      u.rsm = { s.rsm with aux := 0 } ∧ u.fsm = .statusRead ∧ u.fsmPath = .statusRead :: s.fsmPath := by
  obtain ⟨u, hu, hran, hfields⟩ := readStatusRaw_late recover hb hs hidle hv hn
  refine ⟨u, by rw [hu], ?_, hran, hfields⟩
  unfold readStatus
  rw [hu]
  simp only [classify, if_true, returnTimeout, (RsmFrame.ofRecoverOnce hrec u).cfg, hran.cfg]

/-- The completion of ALL_RESET from `u`, which a recovery from `u` runs but for its result; `u` itself where a recovery
is running already (R121). -/
def recovered (u : State) : State :=
  if u.inRecovery then u else commitRsm (allReset u).code (allReset u).sb (allReset u).st

theorem recovered_running {u : State} (h : u.inRecovery = true) : recovered u = u := if_pos h

theorem recovered_idle {u : State} (h : u.inRecovery = false) : exec .allReset u = .next (recovered u) := by
  rw [recovered, if_neg (by simp [h])]
  rfl

theorem history_recovered (u : State) : history (recovered u) = history (recoverOnce recovery u) := by
  unfold recovered recoverOnce
  split <;> rfl

/-- The result of a recovery is discarded: a completion after it overwrites what ALL_RESET's own left (R116). -/
theorem commitRsm_recoverOnce (c : Code) (sb : Byte) (f : Fsm) (u : State) :
    commitRsm c sb (setFsm f (recoverOnce recovery u)) =
      { recovered u with
        fsm := f
        fsmPath := f :: (recovered u).fsmPath
        rsm := { (recovered u).rsm with statusByte := .wrote sb }
        err := c.bits
        busy := false
        port := { u.port with resp := .wrote (respWord (sb.setWidth 24) c.bits) } } := by
  have hport : (recoverOnce recovery u).port = u.port := (RsmFrame.ofRecoverOnce .ofRecovery u).port
  rw [commitRsm_eq, setFsm_port, hport]
  unfold recoverOnce recovered
  split <;> rfl

/-- A recovery, where it runs, begins with the toggle of `buf_clear` (R120); where one is running nothing happens. -/
theorem recoverOnce_history (u : State) : ∃ fs, history (recoverOnce recovery u) = history u ++ fs ∧
    (u.inRecovery = false → ∃ c gs, fs = toggleEvents u.cfg c ++ gs) ∧ (u.inRecovery = true → fs = []) := by
  cases h : u.inRecovery with
  | true => exact ⟨[], by simp [recoverOnce, h], by simp, fun _ => rfl⟩
  | false =>
    obtain ⟨c, gs, hg⟩ := allReset_togglesFirst u
    exact ⟨_, by simpa [recoverOnce, h, recovery] using hg, fun _ => ⟨c, gs, rfl⟩, by simp⟩

/-- Settles O40: the recovery of the timed-out status read is ALL_RESET from there, its result overwritten. -/
theorem readStatusTimeout : Obligations.ReadStatusTimeout := by
  unfold Obligations.ReadStatusTimeout
  intro s vs v rest hwf hreads hlen hidle hv
  simp only [← istRxReady_iff_not] at hidle hv
  obtain ⟨u, -, hu, hran, hrsm, hfsm, hpath⟩ := readStatus_late .ofRecovery
    (Config.wf_statusRetries hwf) hreads hidle hv hlen
  have hframe : RsmFrame u (recoverOnce recovery u) := .ofRecoverOnce .ofRecovery u
  have helapsed : u.elapsedUs = s.elapsedUs + s.cfg.statusRetries := by
    rw [hran.elapsed]
    simp [delaySum_append, delaySum_statusReadEvents, delaySum_idleSamples, delaySum, hlen]
  refine ⟨u, recovered u, commitRsm .hardwareTimeout s.cfg.failByte (setFsm .fail (recoverOnce recovery u)),
    congrArg finishRsm hu, hran.hist, ?_, ?_, ?_, ?_, ?_, ?_⟩
  · rw [hran.eq_of_rsm hrsm, hfsm, hpath, helapsed]
  · intro hnone
    have hui : u.inRecovery = false := hran.recovering.trans hnone
    obtain ⟨fs, hhist, htoggles, -⟩ := recoverOnce_history u
    obtain ⟨c, gs, rfl⟩ := htoggles hui
    exact ⟨recovered_idle hui, c, gs, by rw [history_recovered, hhist, hran.cfg]⟩
  · exact fun hrunning => recovered_running (hran.recovering.trans hrunning)
  · rw [commitRsm_recoverOnce, hran.port]
  · exact hframe.inRecovery.trans hran.recovering
  · obtain ⟨es, -, hes⟩ := hframe.trace
    change _ ≤ (recoverOnce recovery u).elapsedUs
    omega

end Sys2Proof.Machine
end

section
/-! PROOFS. WAIT_READY on scripted answers of ENV (R113 to R115). -/

namespace Sys2Proof.Machine

/-! ## The first phase -/

/-- The budget of the second phase, `polls` idle samples of the first one having been counted (R114). -/
def secondBudget (c : Config) (ms : Millis) (polls : Nat) : Nat :=
  if c.rbBudgetShared then retryBudget c ms - polls else retryBudget c ms

/-- WAIT_READY has seen transaction-done after the idle samples `ds`: `u` is where its second phase begins (R114). -/
structure DoneSeen (s : State) (ms : Millis) (ds : List Word) (d : Word) (rest : List Word) (u : State) : Prop where
  runs : exec (.waitReady ms) s = finishRsm (waitDevice recovery u)
  ran : Ran s u (sleepEvents ms ++ idleSamples .interruptStatus ds ++ [.regRead .interruptStatus d]) rest
  rsm : u.rsm = { s.rsm with budget := BitVec.ofNat 32 (retryBudget s.cfg ms),
                             retry := BitVec.ofNat 32 (retryBudget s.cfg ms - ds.length) }
  budget : (if u.cfg.rbBudgetShared then u.rsm.retry else u.rsm.budget) =
    BitVec.ofNat 32 (secondBudget s.cfg ms ds.length)

theorem waitReady_doneSeen {s : State} {ms : Millis} {ds : List Word} {d : Word} {rest : List Word}
    (hwf : s.cfg.wf = true) (hs : s.env.reads = ds ++ d :: rest) (hds : ∀ x ∈ ds, x &&& s.cfg.intDone = 0)
    (hd : d &&& s.cfg.intDone ≠ 0) (hn : ds.length ≤ retryBudget s.cfg ms) : ∃ u, DoneSeen s ms ds d rest u := by
  obtain ⟨u, hu, hran, hrsm⟩ := waitReady_found recovery ms (Config.wf_budgets hwf) hs
    (fun x hx => istDone_iff_not.mpr (hds x hx)) (istDone_iff.mpr hd) hn
  refine ⟨u, congrArg finishRsm hu, hran, hrsm, ?_⟩
  rw [hran.cfg, hrsm, secondBudget]
  split <;> rfl

section
variable {c : Config} {ms : Millis} {k n : Nat}

theorem secondBudget_lt (hwf : c.wf = true) : secondBudget c ms k < 2 ^ 32 := by
  have := retryBudget_lt (Config.wf_budgets hwf) ms
  unfold secondBudget
  split <;> omega

/-- `n` polls of the second phase fit its budget where the polls the budget counts fit it. -/
theorem le_secondBudget (hk : k ≤ retryBudget c ms)
    (h : (if c.rbBudgetShared then k + n else n) ≤ retryBudget c ms) : n ≤ secondBudget c ms k := by
  unfold secondBudget
  split at h
  · rw [if_pos ‹_›]
    omega
  · rwa [if_neg ‹_›]

theorem eq_secondBudget (h : (if c.rbBudgetShared then k + n else n) = retryBudget c ms) :
    n = secondBudget c ms k := by
  unfold secondBudget
  split at h
  · rw [if_pos ‹_›]
    omega
  · rwa [if_neg ‹_›]

theorem secondBudget_sub : secondBudget c ms k - n =
    retryBudget c ms - (if c.rbBudgetShared then k + n else n) := by
  unfold secondBudget
  split <;> omega

end

/-- Settles O44: the first phase uses up its budget. -/
theorem waitReadyNeverDone : Obligations.WaitReadyNeverDone := by
  unfold Obligations.WaitReadyNeverDone
  intro s ms ds d rest hwf hreads hlen hds hd
  obtain ⟨u, hu, hran, hrsm, hfsm⟩ := waitReady_late recovery ms (Config.wf_budgets hwf) hreads
    (fun x hx => istDone_iff_not.mpr (hds x hx)) (istDone_iff_not.mpr hd) hlen
  refine ⟨_, congrArg finishRsm hu, hran.hist, ?_, hfsm, congrArg Rsm.retry hrsm, rfl⟩
  have hsleep : delaySum (sleepEvents ms) = 1000 * ms.toNat := by
    unfold sleepEvents
    split <;> simp [delaySum, *]
  change u.elapsedUs = _
  rw [hran.elapsed]
  simp [delaySum_append, delaySum_idleSamples, hsleep, hlen, delaySum]

/-! ## The ready/busy line -/

/-- Settles O41, by the two phases and the status read on their answers. -/
theorem waitReadyLine : Obligations.WaitReadyLine := by
  unfold Obligations.WaitReadyLine
  intro s ms ds d bs b q rest hwf hrb hreads hds hd hbs hb ⟨hidle, hready, hqlen⟩ hdn hbn
  obtain ⟨u, hdone⟩ := waitReady_doneSeen hwf hreads hds hd hdn
  have hcfg := hdone.ran.cfg
  obtain ⟨t, ht, hran, hrsm, hfsm⟩ := waitDevice_line recovery (s := u) (rs := q.idle) (r := q.ready) (w := q.data)
    (rest := rest) (by rwa [hcfg]) (by rw [hcfg]; exact Config.wf_statusRetries hwf) (secondBudget_lt hwf)
    hdone.budget (by simpa [StatusRound.answers] using hdone.ran.reads)
    (fun x hx => by rw [hcfg]; exact statusDevReady_iff_not.mpr (hbs x hx))
    (by rw [hcfg]; exact statusDevReady_iff.mpr hb) (le_secondBudget hdn hbn) (by rwa [hcfg]) (by rwa [hcfg])
    (by rwa [hcfg])
  rw [hcfg] at ht hran hrsm hfsm
  refine ⟨commitRsm (byteCode s.cfg (wordByte q.data 0)) (wordByte q.data 0) t,
    hdone.runs.trans (congrArg finishRsm ht), ?_, hran.reads, ?_, commitRsm_byte hfsm⟩
  · rw [history_commitRsm]
    simpa [StatusRound.events, sleepEvents] using (hdone.ran.trans hran).hist
  · rw [commitRsm_eq, hrsm, hdone.rsm, secondBudget_sub]
    rfl

/-- Settles O45: the second phase uses up what budget it has. -/
theorem waitReadyNeverReady : Obligations.WaitReadyNeverReady := by
  unfold Obligations.WaitReadyNeverReady
  intro s ms ds d bs b rest hwf hrb hreads hds hd hbs hb hdn hbn
  obtain ⟨u, hdone⟩ := waitReady_doneSeen hwf hreads hds hd hdn
  have hcfg := hdone.ran.cfg
  obtain ⟨t, ht, hran, hrsm, hfsm⟩ := waitDevice_lineLate recovery (s := u) (by rwa [hcfg]) (secondBudget_lt hwf)
    hdone.budget hdone.ran.reads (fun x hx => by rw [hcfg]; exact statusDevReady_iff_not.mpr (hbs x hx))
    (by rw [hcfg]; exact statusDevReady_iff_not.mpr hb) (eq_secondBudget hbn)
  rw [hcfg] at ht
  refine ⟨_, hdone.runs.trans (congrArg finishRsm ht), ?_, hran.reads, hfsm, congrArg Rsm.retry hrsm, rfl⟩
  rw [history_commitRsm]
  simpa using (hdone.ran.trans hran).hist

/-! ## The chip's own ready bit -/

/-- Settles O42, by whether the last byte is ready or has used up the second phase's budget. -/
theorem waitReadyChip : Obligations.WaitReadyChip := by
  unfold Obligations.WaitReadyChip
  intro s ms ds d qs q rest hwf hrb hreads hds hd hdn hqs hq hpolls
  obtain ⟨u, hdone⟩ := waitReady_doneSeen hwf hreads hds hd hdn
  have hcfg := hdone.ran.cfg
  have hn : qs.length ≤ secondBudget s.cfg ms ds.length :=
    le_secondBudget hdn (hpolls.elim (·.1) le_of_eq)
  have hlast : sbIsReady s.cfg (wordByte q.data 0) = true ∨ qs.length = secondBudget s.cfg ms ds.length :=
    hpolls.imp (fun h => sbIsReady_iff.mpr h.2) eq_secondBudget
  obtain ⟨t, ht, hran, hrsm, hfsm⟩ := waitDevice_chip recovery (s := u) (qs := qs) (q := q) (rest := rest)
    (by rwa [hcfg]) (by rw [hcfg]; exact Config.wf_statusRetries hwf) (secondBudget_lt hwf) hdone.budget
    hdone.ran.reads (fun x hx => by rw [hcfg, sbIsReady_iff_not]; exact hqs x hx) (by rwa [hcfg]) hn (by rwa [hcfg])
  rw [hcfg] at ht hran hfsm
  have hhist : history t = history s ++ (sleepEvents ms ++ idleSamples .interruptStatus ds ++
      [.regRead .interruptStatus d] ++ qs.flatMap (fun x => x.events s.cfg ++ [.delay 1]) ++ q.events s.cfg) := by
    simpa using (hdone.ran.trans hran).hist
  rw [← sbIsReady_iff, ← sbIsReady_iff_not]
  cases hr : sbIsReady s.cfg (wordByte q.data 0) with
  | false =>
    have hspent : qs.length = secondBudget s.cfg ms ds.length := hlast.resolve_left (by simp [hr])
    rw [hr] at ht hfsm
    refine ⟨_, hdone.runs.trans (congrArg finishRsm ht), hhist, hran.reads, fun _ => ⟨hfsm, ?_, rfl⟩,
      by simp, by simp⟩
    simp [hrsm, hspent]
  | true =>
    rw [hr] at ht hfsm
    have hbyte := commitRsm_byte (c := s.cfg) (sb := wordByte q.data 0) (u := t)
      (by rw [hfsm]; cases sbFails s.cfg (wordByte q.data 0) <;> rfl)
    exact ⟨_, hdone.runs.trans (congrArg finishRsm ht), hhist, hran.reads, by simp, fun _ => hbyte.1, fun _ => hbyte.2⟩

/-! ## A status byte that does not arrive -/

/-- Settles O43: both second phases reach a status read from which WAIT_READY goes on as READ_STATUS does. -/
theorem waitReadyStatusTimeout : Obligations.WaitReadyStatusTimeout := by
  unfold Obligations.WaitReadyStatusTimeout
  intro s ms ds d mid evs polls vs v rest hwf hreads hds hd hdn hmid hpolls hlen hvs hv
  obtain ⟨u, hdone⟩ := waitReady_doneSeen hwf hreads hds hd hdn
  have hcfg := hdone.ran.cfg
  simp only [← statusDevReady_iff, ← statusDevReady_iff_not, ← sbIsReady_iff_not] at hmid
  obtain ⟨w, hlate, -, hran, hrsm⟩ := waitDevice_reachesStatus recovery (s := u) (mid := mid) (evs := evs)
    (polls := polls) (rest := vs ++ v :: rest) (by rw [hcfg]; exact Config.wf_statusRetries hwf) (secondBudget_lt hwf)
    hdone.budget hdone.ran.reads (le_secondBudget hdn hpolls) (by rwa [hcfg])
  have hw := hdone.ran.trans hran
  obtain ⟨x, hto, hx, hread, -, -, -⟩ := readStatus_late .ofRecovery (s := w) (vs := vs) (v := v) (rest := rest)
    (by rw [hw.cfg]; exact Config.wf_statusRetries hwf) hw.reads
    (fun y hy => by rw [hw.cfg]; exact istRxReady_iff_not.mpr (hvs y hy))
    (by rw [hw.cfg]; exact istRxReady_iff_not.mpr hv) (by rwa [hw.cfg])
  rw [hw.cfg] at hx hread
  obtain ⟨fs, hfs, htoggles, hnone⟩ := recoverOnce_history x
  have hrec : x.inRecovery = s.inRecovery := hread.recovering.trans hw.recovering
  have hwrsm : w.rsm = { s.rsm with
      budget := BitVec.ofNat 32 (retryBudget s.cfg ms)
      retry := BitVec.ofNat 32 (retryBudget s.cfg ms - (if s.cfg.rbBudgetShared then ds.length + polls else polls))
      aux := w.rsm.aux } := by
    rw [hrsm, hdone.rsm, secondBudget_sub]
  refine ⟨w, commitRsm .hardwareTimeout s.cfg.failByte (setFsm .fail (recoverOnce recovery x)), fs,
    hdone.runs.trans (congrArg finishRsm ((hlate hto).trans hx)), congrArg finishRsm hx, hw.hist,
    hw.eq_of_rsm hwrsm, ?_, fun h => ?_, fun h => hnone (hrec.trans h), rfl, rfl, rfl, ?_⟩
  · rw [history_commitRsm, history_setFsm, hfs, hread.hist]
  · rw [← hw.cfg, ← hread.cfg]
    exact htoggles (hrec.trans h)
  · exact (RsmFrame.ofRecoverOnce .ofRecovery x).inRecovery.trans hrec

end Sys2Proof.Machine
end

section
/-! PROOFS. CHIP_RESET and ALL_RESET on scripted answers of ENV (R119 to R123). -/

namespace Sys2Proof.Machine

/-! ## CHIP_RESET -/

theorem regWrites_nfc_get {seq : List (NfcReg × Word)} {r : NfcReg} (h : r ∉ seq.map (·.1)) (s : State) :
    (regWrites seq s).nfc.get r = s.nfc.get r := by
  induction seq generalizing s with
  | nil => rfl
  | cons p rest ih =>
    rw [List.map_cons, List.mem_cons, not_or] at h
    rw [regWrites, ih h.2, regWrite_nfc, NfcFile.get_set_other _ _ (Ne.symm h.1)]

/-- Settles O46: ChipReset is the writes of its sequence, then WaitReady(0). -/
theorem chipResetThenWaits : Obligations.ChipResetThenWaits := by
  unfold Obligations.ChipResetThenWaits
  intro s
  refine ⟨regWrites s.cfg.chipResetSeq s, _, rfl, rfl, history_regWrites _ s, ?_, fun r hr => regWrites_nfc_get hr s⟩
  rw [regWrites_trace]
  exact regWrites_state _ s

/-! ## ALL_RESET -/

/-- Inside a recovery, ChipReset is the same whatever recovery it is given, for it starts none (R121). -/
theorem chipReset_recovering (f g : State → State) (hg : ∀ s, RsmFrame s (g s)) {s : State} (h : s.inRecovery = true) :
    chipReset f s = chipReset g s :=
  waitReady_recovering f g hg 0 ((regWrites_inRecovery _ s).trans h)

/-- Settles O47: after the two waits ALL_RESET is ChipReset, which starts no recovery there. -/
theorem allResetReachesChipReset : Obligations.AllResetReachesChipReset := by
  unfold Obligations.AllResetReachesChipReset
  intro s c xs x ys y rest hwf hreads hxs hx hys hy hxn hyn
  obtain ⟨u, hu, -, hall⟩ := allReset_reaches (Config.wf_resetRetries hwf) hreads
    (fun v hv => bufClearTookEffect_iff_not.mpr (hxs v hv)) (bufClearTookEffect_iff.mpr hx) hxn
  have hcfg : u.cfg = s.cfg := hu.cfg
  obtain ⟨t, ht, htran, -⟩ := waitCtrlIdle_found (s := u) (by rw [hcfg]; exact Config.wf_resetRetries hwf) hu.reads
    (fun v hv => by rw [hcfg]; exact statusCtrlBusy_iff.mpr (hys v hv))
    (by rw [hcfg]; exact statusCtrlBusy_iff_not.mpr hy) (by rwa [hcfg])
  have hran := hu.trans htran
  have hrec : t.inRecovery = true := hran.recovering
  have hend : allReset s =
      { chipReset recovery t with st := leaveRecovery s.inRecovery (chipReset recovery t).st } := by
    rw [chipReset_recovering recovery id RsmFrame.refl hrec, hall, ht]
  have hhist : history t = history s ++ _ := hran.hist
  refine ⟨t, commitRsm (chipReset recovery t).code (chipReset recovery t).sb (chipReset recovery t).st,
    congrArg finishRsm hend, rfl, hrec, hran.reads, hran.cfg, ?_⟩
  simpa [toggleEvents, controlClearOn, controlClearOff] using hhist

/-- Settles O48, by which of the two waits uses up its budget. -/
theorem allResetWaitsFail : Obligations.AllResetWaitsFail := by
  unfold Obligations.AllResetWaitsFail
  intro s c xs x rest hwf hreads hxs
  have hb := Config.wf_resetRetries hwf
  have hxs' : ∀ v ∈ xs, bufClearTookEffect s.cfg v = false := fun v hv => bufClearTookEffect_iff_not.mpr (hxs v hv)
  constructor
  · intro hx hn
    obtain ⟨u, hu, hran, hrsm, hfsm⟩ := allReset_late1 hb hreads hxs' (bufClearTookEffect_iff_not.mpr hx) hn
    exact ⟨_, congrArg finishRsm hu, hran.hist, hfsm, hran.recovering, congrArg Rsm.aux hrsm, rfl⟩
  · intro ys y rest' hx hxn hrest hys hy hyn
    obtain ⟨u, hu, -, hall⟩ := allReset_reaches hb hreads hxs' (bufClearTookEffect_iff.mpr hx) hxn
    have hcfg : u.cfg = s.cfg := hu.cfg
    obtain ⟨t, ht, htran, hrsm⟩ := waitCtrlIdle_late (s := u) (by rwa [hcfg]) (hu.reads.trans hrest)
      (fun v hv => by rw [hcfg]; exact statusCtrlBusy_iff.mpr (hys v hv))
      (by rw [hcfg]; exact statusCtrlBusy_iff.mpr hy) (by rwa [hcfg])
    have hran := hu.trans htran
    have hend : allReset s = ⟨.hardwareTimeout, s.cfg.failByte, setFsm .fail (leaveRecovery s.inRecovery t)⟩ := by
      rw [hall, ht]
      simp only [returnTimeout, leaveRecovery_cfg, hran.cfg]
      rfl
    refine ⟨_, congrArg finishRsm hend, ?_, rfl, rfl, congrArg Rsm.aux hrsm, rfl⟩
    have hhist : history t = history s ++ _ := hran.hist
    change history t = _
    simpa using hhist

end Sys2Proof.Machine
end

section
/-! PROOFS. The ECC verification comparator: the comparison of ECC_VERIFY.READ and its frame, and the read-backs of
ECC_VERIFY.WRITE with the one comparison on their image (R140 to R150). -/

namespace Sys2Proof.Machine

/-! ## The comparison -/

/-- What code `code` and the number `k` of stored bytes read say of register value `e` and the stored bytes (R142). -/
structure EccVerdict (e : Word) (stored : Nat → Byte) (code : Code) (k : Nat) : Prop where
  ok_iff : code = .ok ↔ e = 0 ∨ ∀ j < 4, stored j = wordByte e j
  codes : code = .ok ∨ code = .eccMismatch
  zero : e = 0 → k = 0
  whole : e ≠ 0 → code = .ok → k = 4
  mismatch : code = .eccMismatch → 0 < k ∧ k ≤ 4 ∧ stored (k - 1) ≠ wordByte e (k - 1)
  agree : ∀ j, j + 1 < k → stored j = wordByte e j

/-- The three ways the comparison ends (R142): a register of 0, four bytes that agree, a first byte that differs. -/
theorem EccVerdict.ofCases {e : Word} {stored : Nat → Byte} {code : Code} {k : Nat} (hk : k ≤ 4)
    (hagree : ∀ j, j + 1 < k → stored j = wordByte e j)
    (hcases : e = 0 ∧ code = .ok ∧ k = 0 ∨
      e ≠ 0 ∧ code = .ok ∧ k = 4 ∧ (∀ j < 4, stored j = wordByte e j) ∨
      e ≠ 0 ∧ code = .eccMismatch ∧ 0 < k ∧ stored (k - 1) ≠ wordByte e (k - 1)) : EccVerdict e stored code k := by
  obtain ⟨rfl, rfl, rfl⟩ | ⟨he, rfl, rfl, hall⟩ | ⟨he, rfl, hpos, hdiff⟩ := hcases
  · exact ⟨by simp, .inl rfl, fun _ => rfl, fun h => absurd rfl h, by simp, hagree⟩
  · exact ⟨iff_of_true rfl (.inr hall), .inl rfl, fun h => absurd h he, fun _ _ => rfl, by simp, hagree⟩
  · refine ⟨iff_of_false (by simp) ?_, .inr rfl, fun h => absurd h he, by simp, fun _ => ⟨hpos, hk, hdiff⟩, hagree⟩
    rintro (h | hall)
    · exact he h
    · exact hdiff (hall (k - 1) (by omega))

/-- `t` is the end of an operation whose comparison on the image at `base` started in `s`: `e` was read from ECC, `k`
stored bytes were compared, and `code` was committed (R142, R149). -/
structure EccCompared (base : Nat) (stored : Nat → Byte) (s : State) (code : Code) (e : Word) (k : Nat) (t : State) :
    Prop where
  ecv : t.ecv = { s.ecv with latch := .wrote e }
  answer : ∀ vs v, s.env.reads = v :: vs → e = v
  hist : history t = history s ++ .regRead .ecc e :: eccReadEvents s.cfg base stored k
  verdict : EccVerdict e stored code k
  rereads : t.env.rereads = s.env.rereads
  err : t.err = code.bits
  port : t.port = { s.port with resp := .wrote (respWord 0 code.bits) }
  busy : t.busy = false

/-- An operation that ends in the comparison of an image in BUFMEM whose stored ECC bytes hold values (R142, R149). -/
theorem finishEcv_eccCompare {base : Nat} {s : State} {stored : Nat → Byte} (hwf : s.cfg.wf = true)
    (hbase : base + s.cfg.pageImage ≤ s.cfg.bufmemSize)
    (hheld : ∀ j < 4, Memory.lookup s.bufmem (eccAddr s.cfg base j) = some (stored j)) :
    ∃ code e k t, finishEcv (eccCompare base s) = .next t ∧ EccCompared base stored s code e k t := by
  have hroom : eccAddr s.cfg base 4 ≤ s.cfg.bufmemSize := eccAddr_lt hwf hbase (j := 3) (by decide)
  obtain ⟨code, k, u, hu, hstate, hhist, hk, hagree, hcases⟩ :=
    eccCompare_spec (Config.wf_eccBytes hwf) hroom hheld
  have hframe := eccCompare_state hu
  have hecv : u.ecv = { s.ecv with latch := .wrote (regRead .ecc s).1 } := by
    rw [hstate]
    simp
  have hport : u.port = s.port := (congrArg State.port hframe :)
  exact ⟨code, _, k, commit code 0 u, by rw [hu, finishEcv], hecv, fun vs v hr => by rw [regRead_cons hr], hhist,
    .ofCases hk hagree hcases, (congrArg (·.env.rereads) hframe :), rfl, by rw [← hport]; rfl, rfl⟩

/-! ## ECC_VERIFY.READ -/

/-- Settles O51: the comparison on the image at the buffer. -/
theorem eccReadCompares : Obligations.EccReadCompares := by
  unfold Obligations.EccReadCompares
  intro s buf page stored hwf hrange hheld
  obtain ⟨code, e, k, t, hx, h⟩ := finishEcv_eccCompare hwf (regionInBufmem_le hrange) hheld
  have hv := h.verdict
  exact ⟨code, e, k, t, hx, congrArg Ecv.latch h.ecv, h.answer, h.hist, hv.ok_iff, hv.codes, hv.zero, hv.whole,
    hv.mismatch, hv.agree, h.err, h.port, h.busy⟩

/-- Settles O52, by the comparison with a register of zero. -/
theorem eccReadZeroRegister : Obligations.EccReadZeroRegister := by
  unfold Obligations.EccReadZeroRegister
  intro s buf page vs hr
  have hread := regRead_cons (r := .ecc) hr
  have hcompare := eccCompare_zero (base := buf.toNat) (s := s) (by rw [hread])
  rw [hread] at hcompare
  exact congrArg finishEcv hcompare

/-- The byte comparisons add reads of BUFMEM to the history, and no register write (R142). -/
theorem compareEcc_noRegWrite {e : Word} {base i n : Nat} {s t : State} {code : Code}
    (h : compareEcc e base i n s = .ok (code, t)) :
    ∃ es, t.trace = es ++ s.trace ∧ ∀ x ∈ es, isRegWrite x = false := by
  induction n generalizing i s with
  | zero =>
    obtain ⟨-, rfl⟩ := Prod.mk.inj (Except.ok.inj h)
    exact ⟨[], rfl, by simp⟩
  | succ n ih =>
    rw [compareEcc] at h
    split at h
    · simp at h
    · next b u hu =>
      obtain ⟨-, -, rfl⟩ := memRead_ok hu
      split at h
      · obtain ⟨es, htrace, hes⟩ := ih h
        exact ⟨es ++ [.bufRead (eccAddr s.cfg base i) b], by simp [htrace],
          by simpa [or_imp, forall_and, isRegWrite] using hes⟩
      · obtain ⟨-, rfl⟩ := Prod.mk.inj (Except.ok.inj h)
        exact ⟨[.bufRead (eccAddr s.cfg base i) b], rfl, by simp [isRegWrite]⟩

theorem eccCompare_noRegWrite {base : Nat} {s t : State} {code : Code} (h : eccCompare base s = .ok (code, t)) :
    ∃ es, t.trace = es ++ s.trace ∧ ∀ x ∈ es, isRegWrite x = false := by
  have hread : isRegWrite (.regRead .ecc (regRead .ecc s).1) = false := rfl
  unfold eccCompare at h
  simp only at h
  split at h
  · obtain ⟨-, rfl⟩ := Prod.mk.inj (Except.ok.inj h)
    exact ⟨[.regRead .ecc (regRead .ecc s).1], by simp, by simp [hread]⟩
  · obtain ⟨es, htrace, hes⟩ := compareEcc_noRegWrite h
    exact ⟨es ++ [.regRead .ecc (regRead .ecc s).1], by simp [htrace], by simpa [or_imp, forall_and, hread] using hes⟩

/-- Settles O54, by the frame of the comparison and the events it adds. -/
theorem eccReadChangesNothingElse : Obligations.EccReadChangesNothingElse := by
  unfold Obligations.EccReadChangesNothingElse
  intro buf page s t h
  obtain ⟨code, u, hu, rfl⟩ := finishEcv_next h
  exact ⟨congrArg (commit code 0) (eccCompare_state hu), (eccCompare_noRegWrite hu :)⟩

/-! ## The read-backs of ECC_VERIFY.WRITE -/

/-- The state after read-back number `n`, of page `p`, that the listed answer `a` answers; `rest` is left of the list
(R69, R146). -/
def attempted (n : BitVec 2) (p : Nat) (a : RereadAnswer) (rest : List RereadAnswer) (s : State) : State :=
  { applyHavoc a.havoc (setEcvAttempt n s) with
    env := { s.env with rereads := rest }
    bufmem := Memory.storeAll s.bufmem s.cfg.rbufBase (imageBytes s.cfg a s.trace)
    trace := .reread p a.ok :: s.trace }

theorem history_attempted (n : BitVec 2) (p : Nat) (a : RereadAnswer) (rest : List RereadAnswer) (s : State) :
    history (attempted n p a rest s) = history s ++ [.reread p a.ok] :=
  List.reverse_cons

theorem pageReread_attempted {n : BitVec 2} {p : Nat} {a : RereadAnswer} {rest : List RereadAnswer} {s : State}
    (hwf : s.cfg.wf = true) (hq : s.env.rereads = a :: rest) :
    pageReread p s.cfg.rbufBase (setEcvAttempt n s) = .ok (a.ok, attempted n p a rest s) :=
  pageReread_cons (s := setEcvAttempt n s) (Config.wf_rbuf hwf) hq

theorem readBack_first {p : Nat} {a : RereadAnswer} {rest : List RereadAnswer} {s : State} (hwf : s.cfg.wf = true)
    (hq : s.env.rereads = a :: rest) (ha : a.ok = true) : readBack p s = .ok (true, attempted 1 p a rest s) := by
  rw [readBack, pageReread_attempted hwf hq, ha]

theorem readBack_second {p : Nat} {a b : RereadAnswer} {rest : List RereadAnswer} {s : State} (hwf : s.cfg.wf = true)
    (hq : s.env.rereads = a :: b :: rest) (ha : a.ok = false) :
    readBack p s = .ok (b.ok, attempted 2 p b rest (attempted 1 p a (b :: rest) s)) := by
  rw [readBack, pageReread_attempted hwf hq, ha]
  exact pageReread_attempted (s := attempted 1 p a (b :: rest) s) hwf rfl

/-- The read-backs of a page up to one that succeeds, the first or the second: `w` is the state before that one. -/
theorem readBack_succeeds {p : Nat} {failed rest : List RereadAnswer} {a : RereadAnswer} {s : State}
    (hwf : s.cfg.wf = true) (hq : s.env.rereads = failed ++ a :: rest) (hlen : failed.length ≤ 1)
    (hfailed : ∀ x ∈ failed, x.ok = false) (ha : a.ok = true) :
    ∃ (n : BitVec 2) (w : State), readBack p s = .ok (true, attempted n p a rest w) ∧ n.toNat = failed.length + 1 ∧
      w.cfg = s.cfg ∧ w.port = s.port ∧ w.env.reads = s.env.reads ∧
      history w = history s ++ failed.map fun _ => .reread p false := by
  match failed with
  | [] => exact ⟨1, s, readBack_first hwf hq ha, rfl, rfl, rfl, rfl, by simp⟩
  | [x] =>
    have hx : x.ok = false := hfailed x (by simp)
    refine ⟨2, attempted 1 p x (a :: rest) s, by rw [readBack_second hwf hq hx, ha], rfl, rfl, rfl, rfl, ?_⟩
    rw [history_attempted, hx]
    rfl
  | _ :: _ :: _ => simp at hlen

/-- The image a read-back leaves is the answer's, where the answer lists it whole (R69 b). -/
theorem lookup_attempted {n : BitVec 2} {p i : Nat} {a : RereadAnswer} {rest : List RereadAnswer} {s : State}
    (himage : a.image.length = s.cfg.pageImage) (hi : i < s.cfg.pageImage) :
    Memory.lookup (attempted n p a rest s).bufmem (s.cfg.rbufBase + i) = some (a.image.getD i 0) := by
  rw [attempted, Memory.lookup_storeAll_inside (by simpa using hi)]
  simp [imageBytes, himage, hi]

theorem eccAddr_eq (c : Config) (base j : Nat) : eccAddr c base j = base + (c.pageSize + c.eccOobOffset + j) := by
  simp only [eccAddr, Nat.add_assoc]

theorem verifyWrite_succeeded {page : Word} {s u : State} (h : readBack (reducePage s.cfg page) s = .ok (true, u)) :
    verifyWrite page s = eccCompare u.cfg.rbufBase u := by
  rw [verifyWrite, h]

theorem verifyWrite_failed {page : Word} {s u : State} (h : readBack (reducePage s.cfg page) s = .ok (false, u)) :
    verifyWrite page s = .ok (.eccMismatch, u) := by
  rw [verifyWrite, h]

/-- Settles O55: the read-backs up to the one that succeeds, then the comparison on its image. -/
theorem eccWriteCompares : Obligations.EccWriteCompares := by
  unfold Obligations.EccWriteCompares
  intro s buf page failed a rest hwf hq hlen hfailed ha himage stored p
  obtain ⟨n, w, hback, hn, hcfg, hport, hreads, hhist⟩ := readBack_succeeds (p := p) hwf hq hlen hfailed ha
  rw [← hcfg] at hwf himage
  have hecc := Config.wf_eccOob hwf
  have hheld : ∀ j < 4, Memory.lookup (attempted n p a rest w).bufmem (eccAddr w.cfg w.cfg.rbufBase j) =
      some (stored j) := by
    intro j hj
    rw [eccAddr_eq, lookup_attempted himage (by unfold Config.pageImage; omega), hcfg]
  obtain ⟨code, e, k, t, hx, h⟩ := finishEcv_eccCompare (s := attempted n p a rest w) hwf (Config.wf_rbuf hwf) hheld
  have hv := h.verdict
  refine ⟨code, e, k, t, (congrArg finishEcv (verifyWrite_succeeded hback)).trans hx, ?_, congrArg Ecv.latch h.ecv,
    fun vs v hr => h.answer vs v (hreads.trans hr), ?_, hv.ok_iff, hv.codes, hv.zero, hv.whole, hv.mismatch, hv.agree,
    h.rereads, h.err, ?_, h.busy⟩
  · rw [h.ecv]
    exact hn
  · rw [h.hist, history_attempted, hhist, ha, ← hcfg, List.append_assoc]
    rfl
  · rw [h.port, ← hport]
    rfl

/-- Settles O56: after a second read-back that fails too, EccMismatch is committed. -/
theorem eccWriteReadBackFails : Obligations.EccWriteReadBackFails := by
  unfold Obligations.EccWriteReadBackFails
  intro s buf page a b rest hwf hq ha hb
  have hback := readBack_second (p := reducePage s.cfg page) hwf hq ha
  rw [hb] at hback
  refine ⟨_, congrArg finishEcv (verifyWrite_failed hback), rfl, ?_, rfl, rfl⟩
  change history (attempted 2 _ b rest (attempted 1 _ a (b :: rest) s)) = _
  rw [history_attempted, history_attempted, ha, hb, List.append_assoc]
  rfl

/-! ## The page of ECC_VERIFY.WRITE -/

/-- From `s` to `t` the history grew, and its first new event is a re-read of page `p`. -/
def StartsWithReread (p : Nat) (s t : State) : Prop := ∃ ok es, t.trace = es ++ .reread p ok :: s.trace

theorem StartsWithReread.history {p : Nat} {s t : State} (h : StartsWithReread p s t) :
    ∃ ok fs, history t = history s ++ .reread p ok :: fs := by
  obtain ⟨ok, es, htrace⟩ := h
  exact ⟨ok, es.reverse, by simp [Machine.history, htrace]⟩

theorem StartsWithReread.grow {p x : Nat} {s t u : State} (h : StartsWithReread p s t) (k : Timed x t u) :
    StartsWithReread p s u := by
  obtain ⟨ok, es, htrace⟩ := h
  obtain ⟨fs, ktrace, -⟩ := k
  exact ⟨ok, fs ++ es, by rw [ktrace, htrace, List.append_assoc]⟩

theorem StartsWithReread.ofAttempt {n : BitVec 2} {p dst : Nat} {s t : State} {ok : Bool}
    (h : pageReread p dst (setEcvAttempt n s) = .ok (ok, t)) : StartsWithReread p s t := by
  obtain ⟨a, e, -, -, -, heq⟩ := pageReread_of_le (p := p) (pageReread_le h)
  obtain ⟨-, rfl⟩ := Prod.mk.inj (Except.ok.inj (heq.symm.trans h))
  exact ⟨a.ok, [], rfl⟩

theorem StartsWithReread.ofReadBack {p : Nat} {s t : State} {ok : Bool} (h : readBack p s = .ok (ok, t)) :
    StartsWithReread p s t := by
  unfold readBack at h
  split at h
  · simp at h
  · next u hu =>
    obtain ⟨-, rfl⟩ := Prod.mk.inj (Except.ok.inj h)
    exact .ofAttempt hu
  · next u hu =>
    obtain ⟨x, hx⟩ := Timed.ofAttempt h
    exact (StartsWithReread.ofAttempt hu).grow hx

theorem StartsWithReread.ofVerifyWrite {page : Word} {s t : State} {code : Code}
    (h : verifyWrite page s = .ok (code, t)) : StartsWithReread (reducePage s.cfg page) s t := by
  unfold verifyWrite at h
  split at h
  · simp at h
  · next u hu =>
    obtain ⟨-, rfl⟩ := Prod.mk.inj (Except.ok.inj h)
    exact .ofReadBack hu
  · next u hu => exact (StartsWithReread.ofReadBack hu).grow (.ofEccCompare h)

/-- The page reduced to the chip is the remainder, with PAGE_WRAP (R145). -/
theorem reducePage_of_pageWrap {c : Config} (hwf : c.wf = true) (hwrap : c.pageWrap = true) (page : Word) :
    reducePage c page = page.toNat % c.numPages := by
  obtain ⟨k, hk⟩ := Config.wf_numPages hwf
  rw [reducePage, if_pos hwrap, Config.numPages, hk, Nat.and_two_pow_sub_one_eq_mod]

/-- Settles O58: the first event of the read-backs, and the mask of a power of two. -/
theorem pageReduced : Obligations.PageReduced := by
  unfold Obligations.PageReduced
  intro buf page s hwf
  refine ⟨fun t h => ?_, fun hwrap => ⟨by rw [reducePage, if_pos hwrap, Config.numPages],
    reducePage_of_pageWrap hwf hwrap page⟩, fun hwrap => by simp [reducePage, hwrap], fun hwrap hpage => ?_⟩
  · obtain ⟨code, u, hu, rfl⟩ := finishEcv_next h
    exact (StartsWithReread.ofVerifyWrite hu).history
  · rw [decodeRequest_encode, decodeAdmission_error_iff]
    have hrange : (Instr.eccVerifyWrite buf page).inRange s.cfg = false := by
      rw [Instr.inRange, hwrap, Bool.false_or, decide_eq_false_iff_not]
      exact Nat.not_lt.mpr hpage
    exact .inr ⟨rfl, hrange, rfl⟩

end Sys2Proof.Machine
end

section
/-! PROOFS. BB_DETECT: the verdict on the tag byte of the request (R157, R161). -/

namespace Sys2Proof.Machine

/-- BB_DETECT judges the tag of the request as BB_PROBE judges one it has read (R157, R159). -/
theorem exec_bbDetect (tag : Byte) (s : State) : exec (.bbDetect tag) s = finishProbe (.byte tag) s := rfl

/-- Settles O59: the state after the verdict on a byte, with the verdict and RESP written out. -/
theorem bbDetectVerdict : Obligations.BbDetectVerdict := by
  unfold Obligations.BbDetectVerdict
  intro tag s
  rw [exec_bbDetect, finishProbe_eq, ← tagIsBad_eq, ← respWord_verdict]
  rfl

end Sys2Proof.Machine
end

section
/-! PROOFS. The HOST's view of an RSM operation's response: what the fail bit of the byte in RESP says (R180, R203). -/

namespace Sys2Proof.Machine

/-- An RSM operation commits its status byte where the HOST reads it: `val24[7:0]` (R78, R112). -/
@[simp] theorem respStatusByte_respWord (sb : Byte) (c : BitVec 4) :
    respStatusByte (respWord (sb.setWidth 24) c) = sb := by
  apply BitVec.eq_of_getLsbD_eq
  intro i hi
  simp [respStatusByte, respWord_getLsbD, hi, show ¬ 8 + i < 4 by omega, show i < 24 by omega]

/-- Settles O37, by the three ways an RSM operation completes: the byte of a timeout is FAIL_BYTE, whose fail bit is
set (R10), so it reads as the byte of a device failure does. -/
theorem failBitSurfaces : Obligations.FailBitSurfaces := by
  unfold Obligations.FailBitSurfaces
  intro i s t hi hwf h
  obtain ⟨code, sb, u, hx, -, -, hport, -, hends⟩ := rsmCompletion i s hi
  obtain rfl := Host.Outcome.next.inj (hx.symm.trans h)
  simp only [hport, Reg.wrote, respStatusByte_respWord, respCode_respWord]
  obtain ⟨rfl, -, hclear⟩ | ⟨rfl, -, hset⟩ | ⟨rfl, -, rfl⟩ := hends
  · exact iff_of_false (not_not_intro hclear) (by decide)
  · exact iff_of_true hset (.inr rfl)
  · exact iff_of_true (Config.wf_sbFail hwf) (.inl rfl)

end Sys2Proof.Machine
end

section
/-! PROOFS. Every accepted operation ends: the reads of BUFMEM are the only stops of an operation in range, and none of
them is reached where the bytes hold values (R44, R56, R250). -/

namespace Sys2Proof.Machine

/-! ## The bytes the comparison may read -/

theorem exists_stored {s : State} {base : Nat} (h : holds s (eccAddr s.cfg base 0) 4) :
    ∃ stored : Nat → Byte, ∀ j < 4, Memory.lookup s.bufmem (eccAddr s.cfg base j) = some (stored j) := by
  have hbyte : ∀ j < 4, ∃ b, Memory.lookup s.bufmem (eccAddr s.cfg base j) = some b :=
    fun j hj => Option.ne_none_iff_exists'.mp (h j hj)
  choose! stored hstored using hbyte
  exact ⟨stored, hstored⟩

/-- The four stored ECC bytes are bytes of the page image (R9, R141). -/
theorem holds_stored_of_image {s : State} {base : Nat} (hwf : s.cfg.wf = true) (h : holds s base s.cfg.pageImage) :
    holds s (eccAddr s.cfg base 0) 4 := by
  have hecc := Config.wf_eccOob hwf
  intro j hj
  have hbyte := h (s.cfg.pageSize + s.cfg.eccOobOffset + j) (by unfold Config.pageImage; omega)
  rwa [← eccAddr_eq] at hbyte

theorem finishEcv_eccCompare_next {s : State} {base : Nat} (hwf : s.cfg.wf = true)
    (hbase : base + s.cfg.pageImage ≤ s.cfg.bufmemSize) (h : holds s (eccAddr s.cfg base 0) 4) :
    ∃ t, finishEcv (eccCompare base s) = .next t := by
  obtain ⟨stored, hstored⟩ := exists_stored h
  obtain ⟨-, -, -, t, ht, -⟩ := finishEcv_eccCompare hwf hbase hstored
  exact ⟨t, ht⟩

/-! ## The read-backs of ECC_VERIFY.WRITE -/

/-- A re-read writes every byte of the image, whatever it answers (R69 b). -/
theorem Reread.image_holds {p dst : Nat} {s t : State} {ok : Bool} (h : Reread p dst s t ok) :
    holds t dst s.cfg.pageImage := by
  obtain ⟨bs, hlen, hmem⟩ := h.image
  intro j hj
  rw [hmem, Memory.lookup_storeAll_inside (hlen ▸ hj)]
  simp

/-- One read-back ends with the whole image in BUFMEM (R69, R146). -/
theorem pageReread_ends (n : BitVec 2) (p : Nat) {s : State} (hwf : s.cfg.wf = true) :
    ∃ ok t, pageReread p s.cfg.rbufBase (setEcvAttempt n s) = .ok (ok, t) ∧ t.cfg = s.cfg ∧
      holds t s.cfg.rbufBase s.cfg.pageImage := by
  obtain ⟨ok, t, ht, hreread⟩ := pageReread_spec (p := p) (s := setEcvAttempt n s) (Config.wf_rbuf hwf)
  exact ⟨ok, t, ht, (congrArg State.cfg hreread.eq :), hreread.image_holds⟩

/-- Both read-backs may fail, and neither faults (R146). -/
theorem readBack_ends (p : Nat) {s : State} (hwf : s.cfg.wf = true) :
    ∃ ok t, readBack p s = .ok (ok, t) ∧ t.cfg = s.cfg ∧ holds t s.cfg.rbufBase s.cfg.pageImage := by
  obtain ⟨ok, u, hu, hcfg, hheld⟩ := pageReread_ends 1 p hwf
  cases ok with
  | true => exact ⟨true, u, by rw [readBack, hu], hcfg, hheld⟩
  | false =>
    obtain ⟨ok, t, ht, hcfg', hheld'⟩ := pageReread_ends 2 p (s := u) (hcfg ▸ hwf)
    rw [hcfg] at ht hcfg' hheld'
    exact ⟨ok, t, by rw [readBack, hu]; exact ht, hcfg', hheld'⟩

/-- ECC_VERIFY.WRITE needs no premise on BUFMEM: it compares only an image its own read-back has written (R146). -/
theorem exec_eccVerifyWrite_next (buf page : Word) {s : State} (hwf : s.cfg.wf = true) :
    ∃ t, exec (.eccVerifyWrite buf page) s = .next t := by
  obtain ⟨ok, u, hback, hcfg, hheld⟩ := readBack_ends (reducePage s.cfg page) hwf
  rw [← hcfg] at hwf hheld
  cases ok with
  | false => exact ⟨_, congrArg finishEcv (verifyWrite_failed hback)⟩
  | true =>
    obtain ⟨t, ht⟩ := finishEcv_eccCompare_next hwf (Config.wf_rbuf hwf) (holds_stored_of_image hwf hheld)
    exact ⟨t, (congrArg finishEcv (verifyWrite_succeeded hback)).trans ht⟩

/-! ## Every operation -/

/-- Settles O22, by unit: a transfer in range ends (R99), an RSM operation always does (R112), a comparison does where
its four stored bytes hold values (R142), and a verdict on a tag always does (R157, R159). -/
theorem everyOperationEnds : Obligations.EveryOperationEnds := by
  unfold Obligations.EveryOperationEnds
  intro i s hwf hi hpush hecc
  have hrange : i.inRange s.cfg = true := (Bool.and_eq_true_iff.mp hi).2
  cases i with
  | pull len buf =>
    obtain ⟨-, t, ht, -⟩ := dteCompletion (.pull len buf) len buf s (.inl rfl) hwf hrange
    exact ⟨t, ht⟩
  | push len buf =>
    obtain ⟨-, t, ht, -⟩ := dteCompletion (.push len buf) len buf s (.inr ⟨rfl, hpush len buf rfl⟩) hwf hrange
    exact ⟨t, ht⟩
  | waitReady ms => exact exec_rsm_next rfl s
  | readStatus => exact exec_rsm_next rfl s
  | chipReset => exact exec_rsm_next rfl s
  | allReset => exact exec_rsm_next rfl s
  | eccVerifyRead buf page =>
    exact finishEcv_eccCompare_next hwf (regionInBufmem_le hrange) (hecc buf page rfl)
  | eccVerifyWrite buf page => exact exec_eccVerifyWrite_next buf page hwf
  | bbDetect tag => exact ⟨_, bbDetectVerdict tag s⟩
  | bbProbe off =>
    obtain ⟨-, t, ht, -⟩ := bbProbeVerdict off s hwf
    exact ⟨t, ht⟩

end Sys2Proof.Machine
end
